-- ==== Sys2Proof/Word.lean ====
section
/-! DEFINITION. The word types of the block: 32-bit registers (R50), bytes, 16-bit window offsets (R150), and the order
of binary32 patterns that R14's comparisons and R17's "non-decreasing" are about. -/

namespace Sys2Proof

/-- One 32-bit register or command word (R50, R200). -/
abbrev Word := BitVec 32

/-- One byte lane (R155). -/
abbrev Byte := BitVec 8

/-- A byte offset in the register window, 0x0000 to 0xFFFF (R150). -/
abbrev Addr := BitVec 16

/-- Where a binary32 pattern lies in the order of R14: the magnitude bits, counted down from zero when bit 31 is
set. The two zeros share a place. The places of NaN patterns mean nothing. -/
def orderKey (x : Word) : Int :=
  if x.msb then -((x.toNat % 2 ^ 31 : Nat) : Int) else ((x.toNat % 2 ^ 31 : Nat) : Int)

end Sys2Proof
end

