-- ==== Sys2Proof/Syntax.lean ====
section
/-! DEFINITION. The 29 commands of the TSBC command set (R204), one constructor per row of the opcode table, each with the
fields of its format (R202, R203) as the decoder reads them. -/

namespace Sys2Proof

/-- A command with its fields. `chm` is CHM (bit 0 selects channel 0, bit 1 channel 1), `char` CHAR, `model` MODEL,
`trim` T, `nch` NCH, `hpf` HPF and `ms` MS (R203). CHAR 3, MODEL 5 to 7 and NCH 0 or 3 decode and are refused by the
command (R206). -/
inductive Instr where
  | nop
  | tsSetRate (chm : BitVec 2)
  | tsSetMode (chm : BitVec 2) (char : BitVec 2) (model : BitVec 3)
  | tsSetProc (chm : BitVec 2)
  | tsReset (chm : BitVec 2)
  | tsProcess (chm : BitVec 2) (trim : Bool)
  | tsSatEval (chm : BitVec 2)
  | cpSetInTrim
  | cpSetOutTrim
  | msEncode
  | msDecode
  | bcPrepare (nch : BitVec 2)
  | bcSetThresh
  | bcSetRatio
  | bcSetAttack
  | bcSetRelease
  | bcSetMakeup
  | bcSetFlags (hpf : Bool) (ms : Bool)
  | bcSetDrive
  | bcSetLink
  | bcSetSatKnee
  | bcSetBoost
  | bcSetScFreq
  | bcSetDcAmp
  | bcSetDcSeed
  | bcReset
  | bcBlockBegin
  | bcFrame
  | bcBlockEnd
deriving DecidableEq, Repr

end Sys2Proof
end

