-- ==== Sys2Proof/WellFormed.lean ====
section
/-! DEFINITION. Which commands have an encoding: the channel mask of formats C, M and P is not empty (R203, R206). Every
other field may hold any value (R206). -/

namespace Sys2Proof

/-- The channel mask of a command of format C, M or P (R202); none for the other formats. -/
def Instr.channelMask : Instr → Option (BitVec 2)
  | .nop => none
  | .tsSetRate chm => some chm
  | .tsSetMode chm _ _ => some chm
  | .tsSetProc chm => some chm
  | .tsReset chm => some chm
  | .tsProcess chm _ => some chm
  | .tsSatEval chm => some chm
  | .cpSetInTrim => none
  | .cpSetOutTrim => none
  | .msEncode => none
  | .msDecode => none
  | .bcPrepare _ => none
  | .bcSetThresh => none
  | .bcSetRatio => none
  | .bcSetAttack => none
  | .bcSetRelease => none
  | .bcSetMakeup => none
  | .bcSetFlags _ _ => none
  | .bcSetDrive => none
  | .bcSetLink => none
  | .bcSetSatKnee => none
  | .bcSetBoost => none
  | .bcSetScFreq => none
  | .bcSetDcAmp => none
  | .bcSetDcSeed => none
  | .bcReset => none
  | .bcBlockBegin => none
  | .bcFrame => none
  | .bcBlockEnd => none

/-- R206 (b): a command of format C, M or P selects at least one channel. -/
def Instr.wellFormed (i : Instr) : Bool :=
  i.channelMask != some 0#2

end Sys2Proof
end

