-- ==== Sys2Proof/Decode.lean ====
section
/-! DEFINITION. The command decoder and encoder (30_encoding.md R200 to R207, the checks of R250): the opcode map with each
row's match and mask, `decode`, total on every word and refusing by name, and `encode`, the word of a command. -/

namespace Sys2Proof

/-- The six formats of R202. -/
inductive Format where
  | n | c | m | p | q | f
deriving DecidableEq, Repr

/-- Why a word is Illegal, in the order of R250 and R455. -/
inductive DecodeError where
  /-- bits 7:0 are not an opcode of R204 (R205) -/
  | unknownOpcode
  /-- a bit the format reserves is 1 (R206 (a)) -/
  | reservedBits
  /-- the format is C, M or P and CHM is 0b00 (R206 (b)) -/
  | emptyMask
  /-- the bytes are not one 32-bit word (R200; on the bus such an access is a BusError and nothing is decoded) -/
  | notOneWord
deriving DecidableEq, Repr

/-- One row of the opcode map of R204. -/
structure OpRow where
  /-- the mnemonic, as the table spells it -/
  mnemonic : String
  /-- the format -/
  format : Format
  /-- the command word with every field zero; bits 7:0 are the opcode -/
  matchWord : Word
  /-- a 1 in every bit the decoder compares -/
  mask : Word
  /-- the command, its fields read from the word (R203) -/
  build : Word → Instr

/-- CHM and NCH, bits 9:8 (R203). -/
def field98 (w : Word) : BitVec 2 := w.extractLsb' 8 2

/-- CHAR, bits 11:10 (R203). -/
def fieldChar (w : Word) : BitVec 2 := w.extractLsb' 10 2

/-- MODEL, bits 14:12 (R203). -/
def fieldModel (w : Word) : BitVec 3 := w.extractLsb' 12 3

/-- The opcode map of R204, row by row. -/
def opTable : List OpRow := [
  ⟨"NOP", .n, 0x00000000, 0xFFFFFFFF, fun _ => .nop⟩,
  ⟨"TS_SET_RATE", .c, 0x00000010, 0xFFFFFCFF, fun w => .tsSetRate (field98 w)⟩,
  ⟨"TS_SET_MODE", .m, 0x00000011, 0xFFFF80FF, fun w => .tsSetMode (field98 w) (fieldChar w) (fieldModel w)⟩,
  ⟨"TS_SET_PROC", .c, 0x00000012, 0xFFFFFCFF, fun w => .tsSetProc (field98 w)⟩,
  ⟨"TS_RESET", .c, 0x00000013, 0xFFFFFCFF, fun w => .tsReset (field98 w)⟩,
  ⟨"TS_PROCESS", .p, 0x00000014, 0xFFFFF8FF, fun w => .tsProcess (field98 w) (w.getLsbD 10)⟩,
  ⟨"TS_SAT_EVAL", .c, 0x00000015, 0xFFFFFCFF, fun w => .tsSatEval (field98 w)⟩,
  ⟨"CP_SET_IN_TRIM", .n, 0x00000018, 0xFFFFFFFF, fun _ => .cpSetInTrim⟩,
  ⟨"CP_SET_OUT_TRIM", .n, 0x00000019, 0xFFFFFFFF, fun _ => .cpSetOutTrim⟩,
  ⟨"MS_ENCODE", .n, 0x00000020, 0xFFFFFFFF, fun _ => .msEncode⟩,
  ⟨"MS_DECODE", .n, 0x00000021, 0xFFFFFFFF, fun _ => .msDecode⟩,
  ⟨"BC_PREPARE", .q, 0x00000030, 0xFFFFFCFF, fun w => .bcPrepare (field98 w)⟩,
  ⟨"BC_SET_THRESH", .n, 0x00000031, 0xFFFFFFFF, fun _ => .bcSetThresh⟩,
  ⟨"BC_SET_RATIO", .n, 0x00000032, 0xFFFFFFFF, fun _ => .bcSetRatio⟩,
  ⟨"BC_SET_ATTACK", .n, 0x00000033, 0xFFFFFFFF, fun _ => .bcSetAttack⟩,
  ⟨"BC_SET_RELEASE", .n, 0x00000034, 0xFFFFFFFF, fun _ => .bcSetRelease⟩,
  ⟨"BC_SET_MAKEUP", .n, 0x00000035, 0xFFFFFFFF, fun _ => .bcSetMakeup⟩,
  ⟨"BC_SET_FLAGS", .f, 0x00000036, 0xFFFFF3FF, fun w => .bcSetFlags (w.getLsbD 10) (w.getLsbD 11)⟩,
  ⟨"BC_SET_DRIVE", .n, 0x00000037, 0xFFFFFFFF, fun _ => .bcSetDrive⟩,
  ⟨"BC_SET_LINK", .n, 0x00000038, 0xFFFFFFFF, fun _ => .bcSetLink⟩,
  ⟨"BC_SET_SAT_KNEE", .n, 0x00000039, 0xFFFFFFFF, fun _ => .bcSetSatKnee⟩,
  ⟨"BC_SET_BOOST", .n, 0x0000003A, 0xFFFFFFFF, fun _ => .bcSetBoost⟩,
  ⟨"BC_SET_SC_FREQ", .n, 0x0000003B, 0xFFFFFFFF, fun _ => .bcSetScFreq⟩,
  ⟨"BC_SET_DC_AMP", .n, 0x0000003C, 0xFFFFFFFF, fun _ => .bcSetDcAmp⟩,
  ⟨"BC_SET_DC_SEED", .n, 0x0000003D, 0xFFFFFFFF, fun _ => .bcSetDcSeed⟩,
  ⟨"BC_RESET", .n, 0x0000003E, 0xFFFFFFFF, fun _ => .bcReset⟩,
  ⟨"BC_BLOCK_BEGIN", .n, 0x00000040, 0xFFFFFFFF, fun _ => .bcBlockBegin⟩,
  ⟨"BC_FRAME", .n, 0x00000041, 0xFFFFFFFF, fun _ => .bcFrame⟩,
  ⟨"BC_BLOCK_END", .n, 0x00000042, 0xFFFFFFFF, fun _ => .bcBlockEnd⟩]

/-- The opcode OP, bits 7:0 of every command word (R201). -/
def opcode (w : Word) : Byte := w.extractLsb' 0 8

/-- The row whose opcode a word carries: the opcode alone selects the command and its format (R201). -/
def rowOf (w : Word) : Option OpRow :=
  opTable.find? fun r => opcode r.matchWord == opcode w

/-- Whether a format carries the channel mask that must not be empty (R206 (b), R250). -/
def Format.hasChannelMask : Format → Bool
  | .n => false
  | .c => true
  | .m => true
  | .p => true
  | .q => false
  | .f => false

/-- The decoder, with the checks of R250 in its order. Every word is one command or an error (R207). -/
def decode (w : Word) : Except DecodeError Instr :=
  match rowOf w with
  | none => .error .unknownOpcode
  | some r =>
    if w &&& r.mask ≠ r.matchWord then .error .reservedBits
    else if r.format.hasChannelMask && (field98 w == 0#2) then .error .emptyMask
    else .ok (r.build w)

/-- A word from its four byte lanes, the lowest address first (R155). -/
def wordOfBytes (b0 b1 b2 b3 : Byte) : Word := b3 ++ b2 ++ b1 ++ b0

/-- Byte lane i of a word: bits 8i+7 to 8i (R155). -/
def byteLane (w : Word) (i : Nat) : Byte := w.extractLsb' (8 * i) 8

/-- The decoder on bytes, the lowest address first: total on any bytes. -/
def decodeBytes : List Byte → Except DecodeError Instr
  | [b0, b1, b2, b3] => decode (wordOfBytes b0 b1 b2 b3)
  | _ => .error .notOneWord

/-- The bits of a Boolean field. -/
def bitOf (b : Bool) : BitVec 1 := BitVec.ofBool b

/-- The encoder: the word of a command, field by field as R202 lays its format out. -/
def encode : Instr → Word
  | .nop => 0x00000000
  | .tsSetRate chm => 0#22 ++ chm ++ 0x10#8
  | .tsSetMode chm char model => 0#17 ++ model ++ char ++ chm ++ 0x11#8
  | .tsSetProc chm => 0#22 ++ chm ++ 0x12#8
  | .tsReset chm => 0#22 ++ chm ++ 0x13#8
  | .tsProcess chm trim => 0#21 ++ bitOf trim ++ chm ++ 0x14#8
  | .tsSatEval chm => 0#22 ++ chm ++ 0x15#8
  | .cpSetInTrim => 0x00000018
  | .cpSetOutTrim => 0x00000019
  | .msEncode => 0x00000020
  | .msDecode => 0x00000021
  | .bcPrepare nch => 0#22 ++ nch ++ 0x30#8
  | .bcSetThresh => 0x00000031
  | .bcSetRatio => 0x00000032
  | .bcSetAttack => 0x00000033
  | .bcSetRelease => 0x00000034
  | .bcSetMakeup => 0x00000035
  | .bcSetFlags hpf ms => 0#20 ++ bitOf ms ++ bitOf hpf ++ 0#2 ++ 0x36#8
  | .bcSetDrive => 0x00000037
  | .bcSetLink => 0x00000038
  | .bcSetSatKnee => 0x00000039
  | .bcSetBoost => 0x0000003A
  | .bcSetScFreq => 0x0000003B
  | .bcSetDcAmp => 0x0000003C
  | .bcSetDcSeed => 0x0000003D
  | .bcReset => 0x0000003E
  | .bcBlockBegin => 0x00000040
  | .bcFrame => 0x00000041
  | .bcBlockEnd => 0x00000042

/-- The instruction the decoder reads from `nbits` bits `w` (bits above `nbits` zero), stored as the host's bytes, the
lowest address first (R155). -/
def decodeTableWord (nbits w : Nat) : Option Instr :=
  let cmd : Word := BitVec.ofNat 32 (w % 2 ^ nbits)
  (decodeBytes [byteLane cmd 0, byteLane cmd 1, byteLane cmd 2, byteLane cmd 3]).toOption

end Sys2Proof
end

