-- ==== Sys2Proof/Config.lean ====
section
/-! DEFINITION. What the spec leaves to the implementation (00_scope.md section 4, 93_implementation_defined.md section 3):
constants with no body, so that nothing can be proved of their values beyond what is said here. -/

namespace Sys2Proof.Config

/-- A non-decreasing function on binary32 patterns: what R17 says of the shape of each of its five function units. The
default fields only show that such a function exists. -/
structure Curve where
  /-- the function itself -/
  raw : Word → Word := fun _ => 0
  /-- R17 "non-decreasing", in the order of R14 -/
  nonDecreasing : ∀ x y, orderKey x ≤ orderKey y → orderKey (raw x) ≤ orderKey (raw y) := by
    intro _ _ _; exact Int.le_refl _
deriving Inhabited

/-- TANH for operands above +0, before R17's other properties are imposed (Machine/Units.lean). OPEN, log 3. -/
opaque tanhCurve : Curve

/-- ATAN for operands above +0. OPEN, log 3. -/
opaque atanCurve : Curve

/-- EXP. OPEN, log 3. -/
opaque expCurve : Curve

/-- LOG10 for operands above 0. OPEN, log 3. -/
opaque log10Curve : Curve

/-- POW10. OPEN, log 3. -/
opaque pow10Curve : Curve

/-- LOG10 outside its domain x > 0, where R17 requires nothing (no rule evaluates it there). FREE, log 5. -/
opaque log10Outside : Word → Word

/-- DEFAULT_PRESET (R74, D34): word i (0 to 479) of the preset RAM after hardware reset. OPEN, log 6. -/
opaque defaultPreset : Nat → Word

/-- BASE (R158, D4): where the window sits in the host's address map. No rule depends on it. OPEN, log 7. -/
opaque base : Nat

/-- LATENCY(op) (R495, D38): the finite time a CMD write of this opcode takes. No rule depends on it. OPEN, log 7. -/
opaque latency : Byte → Nat

end Sys2Proof.Config
end

