-- ==== Sys2Proof/Machine/Flags.lean ====
section
/-! DEFINITION. The fields of the block's bit-field words: STATUS and the fault events that set it (R54, R450), TS_MODE (R62),
BC_FLAGS (R64) and a record's FLAGS (R72). The block has no condition codes (R77). -/

namespace Sys2Proof.Machine

/-- A ToneShaper channel: 0 is left, 1 is right (D47). -/
inductive Chan where
  | left | right
deriving DecidableEq, Repr

/-- The number c of a channel. -/
def chanNumber : Chan → Nat
  | .left => 0
  | .right => 1

/-- A fault or event with what RECORD is given (R450). -/
inductive Event where
  /-- R451: the command word -/
  | illegal (w : Word)
  /-- R452: the command word -/
  | cfgError (w : Word)
  /-- R453: the byte offset -/
  | busError (addr : Addr)
  /-- R454: NonFinite(4 + c), ToneShaper channel c -/
  | nonFiniteTs (c : Chan)
  /-- R454: NonFinite(6), the BusCompressor -/
  | nonFiniteBus
deriving DecidableEq, Repr

/-- The STATUS bit of an event (R54, R450). -/
def statusBit : Event → Nat
  | .illegal _ => 0
  | .cfgError _ => 1
  | .busError _ => 2
  | .nonFiniteTs .left => 3
  | .nonFiniteTs .right => 4
  | .nonFiniteBus => 5

/-- The ERR_CAUSE code of an event (R450). -/
def causeCode : Event → Word
  | .illegal _ => 1
  | .cfgError _ => 2
  | .busError _ => 3
  | .nonFiniteTs .left => 4
  | .nonFiniteTs .right => 5
  | .nonFiniteBus => 6

/-- STATUS after an event: its bit is set, the others stay (R54, R450: sticky). -/
def statusAfter (status : Word) (e : Event) : Word := status ||| (1#32 <<< statusBit e)

/-- TS_MODE's word for a character and a model: CHAR in bits 1:0, MODEL in bits 6:4 (R62, R271). -/
def modeWord (char : BitVec 2) (model : BitVec 3) : Word := 0#25 ++ model ++ 0#2 ++ char

/-- TS_MODE.CHAR, bits 1:0 (R62). -/
def modeChar (mode : Word) : BitVec 2 := mode.extractLsb' 0 2

/-- TS_MODE.MODEL, bits 6:4 (R62). -/
def modeModel (mode : Word) : BitVec 3 := mode.extractLsb' 4 3

/-- BC_FLAGS's word (R64, R379): HPF_EN in bit 0, MS_EN in bit 1. -/
def bcFlagsWord (hpf ms : Bool) : Word := 0#30 ++ BitVec.ofBool ms ++ BitVec.ofBool hpf

/-- BC_FLAGS.HPF_EN, bit 0 (R64). -/
def hpfEnabled (flags : Word) : Bool := flags.getLsbD 0

/-- BC_FLAGS.MS_EN, bit 1 (R64). -/
def msEnabled (flags : Word) : Bool := flags.getLsbD 1

/-- FLAGS.G0, bit 0 of a record's FLAGS (R72). -/
def flagG0 (flags : Word) : Bool := flags.getLsbD 0

/-- FLAGS.TR, bit 1: the transparent variant (R72). -/
def flagTR (flags : Word) : Bool := flags.getLsbD 1

/-- FLAGS.SP, bit 2: the secondary saturation pass (R72). -/
def flagSP (flags : Word) : Bool := flags.getLsbD 2

/-- FLAGS.PS, bit 3: post-saturation (R72). -/
def flagPS (flags : Word) : Bool := flags.getLsbD 3

end Sys2Proof.Machine
end

