-- ==== Sys2Proof/Machine/Preset.lean ====
section
/-! DEFINITION. One coefficient record of the preset RAM (R70, R71): 32 words with the field names of R71. An active
coefficient bundle (R75) is a record too. -/

namespace Sys2Proof.Machine

/-- A coefficient record, its words in the order of R71. Words 24 to 26 and 28 to 31 and FLAGS bits 31:4 are storage
that no rule reads (R73). -/
structure Record where
  hpf : Word
  fb : Word
  f1 : Word
  kdrv : Word
  khrm : Word
  ksat : Word
  kenv : Word
  envDecay : Word
  h2 : Word
  h3 : Word
  h5 : Word
  bdrv : Word
  nb : Word
  cc : Word
  ht : Word
  ksp : Word
  lpf : Word
  kpd : Word
  otrim : Word
  postGain : Word
  k1 : Word
  k2 : Word
  k3 : Word
  knee : Word
  a3 : Word
  p20 : Word
  p24 : Word
  flags : Word
  spare28 : Word
  spare29 : Word
  spare30 : Word
  spare31 : Word
deriving DecidableEq, Repr

/-- The record whose word i is `f i` (R71). -/
def recordOfWords (f : Nat → Word) : Record where
  hpf := f 0
  fb := f 1
  f1 := f 2
  kdrv := f 3
  khrm := f 4
  ksat := f 5
  kenv := f 6
  envDecay := f 7
  h2 := f 8
  h3 := f 9
  h5 := f 10
  bdrv := f 11
  nb := f 12
  cc := f 13
  ht := f 14
  ksp := f 15
  lpf := f 16
  kpd := f 17
  otrim := f 18
  postGain := f 19
  k1 := f 20
  k2 := f 21
  k3 := f 22
  knee := f 23
  a3 := f 24
  p20 := f 25
  p24 := f 26
  flags := f 27
  spare28 := f 28
  spare29 := f 29
  spare30 := f 30
  spare31 := f 31

/-- Word i of a record, i below 32 (R71). -/
def recordWord (c : Record) (i : Nat) : Word :=
  match i with
  | 0 => c.hpf
  | 1 => c.fb
  | 2 => c.f1
  | 3 => c.kdrv
  | 4 => c.khrm
  | 5 => c.ksat
  | 6 => c.kenv
  | 7 => c.envDecay
  | 8 => c.h2
  | 9 => c.h3
  | 10 => c.h5
  | 11 => c.bdrv
  | 12 => c.nb
  | 13 => c.cc
  | 14 => c.ht
  | 15 => c.ksp
  | 16 => c.lpf
  | 17 => c.kpd
  | 18 => c.otrim
  | 19 => c.postGain
  | 20 => c.k1
  | 21 => c.k2
  | 22 => c.k3
  | 23 => c.knee
  | 24 => c.a3
  | 25 => c.p20
  | 26 => c.p24
  | 27 => c.flags
  | 28 => c.spare28
  | 29 => c.spare29
  | 30 => c.spare30
  | _ => c.spare31

/-- The word index of record (char, model) in the preset RAM (R70): `(char*5 + model)*32`. -/
def recordIndex (char model : Nat) : Nat := (char * 5 + model) * 32

end Sys2Proof.Machine
end

