-- ==== Sys2Proof/Machine/Binary32.lean ====
section
/-! DEFINITION. IEEE 754 binary32 as the block computes it (00_scope.md R10 to R16, R19): every finite pattern is an integer
number of units of 2^-149, results are computed exactly on those integers and rounded once to nearest, ties to even. -/

namespace Sys2Proof.Machine

/-- A binary32 pattern (R10): bit 31 the sign, bits 30:23 the exponent (bias 127), bits 22:0 the fraction. -/
abbrev F32 := Word

/-- Bits 30:0 of a pattern, as a number: larger is further from zero (R10). -/
def mag (x : F32) : Nat := x.toNat % 2 ^ 31

/-- Bit 31 (R10). -/
def signOf (x : F32) : Bool := x.msb

/-- R14: true for every NaN pattern. -/
def isNaN (x : F32) : Bool := decide (0x7F800000 < mag x)

/-- Either infinity. -/
def isInf (x : F32) : Bool := mag x == 0x7F800000

/-- R14: neither NaN nor an infinity. -/
def isFinite (x : F32) : Bool := decide (mag x < 0x7F800000)

/-- R12: the canonical NaN. -/
def canonNaN : F32 := 0x7FC00000

/-- R12: a NaN result is delivered as the canonical NaN. -/
def canonical (x : F32) : F32 := if isNaN x then canonNaN else x

/-- +0 (R13). -/
def posZero : F32 := 0x00000000

/-- +infinity. -/
def posInf : F32 := 0x7F800000

/-- -infinity. -/
def negInf : F32 := 0xFF800000

/-- The pattern of magnitude bits `m` (below 2^31) with sign `neg`. -/
def withSign (neg : Bool) (m : Nat) : F32 :=
  BitVec.ofNat 32 (if neg then 2 ^ 31 + m else m)

/-- The magnitude of a finite pattern in units of 2^-149, the smallest subnormal (R10, R13). -/
def units (x : F32) : Nat :=
  let e := mag x / 2 ^ 23
  let f := mag x % 2 ^ 23
  if e = 0 then f else (2 ^ 23 + f) * 2 ^ (e - 1)

/-- The nearest integer to n / d, ties to even. -/
def roundNearestEven (n d : Nat) : Nat :=
  let q := n / d
  let r := n % d
  if 2 * r > d ∨ (2 * r = d ∧ q % 2 = 1) then q + 1 else q

/-- How far the quantum of a value of q units lies above one unit: 0 below 2^24 units (subnormals and the first
binade), else what leaves 24 significant bits (R10). -/
def quantumShift (q : Nat) : Nat := if q < 2 ^ 24 then 0 else Nat.log2 q - 23

/-- R11: the exact value n / d units rounded once to nearest, ties to even, with sign `neg`; overflow gives the
infinity of that sign. The rounded significand plus the exponent's bits is the pattern, so a significand that rounds up
to 2^24 carries into the exponent. -/
def roundUnits (neg : Bool) (n d : Nat) : F32 :=
  let k := quantumShift (n / d)
  withSign neg (min (roundNearestEven n (d * 2 ^ k) + k * 2 ^ 23) 0x7F800000)

/-- R11: `a +f b`. -/
def fadd (a b : F32) : F32 :=
  if isNaN a || isNaN b then canonNaN
  else if isInf a then (if isInf b && signOf a != signOf b then canonNaN else a)
  else if isInf b then b
  else if signOf a == signOf b then roundUnits (signOf a) (units a + units b) 1
  else if units b < units a then roundUnits (signOf a) (units a - units b) 1
  else if units a < units b then roundUnits (signOf b) (units b - units a) 1
  else posZero

/-- R15: `-x` inverts bit 31. -/
def fneg (x : F32) : F32 := x ^^^ 0x80000000

/-- R15: `fabs(x)` clears bit 31. -/
def fabs (x : F32) : F32 := x &&& 0x7FFFFFFF

/-- R15: a with bit 31 replaced by bit 31 of b. -/
def copysign (a b : F32) : F32 := (a &&& 0x7FFFFFFF) ||| (b &&& 0x80000000)

/-- R11: `a -f b`. -/
def fsub (a b : F32) : F32 := fadd a (fneg b)

/-- R11: `a *f b`. -/
def fmul (a b : F32) : F32 :=
  let neg := signOf a != signOf b
  if isNaN a || isNaN b then canonNaN
  else if isInf a || isInf b then
    (if mag a == 0 || mag b == 0 then canonNaN else withSign neg 0x7F800000)
  else roundUnits neg (units a * units b) (2 ^ 149)

/-- R11: `a /f b`. -/
def fdiv (a b : F32) : F32 :=
  let neg := signOf a != signOf b
  if isNaN a || isNaN b then canonNaN
  else if isInf a then (if isInf b then canonNaN else withSign neg 0x7F800000)
  else if isInf b then withSign neg 0
  else if mag b == 0 then (if mag a == 0 then canonNaN else withSign neg 0x7F800000)
  else roundUnits neg (units a * 2 ^ 149) (units b)

/-- R14: `a < b`. -/
def flt (a b : F32) : Bool := !isNaN a && !isNaN b && decide (orderKey a < orderKey b)

/-- R14: `a <= b`. -/
def fle (a b : F32) : Bool := !isNaN a && !isNaN b && decide (orderKey a ≤ orderKey b)

/-- R14: `a == b`. -/
def feq (a b : F32) : Bool := !isNaN a && !isNaN b && decide (orderKey a = orderKey b)

/-- R16: `i2f(n)`, a non-negative integer rounded to nearest, ties to even. -/
def i2f (n : Nat) : F32 := roundUnits false (n * 2 ^ 149) 1

/-- R16: `s2f`, a 32-bit two's-complement integer rounded to nearest, ties to even. -/
def s2f (w : Word) : F32 := roundUnits (w.toInt < 0) (w.toInt.natAbs * 2 ^ 149) 1

/-- R19: 1.0. -/
def fOne : F32 := 0x3F800000

/-- -1.0 (R15). -/
def fNegOne : F32 := 0xBF800000

/-- R19: 0.5. -/
def fHalf : F32 := 0x3F000000

/-- R19: 20.0. -/
def fTwenty : F32 := 0x41A00000

/-- R19: 1000.0. -/
def fThousand : F32 := 0x447A0000

/-- R19: SQRTH, the binary32 nearest to the square root of one half. -/
def sqrtHalf : F32 := 0x3F3504F3

/-- R19: TWO_PI. -/
def twoPi : F32 := 0x40C90FDB

/-- R19: P2M31, 2^-31. -/
def twoToMinus31 : F32 := 0x30000000

/-- R19: FS_REF. -/
def fsRef : Nat := 44100

/-- R15: `clamp1(u)`. -/
def clamp1 (u : F32) : F32 :=
  if flt fOne u then fOne else if flt u fNegOne then fNegOne else u

end Sys2Proof.Machine
end

