-- ==== Sys2Proof/Machine/Units.lean ====
section
/-! DEFINITION. The five function units TANH, ATAN, EXP, LOG10 and POW10 (R17) and DB2LIN (R18). Each is an arbitrary
non-decreasing function of Config held to the values and bounds R17 requires of it, so that it ranges over the functions R17
admits (log 3). -/

namespace Sys2Proof.Machine

/-- A value R17 requires: the operand and the result. -/
abbrev Pin := F32 × F32

/-- The largest required result at or below x; `bottom` where there is none. -/
def pinBelow (pins : List Pin) (bottom x : F32) : F32 :=
  pins.foldl (fun acc p => if fle p.1 x then p.2 else acc) bottom

/-- The smallest required result at or above x; `top` where there is none. -/
def pinAbove (pins : List Pin) (top x : F32) : F32 :=
  pins.foldr (fun p acc => if fle x p.1 then p.2 else acc) top

/-- r held between lo and hi in the order of R14. A NaN pattern lies beyond the infinity of its sign in that order, so it
gives the bound on its side: the result is never a NaN and never falls as r rises. -/
def clampTo (lo hi r : F32) : F32 :=
  if orderKey r < orderKey lo then lo else if orderKey hi < orderKey r then hi else r

/-- A function unit of R17: NaN for NaN, the required values exactly, and elsewhere the curve held between the
required values around the operand. `pins` is in rising order of its operands and of its results. -/
def shapeUnit (pins : List Pin) (bottom top : F32) (curve : Config.Curve) (x : F32) : F32 :=
  if isNaN x then canonNaN
  else match pins.find? (fun p => feq p.1 x) with
    | some p => p.2
    | none => clampTo (pinBelow pins bottom x) (pinAbove pins top x) (curve.raw x)

/-- The odd extension of a unit that is given for operands of clear sign: f(-x) = -f(x) (R17). -/
def oddUnit (f : F32 → F32) (x : F32) : F32 :=
  if isNaN x then canonNaN else if signOf x then fneg (f (fneg x)) else f x

/-- R17: TANH(+0) = +0 and TANH(+inf) = 1. -/
def tanhPins : List Pin := [(posZero, posZero), (posInf, fOne)]

/-- R17: `TANH(x)`, odd, non-decreasing, at most 1 in magnitude. -/
def fTanh (x : F32) : F32 := oddUnit (shapeUnit tanhPins posZero fOne Config.tanhCurve) x

/-- R17: ATAN(+0) = +0. -/
def atanPins : List Pin := [(posZero, posZero)]

/-- R17: `ATAN(x)`, odd, non-decreasing, at most 0x3FC90FDB in magnitude. -/
def fAtan (x : F32) : F32 := oddUnit (shapeUnit atanPins posZero 0x3FC90FDB Config.atanCurve) x

/-- R17: EXP(-inf) = +0 and EXP(0) = 1. -/
def expPins : List Pin := [(negInf, posZero), (posZero, fOne)]

/-- R17: `EXP(x)`, non-decreasing, at most 1 for x <= 0. -/
def fExp (x : F32) : F32 := shapeUnit expPins posZero posInf Config.expCurve x

/-- 10^k, exact in binary32 for k up to 10 (R17). -/
def tenTo (k : Nat) : F32 := i2f (10 ^ k)

/-- R17: LOG10(10^k) = k for k in 0..10 and LOG10(+inf) = +inf. -/
def log10Pins : List Pin :=
  ((List.range 11).map fun k => (tenTo k, i2f k)) ++ [(posInf, posInf)]

/-- R17: `LOG10(x)`, defined for x > 0 and non-decreasing there; elsewhere nothing is required of it (log 5). -/
def fLog10 (x : F32) : F32 :=
  if flt posZero x then shapeUnit log10Pins negInf posInf Config.log10Curve x
  else canonical (Config.log10Outside x)

/-- R17: POW10(-inf) = +0, POW10(-k) is 10^-k rounded to nearest for k in 1..10, POW10(k) = 10^k for k in 0..10,
POW10(+inf) = +inf. -/
def pow10Pins : List Pin :=
  [(negInf, posZero)]
    ++ ((List.range 10).map fun j => (fneg (i2f (10 - j)), fdiv fOne (tenTo (10 - j))))
    ++ ((List.range 11).map fun k => (i2f k, tenTo k))
    ++ [(posInf, posInf)]

/-- The largest binary32 operand whose power of ten rounds to zero: 10^x is at most 2^-150 from here down (log 4). -/
def pow10Underflow : F32 := 0xC2349E36

/-- The least value POW10 may take: the smallest positive number for a finite operand (R17: `POW10(x) > 0`), but +0 where
the power of ten underflows (93_implementation_defined.md I22, log 4). -/
def pow10Least (x : F32) : F32 := if flt pow10Underflow x then 0x00000001 else posZero

/-- A zero of either sign replaced by the least value allowed; every other value as it is. -/
def atLeast (least r : F32) : F32 := if mag r = 0 then least else r

/-- R17: `POW10(x)`, non-decreasing, positive for a finite operand unless it underflows, where it may be +0 (log 4). -/
def fPow10 (x : F32) : F32 := atLeast (pow10Least x) (shapeUnit pow10Pins posZero posInf Config.pow10Curve x)

/-- R18: `DB2LIN(g) = POW10(g /f 20.0)`. -/
def db2lin (g : F32) : F32 := fPow10 (fdiv g fTwenty)

end Sys2Proof.Machine
end

