-- ==== Sys2Proof/Machine/Curves.lean ====
section
/-! DEFINITION. The block's computations that read no register by themselves: the waveshaper (42_saturation.md), the auto-gain
curve (R275), the sample-rate scale (R270), the ballistic and sidechain coefficients (R376, R377), the Mid/Side matrix (R430)
and the DC generator (R397). -/

namespace Sys2Proof.Machine

/-- The odd-harmonic polynomial of families A and C (R321, R323). -/
def oddHarmonics (c : Record) (y0 : F32) : F32 :=
  let p2 := fmul y0 y0
  let p3 := fmul p2 y0
  let p5 := fmul p3 p2
  fsub (fadd y0 (fmul c.h3 p3)) (fmul c.h5 p5)

/-- R321: family A, "smooth". -/
def satA (c : Record) (u : F32) : F32 := oddHarmonics c (fTanh u)

/-- R322: family B, "warm/asymmetric". -/
def satB (c : Record) (u : F32) : F32 :=
  let a := fabs (fmul u c.bdrv)
  let r := fdiv u (fadd fOne a)
  let y0 := if flt u posZero then fmul c.nb r else r
  let p2 := fmul y0 y0
  let p3 := fmul p2 y0
  fadd (fadd y0 (fmul c.h2 p2)) (fmul c.h3 p3)

/-- R323: family C, "clear". -/
def satC (c : Record) (u : F32) : F32 := oddHarmonics c (fmul c.cc (fAtan u))

/-- R324: family T, "transparent". -/
def satT (c : Record) (u : F32) : F32 :=
  let k := clamp1 u
  fsub k (fmul c.ht (fmul (fmul k k) k))

/-- R325: the waveshaper. Opal (0) is family A, Gold (1) family B, Sapphire (2) family C; FLAGS.TR selects family T. -/
def sat (char : BitVec 2) (c : Record) (u : F32) : F32 :=
  if flagTR c.flags then satT c u
  else if char = 0#2 then satA c u
  else if char = 1#2 then satB c u
  else satC c u

/-- R275: the auto-gain factor for processing amount p and record c. -/
def ag (p : F32) (c : Record) : F32 :=
  let d1 := fadd fOne (fmul p c.k1)
  let d2 := fadd fOne (fmul p c.k2)
  let g := fdiv fOne (fmul d1 d2)
  if flt c.knee p then fmul g (fadd fOne (fmul (fsub p c.knee) c.k3)) else g

/-- R270: `ceil(r / 44100)`, exact. -/
def rateMultiple (r : Nat) : Nat := (r + (fsRef - 1)) / fsRef

/-- R270: TS_SCALE for a rate of r Hz. -/
def rateScale (r : Nat) : F32 := fdiv fOne (i2f (rateMultiple r))

/-- R376: the ballistic coefficient of a time constant of `ms` milliseconds at r Hz. For an accepted time of -0.0 the
pseudocode gives EXP(+inf), which R17 leaves open; the model follows the pseudocode (log 17, DESIGN CHOICE). -/
def alpha (ms : F32) (r : Nat) : F32 :=
  let t := fdiv (fmul ms (i2f r)) fThousand
  fExp (fneg (fdiv fOne t))

/-- R377: the sidechain high-pass coefficient of a cut-off of fc Hz at r Hz. -/
def scAlpha (fc : F32) (r : Nat) : F32 :=
  fdiv fOne (fadd fOne (fdiv (fmul twoPi fc) (i2f r)))

/-- R430: the Mid/Side matrix. -/
def msRot (a b : F32) : F32 × F32 := (fmul (fadd a b) sqrtHalf, fmul (fsub a b) sqrtHalf)

/-- R397: the 32-bit xorshift with shifts 13, 17 and 5. -/
def xorshift32 (x : Word) : Word :=
  let x := x ^^^ (x <<< 13)
  let x := x ^^^ (x >>> 17)
  x ^^^ (x <<< 5)

/-- R283, R398: a state value after the non-finite check: kept when finite, else +0. -/
def repaired (x : F32) : F32 := if isFinite x then x else posZero

end Sys2Proof.Machine
end

