-- ==== Sys2Proof/Machine/Registers.lean ====
section
/-! DEFINITION. The register groups of the block (10_state.md, R51) and their values after hardware reset (R480). -/

namespace Sys2Proof.Machine

/-- The fault registers (R54, R55). -/
structure ErrRegs where
  /-- STATUS (R54) -/
  status : Word
  /-- ERR_CAUSE (R55) -/
  cause : Word
  /-- ERR_CMD (R55) -/
  cmd : Word
  /-- ERR_ADDR (R55) -/
  addr : Word
deriving DecidableEq, Repr

/-- The ChannelPair trims (R60). -/
structure CpRegs where
  inDb : F32
  inGain : F32
  outDb : F32
  outGain : F32
deriving DecidableEq, Repr

/-- The registers of one ToneShaper channel (R51 section 1.2, R61) and its active coefficient bundle (R75). -/
structure TsRegs where
  rate : Word
  scale : F32
  mode : Word
  proc : F32
  autoGain : F32
  s : F32
  prev : F32
  env : F32
  acb : Record
deriving DecidableEq, Repr

/-- The BusCompressor registers (R51 section 1.3, R63 to R68). -/
structure BcRegs where
  rate : Word
  block : Word
  nch : Word
  thresh : F32
  ratio : F32
  attack : F32
  release : F32
  makeup : F32
  flags : Word
  drive : F32
  link : F32
  knee : F32
  boost : F32
  scFreq : F32
  dcAmp : F32
  lfsr : Word
  dcOff : F32
  alphaA : F32
  alphaR : F32
  alphaSc : F32
  env : F32
  scx : F32
  scy : F32
  lastGr : F32
deriving DecidableEq, Repr

/-- The fault registers after hardware reset: no fault recorded (R480 item 6). -/
def resetErr : ErrRegs := { status := 0, cause := 0, cmd := 0, addr := 0 }

/-- A0 and A1 after hardware reset (R480 item 6). -/
def resetOperand : Word := 0

/-- R0 and R1 after hardware reset (R480 item 6). -/
def resetResult : Word := 0

/-- The trims after hardware reset (R51 section 1.1): 0 dB, gain 1.0. -/
def resetCp : CpRegs := { inDb := posZero, inGain := fOne, outDb := posZero, outGain := fOne }

/-- A ToneShaper channel after hardware reset (R51 section 1.2, R480 items 1, 3 and 4). -/
def resetTs : TsRegs :=
  let acb := recordOfWords Config.defaultPreset
  { rate := 44100, scale := fOne, mode := 0, proc := posZero, autoGain := ag posZero acb,
    s := posZero, prev := posZero, env := posZero, acb := acb }

/-- The BusCompressor after hardware reset (R51 section 1.3, R480 items 1 and 5). -/
def resetBc : BcRegs :=
  { rate := 44100, block := 512, nch := 2, thresh := posZero, ratio := fOne, attack := 0x41200000,
    release := 0x43960000, makeup := posZero, flags := 0, drive := posZero, link := fOne, knee := 0x3F4CCCCD,
    boost := posZero, scFreq := 0x43160000, dcAmp := posZero, lfsr := 1, dcOff := posZero,
    alphaA := alpha 0x41200000 44100, alphaR := alpha 0x43960000 44100, alphaSc := scAlpha 0x43160000 44100,
    env := posZero, scx := posZero, scy := posZero, lastGr := posZero }

end Sys2Proof.Machine
end

