-- ==== Sys2Proof/Machine/State.lean ====
section
/-! DEFINITION. The whole state of the block (10_state.md), the reasons a step can stop, and the state after hardware reset
(R480). -/

namespace Sys2Proof.Machine

/-- One input of the block: a host transaction (R151, R152) or hardware reset (R481). -/
inductive HostInput where
  /-- MemRead(addr, n): a host read of n bytes (R151) -/
  | read (addr : Addr) (n : Nat)
  /-- MemWrite(addr, n, v): a host write of an n-byte value; v matters only when n is 4 (R152) -/
  | write (addr : Addr) (n : Nat) (v : Word)
  /-- hardware reset, from the platform (R481) -/
  | hardReset
deriving DecidableEq, Repr

/-- What the block last answered on its port. -/
inductive BusResp where
  /-- no transaction since reset -/
  | idle
  /-- the data of a read, and whether it is a BusError (R151, R453) -/
  | readData (v : Word) (error : Bool)
  /-- the end of a write, and whether it is a BusError (R152, R453) -/
  | writeDone (error : Bool)
deriving DecidableEq, Repr

/-- The state of the block, with the model's own `pending` and `resp` (log 1, log 2). -/
structure State where
  /-- the fault registers -/
  err : ErrRegs
  /-- operand register A0 (R58) -/
  a0 : Word
  /-- operand register A1 (R58) -/
  a1 : Word
  /-- result register R0 (R59) -/
  r0 : Word
  /-- result register R1 (R59) -/
  r1 : Word
  /-- the ChannelPair trims -/
  cp : CpRegs
  /-- ToneShaper channel 0, left -/
  ts0 : TsRegs
  /-- ToneShaper channel 1, right -/
  ts1 : TsRegs
  /-- the BusCompressor -/
  bc : BcRegs
  /-- the preset RAM (R70): bytes by offset, in the canonical form of `Memory.wf` (Machine/Ops.lean) -/
  pram : List Host.Cell
  /-- the host's and the platform's coming inputs, next first (log 1) -/
  pending : List HostInput
  /-- the response to the last transaction (log 2) -/
  resp : BusResp
deriving DecidableEq, Repr

/-- What stops a step. Nothing does: every fault of the block is recorded in STATUS and the block goes on (R450, R456),
so there is no constructor; nobody raises one, and that is safe. -/
inductive Fault where
deriving DecidableEq, Repr

/-- Why a command has no meaning. -/
inductive Refusal where
  /-- Raised only by an arm of `exec` whose command has no meaning yet; no arm raises it. Safe: the model stops. -/
  | notModelled (mnemonic : String)
deriving DecidableEq, Repr

/-- The block after hardware reset (R480): the reset column of R51, the preset RAM holding DEFAULT_PRESET (nothing
listed), no fault recorded. No host input is pending and no response has been given (log 1, log 2). -/
def State.reset : State :=
  { err := resetErr, a0 := resetOperand, a1 := resetOperand, r0 := resetResult, r1 := resetResult, cp := resetCp
    ts0 := resetTs, ts1 := resetTs, bc := resetBc, pram := [], pending := [], resp := .idle }

end Sys2Proof.Machine
end

