-- ==== Sys2Proof/Machine/Operands.lean ====
section
/-! DEFINITION. How a command reads its operands (R58, R203) and the legal ranges of setter operands (R452). -/

namespace Sys2Proof.Machine

/-- A[c], the operand register of channel c (R58, R274). -/
def operand (c : Chan) (s : State) : Word :=
  match c with
  | .left => s.a0
  | .right => s.a1

/-- Whether the channel mask CHM selects channel c: bit 8 of the word channel 0, bit 9 channel 1 (R203). -/
def selects (chm : BitVec 2) (c : Chan) : Bool := chm.getLsbD (chanNumber c)

/-- R452: a value in [0, 1]; a NaN is not, -0.0 is (R272). -/
def inUnitInterval (v : F32) : Bool := fle posZero v && fle v fOne

/-- R452: a value in [0, 1). -/
def inHalfOpenUnit (v : F32) : Bool := fle posZero v && flt v fOne

/-- R452: at least 1; +infinity is (R373). -/
def atLeastOne (v : F32) : Bool := fle fOne v

/-- R452: finite and not negative. -/
def finiteNonNegative (v : F32) : Bool := isFinite v && fle posZero v

/-- R452: finite and greater than 0. -/
def finitePositive (v : F32) : Bool := isFinite v && flt posZero v

end Sys2Proof.Machine
end

