-- ==== Sys2Proof/Machine/Ops.lean ====
section
/-! DEFINITION. The shared operations over the state: the preset RAM's bytes and words (R70, R155), fault recording (R450), the
channels and result registers a command names (R59, R253), and the check that every setter makes before it writes (R251). -/

namespace Sys2Proof.Machine

/-- The preset RAM's cells: byte offset in the window and byte. -/
abbrev Memory := List Host.Cell

/-- The first byte offset of the preset RAM (R70). -/
def pramBase : Nat := 0x1000

/-- The offset after the last byte of the preset RAM: 480 words (R70). -/
def pramEnd : Nat := 0x1780

/-- What an unlisted byte of the preset RAM reads as: its byte of DEFAULT_PRESET (R74, log 6, log 8). -/
def defaultByte (a : Nat) : Byte := byteLane (Config.defaultPreset ((a - pramBase) / 4)) (a % 4)

/-- The listed byte at an offset. -/
def Memory.find : Memory → Nat → Option Byte
  | [], _ => none
  | (k, b) :: rest, a => if k = a then some b else Memory.find rest a

/-- One byte of the preset RAM. -/
def Memory.readByte (m : Memory) (a : Nat) : Byte := (Memory.find m a).getD (defaultByte a)

/-- The cells without the one at an offset. -/
def Memory.erase : Memory → Nat → Memory
  | [], _ => []
  | (k, b) :: rest, a => if k = a then rest else (k, b) :: Memory.erase rest a

/-- The cells with a byte listed at an offset, in rising order of offsets. -/
def Memory.insert : Memory → Nat → Byte → Memory
  | [], a, v => [(a, v)]
  | (k, b) :: rest, a, v =>
    if a < k then (a, v) :: (k, b) :: rest
    else if k = a then (a, v) :: rest
    else (k, b) :: Memory.insert rest a v

/-- A byte written: a byte equal to what an unlisted offset reads as is not listed. -/
def Memory.writeByte (m : Memory) (a : Nat) (v : Byte) : Memory :=
  if v = defaultByte a then Memory.erase m a else Memory.insert m a v

/-- The word at a byte offset, little-endian (R155). -/
def Memory.readWord (m : Memory) (a : Nat) : Word :=
  wordOfBytes (Memory.readByte m a) (Memory.readByte m (a + 1)) (Memory.readByte m (a + 2)) (Memory.readByte m (a + 3))

/-- A word written at a byte offset, little-endian (R155). -/
def Memory.writeWord (m : Memory) (a : Nat) (v : Word) : Memory :=
  Memory.writeByte (Memory.writeByte (Memory.writeByte (Memory.writeByte m a (byteLane v 0)) (a + 1) (byteLane v 1))
    (a + 2) (byteLane v 2)) (a + 3) (byteLane v 3)

/-- Offsets strictly rising. -/
def Memory.rising : Memory → Bool
  | [] => true
  | [_] => true
  | (a, _) :: (b, v) :: rest => decide (a < b) && Memory.rising ((b, v) :: rest)

/-- The canonical form: offsets strictly rising, inside the preset RAM, and no entry equal to what an unlisted offset
reads as. -/
def Memory.wf (m : Memory) : Bool :=
  Memory.rising m
    && m.all fun c => decide (pramBase ≤ c.1) && decide (c.1 < pramEnd) && (c.2 != defaultByte c.1)

/-- The byte offset of word i of the preset RAM (R70). -/
def pramOffset (i : Nat) : Nat := pramBase + 4 * i

/-- pram[i] (R4, R70). -/
def pramWord (m : Memory) (i : Nat) : Word := Memory.readWord m (pramOffset i)

/-- The record that starts at word i of the preset RAM: all 32 words in one step (R271). -/
def recordAt (m : Memory) (i : Nat) : Record := recordOfWords fun f => pramWord m (i + f)

/-- R450: RECORD. Every fault and event of the block goes through here: its sticky STATUS bit, its cause code, and the
command word or the offset it names. It saves nothing, changes no mode and transfers control nowhere (R456); there is no
return from it (R457). -/
def record (e : Event) (s : State) : State :=
  let err := { s.err with status := statusAfter s.err.status e, cause := causeCode e }
  match e with
  | .illegal w => { s with err := { err with cmd := w } }
  | .cfgError w => { s with err := { err with cmd := w } }
  | .busError a => { s with err := { err with addr := a.setWidth 32 } }
  | .nonFiniteTs _ => { s with err := err }
  | .nonFiniteBus => { s with err := err }

/-- The registers of channel c. -/
def channel (c : Chan) (s : State) : TsRegs :=
  match c with
  | .left => s.ts0
  | .right => s.ts1

/-- The state with the registers of channel c replaced. -/
def setChannel (c : Chan) (t : TsRegs) (s : State) : State :=
  match c with
  | .left => { s with ts0 := t }
  | .right => { s with ts1 := t }

/-- The state with result register R[c] written (R59). -/
def setResult (c : Chan) (v : Word) (s : State) : State :=
  match c with
  | .left => { s with r0 := v }
  | .right => { s with r1 := v }

/-- "for each selected c": channel 0's part, then channel 1's (R253). -/
def forSelected (chm : BitVec 2) (part : Chan → State → State) (s : State) : State :=
  let s := if selects chm .left then part .left s else s
  if selects chm .right then part .right s else s

/-- R251: a command that checks its operands first. Where a check fails it records CfgError with its own command word
and has no other effect; else it has its whole effect. -/
def guarded (i : Instr) (ok : Bool) (effect : State → State) (s : State) : State :=
  if ok then effect s else record (.cfgError (encode i)) s

/-- A setter of the BusCompressor: after its check it changes BusCompressor registers only. -/
def guardedBc (i : Instr) (ok : Bool) (effect : BcRegs → BcRegs) (s : State) : State :=
  guarded i ok (fun s => { s with bc := effect s.bc }) s

end Sys2Proof.Machine
end

