-- ==== Sys2Proof/Machine/BusCompressor.lean ====
section
/-! DEFINITION. The BusCompressor commands (44_bus_compressor.md R371 to R399): the parameter setters, the block commands and
the per-frame datapath. -/

namespace Sys2Proof.Machine

/-- R371, R387: the detector state cleared. -/
def clearDetector (b : BcRegs) : BcRegs :=
  { b with env := posZero, scx := posZero, scy := posZero, lastGr := posZero }

/-- R371: the registers BC_PREPARE writes. -/
def prepareBc (rate block nch : Word) (b : BcRegs) : BcRegs :=
  clearDetector { b with
    rate := rate, block := block, nch := nch, alphaA := alpha b.attack rate.toNat,
    alphaR := alpha b.release rate.toNat, alphaSc := scAlpha b.scFreq rate.toNat }

/-- R371: BC_PREPARE. -/
def execBcPrepare (nch : BitVec 2) (s : State) : Host.Outcome State Fault Refusal :=
  .next (guardedBc (.bcPrepare nch) (s.a0 != 0 && s.a1 != 0 && (nch == 1#2 || nch == 2#2))
    (prepareBc s.a0 s.a1 (nch.setWidth 32)) s)

/-- R372: BC_SET_THRESH. -/
def execBcSetThresh (s : State) : Host.Outcome State Fault Refusal :=
  .next (guardedBc .bcSetThresh (isFinite s.a0) (fun b => { b with thresh := s.a0 }) s)

/-- R373: BC_SET_RATIO. -/
def execBcSetRatio (s : State) : Host.Outcome State Fault Refusal :=
  .next (guardedBc .bcSetRatio (atLeastOne s.a0) (fun b => { b with ratio := s.a0 }) s)

/-- R374: BC_SET_ATTACK. -/
def execBcSetAttack (s : State) : Host.Outcome State Fault Refusal :=
  .next (guardedBc .bcSetAttack (finiteNonNegative s.a0)
    (fun b => { b with attack := s.a0, alphaA := alpha s.a0 b.rate.toNat }) s)

/-- R375: BC_SET_RELEASE. -/
def execBcSetRelease (s : State) : Host.Outcome State Fault Refusal :=
  .next (guardedBc .bcSetRelease (finiteNonNegative s.a0)
    (fun b => { b with release := s.a0, alphaR := alpha s.a0 b.rate.toNat }) s)

/-- R378: BC_SET_MAKEUP. -/
def execBcSetMakeup (s : State) : Host.Outcome State Fault Refusal :=
  .next (guardedBc .bcSetMakeup (isFinite s.a0) (fun b => { b with makeup := s.a0 }) s)

/-- R379: BC_SET_FLAGS. -/
def execBcSetFlags (hpf ms : Bool) (s : State) : Host.Outcome State Fault Refusal :=
  .next { s with bc := { s.bc with flags := bcFlagsWord hpf ms } }

/-- R380: BC_SET_DRIVE. -/
def execBcSetDrive (s : State) : Host.Outcome State Fault Refusal :=
  .next (guardedBc .bcSetDrive (inUnitInterval s.a0) (fun b => { b with drive := s.a0 }) s)

/-- R381: BC_SET_LINK. -/
def execBcSetLink (s : State) : Host.Outcome State Fault Refusal :=
  .next (guardedBc .bcSetLink (inUnitInterval s.a0) (fun b => { b with link := s.a0 }) s)

/-- R382: BC_SET_SAT_KNEE. -/
def execBcSetSatKnee (s : State) : Host.Outcome State Fault Refusal :=
  .next (guardedBc .bcSetSatKnee (inHalfOpenUnit s.a0) (fun b => { b with knee := s.a0 }) s)

/-- R383: BC_SET_BOOST. -/
def execBcSetBoost (s : State) : Host.Outcome State Fault Refusal :=
  .next (guardedBc .bcSetBoost (isFinite s.a0) (fun b => { b with boost := s.a0 }) s)

/-- R384: BC_SET_SC_FREQ. -/
def execBcSetScFreq (s : State) : Host.Outcome State Fault Refusal :=
  .next (guardedBc .bcSetScFreq (finitePositive s.a0)
    (fun b => { b with scFreq := s.a0, alphaSc := scAlpha s.a0 b.rate.toNat }) s)

/-- R385: BC_SET_DC_AMP. -/
def execBcSetDcAmp (s : State) : Host.Outcome State Fault Refusal :=
  .next (guardedBc .bcSetDcAmp (finiteNonNegative s.a0) (fun b => { b with dcAmp := s.a0 }) s)

/-- R386: BC_SET_DC_SEED. -/
def execBcSetDcSeed (s : State) : Host.Outcome State Fault Refusal :=
  .next (guardedBc .bcSetDcSeed (s.a0 != 0) (fun b => { b with lfsr := s.a0 }) s)

/-- R387: BC_RESET. -/
def execBcReset (s : State) : Host.Outcome State Fault Refusal :=
  .next { s with bc := clearDetector s.bc }

/-- R388: the DC offset of a block for a generator state. -/
def dcOffset (amp : F32) (lfsr : Word) : F32 := fmul amp (fmul (s2f lfsr) twoToMinus31)

/-- R388: BC_BLOCK_BEGIN. -/
def execBcBlockBegin (s : State) : Host.Outcome State Fault Refusal :=
  let x := xorshift32 s.bc.lfsr
  .next { s with bc := { s.bc with lfsr := x, dcOff := dcOffset s.bc.dcAmp x } }

/-- R390: the mid/side input stage. -/
def msIn (b : BcRegs) (a0 a1 : F32) : F32 × F32 :=
  if msEnabled b.flags then msRot a0 a1 else (a0, a1)

/-- R391: the linked detection signal of k channels. -/
def detect (link p0 p1 : F32) (k : Word) : F32 :=
  if k = 1 then p0
  else
    let avg := fmul (fadd p0 p1) fHalf
    let pk := if flt (fabs p0) (fabs p1) then p1 else p0
    fadd (fmul link avg) (fmul (fsub fOne link) pk)

/-- R391: the sidechain high-pass output for a new detection value. -/
def sidechainOut (b : BcRegs) (d : F32) : F32 := fmul b.alphaSc (fsub (fadd b.scy d) b.scx)

/-- R392: the static target gain reduction in dB. -/
def targetGr (thresh ratio dsel : F32) : F32 :=
  let m := fabs dsel
  if !flt posZero m then posZero
  else
    let lvl := fmul fTwenty (fLog10 m)
    if fle lvl thresh then posZero
    else fmul (fsub thresh lvl) (fsub fOne (fdiv fOne ratio))

/-- R393: the new envelope: the attack coefficient when the target lies below the envelope, else the release
coefficient. -/
def ballistic (b : BcRegs) (target : F32) : F32 :=
  let a := if flt target b.env then b.alphaA else b.alphaR
  fadd target (fmul a (fsub b.env target))

/-- R394: the linear gain of a frame, from its new envelope. -/
def frameGain (env makeup : F32) : F32 := db2lin (fadd env makeup)

/-- R395: the bus soft-clip without its boost. -/
def softClip (knee v : F32) : F32 :=
  let a := fabs v
  if fle a knee then v
  else
    let dd := fsub a knee
    let w0 := fadd knee (fdiv dd (fadd fOne (fdiv dd (fsub fOne knee))))
    copysign w0 v

/-- R395: bus saturation with its drive-dependent boost. -/
def busSat (b : BcRegs) (v : F32) : F32 :=
  fmul (softClip b.knee v) (fadd fOne (fmul b.drive b.boost))

/-- R396: the outputs of both channels before the DC offset is added: un-rotated when the frame was rotated. -/
def msOut (b : BcRegs) (q0 q1 : F32) : F32 × F32 :=
  if b.nch = 2 && msEnabled b.flags then msRot q0 q1 else (q0, q1)

/-- R389 to R393: the registers after the detector of one frame, before the non-finite check. -/
def detectorStep (b : BcRegs) (a0 a1 : F32) : BcRegs :=
  let p := msIn b a0 a1
  let d := detect b.link p.1 p.2 b.nch
  let h := sidechainOut b d
  let dsel := if hpfEnabled b.flags then h else d
  { b with scx := d, scy := h, env := ballistic b (targetGr b.thresh b.ratio dsel) }

/-- R394 to R396: both outputs of one frame, from the registers after the detector. -/
def frameOutputs (b : BcRegs) (a0 a1 : F32) : F32 × F32 :=
  let p := msIn b a0 a1
  let g := frameGain b.env b.makeup
  let q := msOut b (busSat b (fmul p.1 g)) (busSat b (fmul p.2 g))
  (fadd q.1 b.dcOff, fadd q.2 b.dcOff)

/-- R398: whether the detector state is finite. -/
def bcStateFinite (b : BcRegs) : Bool := isFinite b.env && isFinite b.scx && isFinite b.scy

/-- R398: the registers after the non-finite check. -/
def repairBc (b : BcRegs) : BcRegs :=
  { b with env := repaired b.env, scx := repaired b.scx, scy := repaired b.scy }

/-- R389: the effect of BC_FRAME once its check has passed. R1 is written only on a bus of two channels. -/
def frame (s : State) : State :=
  let b := detectorStep s.bc s.a0 s.a1
  let out := frameOutputs b s.a0 s.a1
  let s1 := setResult .left out.1 s
  let s2 := if b.nch = 2 then setResult .right out.2 s1 else s1
  let s3 := { s2 with bc := repairBc b }
  if bcStateFinite b then s3 else record .nonFiniteBus s3

/-- R389: BC_FRAME, refused while mid-side is enabled on a mono bus (R490). -/
def execBcFrame (s : State) : Host.Outcome State Fault Refusal :=
  .next (guarded .bcFrame (!(msEnabled s.bc.flags && s.bc.nch == 1)) frame s)

/-- R399: BC_BLOCK_END. -/
def execBcBlockEnd (s : State) : Host.Outcome State Fault Refusal :=
  .next { s with bc := { s.bc with lastGr := s.bc.env } }

end Sys2Proof.Machine
end

