-- ==== Sys2Proof/Machine/ChannelPair.lean ====
section
/-! DEFINITION. The ChannelPair trim commands (43_channel_pair.md R350, R351). -/

namespace Sys2Proof.Machine

/-- R350: CP_SET_IN_TRIM. -/
def execCpSetInTrim (s : State) : Host.Outcome State Fault Refusal :=
  .next (guarded .cpSetInTrim (isFinite s.a0)
    (fun s => { s with cp := { s.cp with inDb := s.a0, inGain := db2lin s.a0 } }) s)

/-- R351: CP_SET_OUT_TRIM. -/
def execCpSetOutTrim (s : State) : Host.Outcome State Fault Refusal :=
  .next (guarded .cpSetOutTrim (isFinite s.a0)
    (fun s => { s with cp := { s.cp with outDb := s.a0, outGain := db2lin s.a0 } }) s)

end Sys2Proof.Machine
end

