-- ==== Sys2Proof/Machine/MidSide.lean ====
section
/-! DEFINITION. The Mid/Side commands (45_midside.md R431, R432). -/

namespace Sys2Proof.Machine

/-- R431, R432: both results from the matrix of R430. -/
def rotateOperands (s : State) : State :=
  { s with r0 := (msRot s.a0 s.a1).1, r1 := (msRot s.a0 s.a1).2 }

/-- R431: MS_ENCODE. -/
def execMsEncode (s : State) : Host.Outcome State Fault Refusal := .next (rotateOperands s)

/-- R432: MS_DECODE, the same matrix. -/
def execMsDecode (s : State) : Host.Outcome State Fault Refusal := .next (rotateOperands s)

end Sys2Proof.Machine
end

