-- ==== Sys2Proof/Machine/System.lean ====
section
/-! DEFINITION. The command that belongs to no unit: NOP (R252). -/

namespace Sys2Proof.Machine

/-- R252: NOP leaves every register unchanged. -/
def execNop (s : State) : Host.Outcome State Fault Refusal := .next s

end Sys2Proof.Machine
end

