-- ==== Sys2Proof/Machine/ToneShaper.lean ====
section
/-! DEFINITION. The ToneShaper commands (41_toneshaper.md R270 to R274), their per-sample datapath (R280 to R283) and
TS_SAT_EVAL (R326). -/

namespace Sys2Proof.Machine

/-- R270: one channel's rate and scale. -/
def setRateOf (r : Word) (t : TsRegs) : TsRegs := { t with rate := r, scale := rateScale r.toNat }

/-- R270: TS_SET_RATE. -/
def execTsSetRate (chm : BitVec 2) (s : State) : Host.Outcome State Fault Refusal :=
  .next (guarded (.tsSetRate chm) (s.a0 != 0)
    (forSelected chm fun c s => setChannel c (setRateOf s.a0 (channel c s)) s) s)

/-- R271: one channel's mode, bundle and auto-gain. -/
def setModeOf (mode : Word) (acb : Record) (t : TsRegs) : TsRegs :=
  { t with mode := mode, acb := acb, autoGain := ag t.proc acb }

/-- R271: TS_SET_MODE. -/
def execTsSetMode (chm char : BitVec 2) (model : BitVec 3) (s : State) : Host.Outcome State Fault Refusal :=
  .next (guarded (.tsSetMode chm char model) (decide (char.toNat ≤ 2) && decide (model.toNat ≤ 4))
    (forSelected chm fun c s =>
      setChannel c
        (setModeOf (modeWord char model) (recordAt s.pram (recordIndex char.toNat model.toNat)) (channel c s)) s) s)

/-- R272: one channel's processing amount and auto-gain. -/
def setProcOf (p : F32) (t : TsRegs) : TsRegs := { t with proc := p, autoGain := ag p t.acb }

/-- R272: TS_SET_PROC. -/
def execTsSetProc (chm : BitVec 2) (s : State) : Host.Outcome State Fault Refusal :=
  .next (guarded (.tsSetProc chm) (inUnitInterval s.a0)
    (forSelected chm fun c s => setChannel c (setProcOf s.a0 (channel c s)) s) s)

/-- R273: one channel's filter memory and envelope cleared. -/
def clearTs (t : TsRegs) : TsRegs := { t with s := posZero, prev := posZero, env := posZero }

/-- R273: TS_RESET. -/
def execTsReset (chm : BitVec 2) (s : State) : Host.Outcome State Fault Refusal :=
  .next (forSelected chm (fun c s => setChannel c (clearTs (channel c s)) s) s)

/-- R282: the envelope follower: the envelope jumps to a larger input magnitude, else it decays. -/
def followEnvelope (e decay x : F32) : F32 :=
  if flt e (fabs x) then fabs x else fmul e decay

/-- R280: one sample through a channel: the output, and the channel's registers before the non-finite check. -/
def tsDatapath (t : TsRegs) (x : F32) : F32 × TsRegs :=
  let c := t.acb
  let p := t.proc
  let k := t.scale
  let char := modeChar t.mode
  let hE := fmul c.hpf k
  let lE := fmul c.lpf k
  let x1 := fadd (fmul hE x) (fmul c.fb (fsub x t.prev))
  let x2 := fadd (fmul x1 (fadd c.f1 (fmul c.kdrv p))) (fmul x1 (fadd fOne (fmul c.khrm p)))
  let e2 := followEnvelope t.env c.envDecay x
  let v := if flagG0 c.flags then x else x2
  let ds := fmul (fadd fOne (fmul c.ksat p)) (fadd fOne (fmul c.kenv e2))
  let u := fmul v ds
  let w1 := sat char c u
  let wv := if flagSP c.flags then sat char c (fmul w1 c.ksp) else w1
  let s2 := fadd t.s (fmul (fsub wv t.s) lE)
  let y0 := fmul (fmul c.kpd p) (fsub s2 (fmul x c.otrim))
  let y1 := fmul y0 c.postGain
  let y := if flagPS c.flags then sat char c y1 else y1
  let out := fmul (fadd y x) t.autoGain
  (out, { t with prev := x, s := s2, env := e2 })

/-- R283: whether a channel's persistent state is finite. -/
def tsStateFinite (t : TsRegs) : Bool := isFinite t.s && isFinite t.prev && isFinite t.env

/-- R283: a channel's registers after the non-finite check. -/
def repairTs (t : TsRegs) : TsRegs :=
  { t with s := repaired t.s, prev := repaired t.prev, env := repaired t.env }

/-- R280, R283: TS_STEP(c, x): the output, and the state with the channel's new state checked and any NonFinite event
recorded. -/
def tsStep (c : Chan) (x : F32) (s : State) : F32 × State :=
  let r := tsDatapath (channel c s) x
  let s1 := setChannel c (repairTs r.2) s
  (r.1, if tsStateFinite r.2 then s1 else record (.nonFiniteTs c) s1)

/-- R274: one channel's part of TS_PROCESS, with the ChannelPair trims around TS_STEP when T is 1 (R352). -/
def processPart (trim : Bool) (c : Chan) (s : State) : State :=
  let x := if trim then fmul (operand c s) s.cp.inGain else operand c s
  let r := tsStep c x s
  let y := if trim then fmul r.1 s.cp.outGain else r.1
  setResult c y r.2

/-- R274: TS_PROCESS. -/
def execTsProcess (chm : BitVec 2) (trim : Bool) (s : State) : Host.Outcome State Fault Refusal :=
  .next (forSelected chm (processPart trim) s)

/-- R326: the waveshaper of channel c on its operand. -/
def satOperand (c : Chan) (s : State) : F32 :=
  sat (modeChar (channel c s).mode) (channel c s).acb (operand c s)

/-- R326: TS_SAT_EVAL. -/
def execTsSatEval (chm : BitVec 2) (s : State) : Host.Outcome State Fault Refusal :=
  .next (forSelected chm (fun c s => setResult c (satOperand c s) s) s)

end Sys2Proof.Machine
end

