-- ==== Sys2Proof/Machine/Dispatch.lean ====
section
/-! DEFINITION. The dispatch from a decoded command to its meaning (R250: "perform the rule of op"). -/

namespace Sys2Proof.Machine

def exec (i : Instr) (s : State) : Host.Outcome State Fault Refusal :=
  match i with
  | .nop => Sys2Proof.Machine.execNop s
  | .tsSetRate chm => Sys2Proof.Machine.execTsSetRate chm s
  | .tsSetMode chm char model => Sys2Proof.Machine.execTsSetMode chm char model s
  | .tsSetProc chm => Sys2Proof.Machine.execTsSetProc chm s
  | .tsReset chm => Sys2Proof.Machine.execTsReset chm s
  | .tsProcess chm trim => Sys2Proof.Machine.execTsProcess chm trim s
  | .tsSatEval chm => Sys2Proof.Machine.execTsSatEval chm s
  | .cpSetInTrim => Sys2Proof.Machine.execCpSetInTrim s
  | .cpSetOutTrim => Sys2Proof.Machine.execCpSetOutTrim s
  | .msEncode => Sys2Proof.Machine.execMsEncode s
  | .msDecode => Sys2Proof.Machine.execMsDecode s
  | .bcPrepare nch => Sys2Proof.Machine.execBcPrepare nch s
  | .bcSetThresh => Sys2Proof.Machine.execBcSetThresh s
  | .bcSetRatio => Sys2Proof.Machine.execBcSetRatio s
  | .bcSetAttack => Sys2Proof.Machine.execBcSetAttack s
  | .bcSetRelease => Sys2Proof.Machine.execBcSetRelease s
  | .bcSetMakeup => Sys2Proof.Machine.execBcSetMakeup s
  | .bcSetFlags hpf ms => Sys2Proof.Machine.execBcSetFlags hpf ms s
  | .bcSetDrive => Sys2Proof.Machine.execBcSetDrive s
  | .bcSetLink => Sys2Proof.Machine.execBcSetLink s
  | .bcSetSatKnee => Sys2Proof.Machine.execBcSetSatKnee s
  | .bcSetBoost => Sys2Proof.Machine.execBcSetBoost s
  | .bcSetScFreq => Sys2Proof.Machine.execBcSetScFreq s
  | .bcSetDcAmp => Sys2Proof.Machine.execBcSetDcAmp s
  | .bcSetDcSeed => Sys2Proof.Machine.execBcSetDcSeed s
  | .bcReset => Sys2Proof.Machine.execBcReset s
  | .bcBlockBegin => Sys2Proof.Machine.execBcBlockBegin s
  | .bcFrame => Sys2Proof.Machine.execBcFrame s
  | .bcBlockEnd => Sys2Proof.Machine.execBcBlockEnd s

end Sys2Proof.Machine
end

