-- ==== Sys2Proof/Machine/Window.lean ====
section
/-! DEFINITION. The register window (R50 to R75, R153, R158): its registers by name, the address map, what each may be used
for, and the value a host reads at each. -/

namespace Sys2Proof.Machine

/-- A 32-bit word of the window (R51, R70, R75). -/
inductive Reg where
  | id | version | status | errCause | errCmd | errAddr | cmd | a0 | a1 | r0 | r1
  | cpInDb | cpInGain | cpOutDb | cpOutGain
  | tsRate (c : Chan) | tsScale (c : Chan) | tsMode (c : Chan) | tsProc (c : Chan) | tsAutoGain (c : Chan)
  | tsS (c : Chan) | tsPrev (c : Chan) | tsEnv (c : Chan)
  | acb (c : Chan) (f : Fin 32)
  | bcRate | bcBlock | bcNch | bcThresh | bcRatio | bcAttack | bcRelease | bcMakeup | bcFlags | bcDrive | bcLink
  | bcKnee | bcBoost | bcScFreq | bcDcAmp | bcLfsr | bcDcOff | bcAlphaA | bcAlphaR | bcAlphaSc | bcEnv | bcScx | bcScy
  | bcLastGr
  | pram (i : Fin 480)
deriving DecidableEq, Repr

/-- R51: what a host may do with a register. -/
inductive Access where
  /-- the host reads; a write is a BusError -/
  | ro
  /-- the host writes; a read returns 0 -/
  | wo
  /-- plain storage -/
  | rw
deriving DecidableEq, Repr

/-- The registers of R51 at their byte offsets. -/
def namedRegs : List (Nat × Reg) := [
  (0x0000, .id), (0x0004, .version), (0x0008, .status), (0x000C, .errCause), (0x0010, .errCmd), (0x0014, .errAddr),
  (0x0018, .cmd), (0x0020, .a0), (0x0024, .a1), (0x0028, .r0), (0x002C, .r1),
  (0x0040, .cpInDb), (0x0044, .cpInGain), (0x0048, .cpOutDb), (0x004C, .cpOutGain),
  (0x0100, .tsRate .left), (0x0104, .tsScale .left), (0x0108, .tsMode .left), (0x010C, .tsProc .left),
  (0x0110, .tsAutoGain .left), (0x0114, .tsS .left), (0x0118, .tsPrev .left), (0x011C, .tsEnv .left),
  (0x0140, .tsRate .right), (0x0144, .tsScale .right), (0x0148, .tsMode .right), (0x014C, .tsProc .right),
  (0x0150, .tsAutoGain .right), (0x0154, .tsS .right), (0x0158, .tsPrev .right), (0x015C, .tsEnv .right),
  (0x0300, .bcRate), (0x0304, .bcBlock), (0x0308, .bcNch), (0x030C, .bcThresh), (0x0310, .bcRatio),
  (0x0314, .bcAttack), (0x0318, .bcRelease), (0x031C, .bcMakeup), (0x0320, .bcFlags), (0x0324, .bcDrive),
  (0x0328, .bcLink), (0x032C, .bcKnee), (0x0330, .bcBoost), (0x0334, .bcScFreq), (0x0338, .bcDcAmp),
  (0x033C, .bcLfsr), (0x0340, .bcDcOff), (0x0344, .bcAlphaA), (0x0348, .bcAlphaR), (0x034C, .bcAlphaSc),
  (0x0350, .bcEnv), (0x0354, .bcScx), (0x0358, .bcScy), (0x035C, .bcLastGr)]

/-- The register at a byte offset (R153): the preset RAM, the two ACB mirrors, the named registers, else unmapped. An
offset that is not a multiple of 4 names no register (R50). -/
def regAt (a : Nat) : Option Reg :=
  if a % 4 ≠ 0 then none
  else if h : 0x1000 ≤ a ∧ a < 0x1780 then some (.pram ⟨(a - 0x1000) / 4, by omega⟩)
  else if h : 0x0200 ≤ a ∧ a < 0x0280 then some (.acb .left ⟨(a - 0x0200) / 4, by omega⟩)
  else if h : 0x0280 ≤ a ∧ a < 0x0300 then some (.acb .right ⟨(a - 0x0280) / 4, by omega⟩)
  else (namedRegs.find? fun p => p.1 == a).map Prod.snd

/-- R51: the access column. -/
def accessOf : Reg → Access
  | .cmd => .wo
  | .a0 => .rw
  | .a1 => .rw
  | .pram _ => .rw
  | _ => .ro

/-- The value a host reads in a register. ID and VERSION are constants (R52, R53) and CMD reads 0 (R57). -/
def peek (r : Reg) (s : State) : Word :=
  match r with
  | .id => 0x52474C58
  | .version => 7
  | .status => s.err.status
  | .errCause => s.err.cause
  | .errCmd => s.err.cmd
  | .errAddr => s.err.addr
  | .cmd => 0
  | .a0 => s.a0
  | .a1 => s.a1
  | .r0 => s.r0
  | .r1 => s.r1
  | .cpInDb => s.cp.inDb
  | .cpInGain => s.cp.inGain
  | .cpOutDb => s.cp.outDb
  | .cpOutGain => s.cp.outGain
  | .tsRate c => (channel c s).rate
  | .tsScale c => (channel c s).scale
  | .tsMode c => (channel c s).mode
  | .tsProc c => (channel c s).proc
  | .tsAutoGain c => (channel c s).autoGain
  | .tsS c => (channel c s).s
  | .tsPrev c => (channel c s).prev
  | .tsEnv c => (channel c s).env
  | .acb c f => recordWord (channel c s).acb f
  | .bcRate => s.bc.rate
  | .bcBlock => s.bc.block
  | .bcNch => s.bc.nch
  | .bcThresh => s.bc.thresh
  | .bcRatio => s.bc.ratio
  | .bcAttack => s.bc.attack
  | .bcRelease => s.bc.release
  | .bcMakeup => s.bc.makeup
  | .bcFlags => s.bc.flags
  | .bcDrive => s.bc.drive
  | .bcLink => s.bc.link
  | .bcKnee => s.bc.knee
  | .bcBoost => s.bc.boost
  | .bcScFreq => s.bc.scFreq
  | .bcDcAmp => s.bc.dcAmp
  | .bcLfsr => s.bc.lfsr
  | .bcDcOff => s.bc.dcOff
  | .bcAlphaA => s.bc.alphaA
  | .bcAlphaR => s.bc.alphaR
  | .bcAlphaSc => s.bc.alphaSc
  | .bcEnv => s.bc.env
  | .bcScx => s.bc.scx
  | .bcScy => s.bc.scy
  | .bcLastGr => s.bc.lastGr
  | .pram i => pramWord s.pram i

/-- The byte offset of CMD (R51). -/
def cmdOffset : Addr := 0x0018

/-- The host address of a window offset: the window sits at BASE (R158). -/
def hostAddress (a : Addr) : Nat := Config.base + a.toNat

end Sys2Proof.Machine
end

