-- ==== Sys2Proof/Machine/Port.lean ====
section
/-! DEFINITION. The host port: a read, a write, the execution of a command word written to CMD, and hardware reset
(20_memory.md R151, R152, R250, R481). -/

namespace Sys2Proof.Machine

/-- R151 to R153, R156: the register a host access of n bytes at an offset reaches; none for a BusError. -/
def accessed (a : Addr) (n : Nat) : Option Reg :=
  if n ≠ 4 then none
  else if a.toNat % 4 ≠ 0 then none
  else regAt a.toNat

/-- R151: MemRead. A BusError reads 0; no other read changes the block. -/
def memRead (a : Addr) (n : Nat) (s : State) : State :=
  match accessed a n with
  | none => record (.busError a) { s with resp := .readData 0 true }
  | some r => { s with resp := .readData (peek r s) false }

/-- R250: a command word written to CMD is executed as one step, or is recorded as Illegal with no other effect. -/
def execute (w : Word) (s : State) : Host.Outcome State Fault Refusal :=
  match decode w with
  | .ok i => exec i s
  | .error _ => .next (record (.illegal w) s)

/-- R152: the plain storage a host may write: A0, A1 and the preset RAM. -/
def storeReg (r : Reg) (v : Word) (s : State) : State :=
  match r with
  | .a0 => { s with a0 := v }
  | .a1 => { s with a1 := v }
  | .pram i => { s with pram := Memory.writeWord s.pram (pramOffset i) v }
  | _ => s

/-- R152: MemWrite. A faulting write changes nothing but the fault registers. -/
def memWrite (a : Addr) (n : Nat) (v : Word) (s : State) : Host.Outcome State Fault Refusal :=
  match accessed a n with
  | none => .next (record (.busError a) { s with resp := .writeDone true })
  | some r =>
    match accessOf r with
    | .ro => .next (record (.busError a) { s with resp := .writeDone true })
    | .wo => execute v { s with resp := .writeDone false }
    | .rw => .next (storeReg r v { s with resp := .writeDone false })

/-- R480, R481: hardware reset. What the host and the platform do after it stays (log 9). -/
def hardReset (s : State) : State := { State.reset with pending := s.pending }

/-- One input of the block, performed whole (R160). -/
def perform (h : HostInput) (s : State) : Host.Outcome State Fault Refusal :=
  match h with
  | .read a n => .next (memRead a n s)
  | .write a n v => memWrite a n v s
  | .hardReset => .next (hardReset s)

/-- One step: the next pending input is taken and performed (R160, R161); with none pending the block holds its state
(R465). -/
def stepOnce (s : State) : Host.Outcome State Fault Refusal :=
  match s.pending with
  | [] => .next s
  | h :: rest => perform h { s with pending := rest }

/-- The state whose next input is the host's write of a command word to CMD (log 1). -/
def pendingCommand (w : Word) (s : State) : State :=
  { s with pending := .write cmdOffset 4 w :: s.pending }

end Sys2Proof.Machine
end

