-- ==== Sys2Proof/Machine/Step.lean ====
section
/-! DEFINITION. The step of the block, and where the host of this package places the next instruction. -/

namespace Sys2Proof.Machine

/-- One step of the block (Machine/Port.lean). -/
def step (s : State) : Host.Outcome State Fault Refusal := stepOnce s

/-- The state whose next step executes the command of `nbits` bits `w`: the host's next transaction writes it to CMD
(R56, R57, log 1). -/
def State.withFetchWord (s : State) (nbits w : Nat) : State :=
  pendingCommand (BitVec.ofNat 32 (w % 2 ^ nbits)) s

end Sys2Proof.Machine
end

