-- ==== Sys2Proof/Machine/Assembly.lean ====
section
/-! DEFINITION. The assembler syntax of commands (R208), the lines of a host program (R209) and the pseudo-instructions (R210),
as functions from text to commands and to lists of host inputs. -/

namespace Sys2Proof.Machine

/-- The characters that separate the parts of a line: spaces and commas (R208). -/
def isSeparator (c : Char) : Bool := c == ' ' || c == ','

/-- The parts of a line, up to a comment that starts with a semicolon. -/
def lineParts : List Char → List Char → List String
  | [], acc => if acc.isEmpty then [] else [String.ofList acc.reverse]
  | c :: rest, acc =>
    if c == ';' then (if acc.isEmpty then [] else [String.ofList acc.reverse])
    else if isSeparator c then
      (if acc.isEmpty then lineParts rest [] else String.ofList acc.reverse :: lineParts rest [])
    else lineParts rest (c :: acc)

/-- The value of a digit in a base up to 16. -/
def digitValue (c : Char) : Option Nat :=
  let n := c.toNat
  if 48 ≤ n ∧ n ≤ 57 then some (n - 48)
  else if 97 ≤ n ∧ n ≤ 102 then some (n - 87)
  else if 65 ≤ n ∧ n ≤ 70 then some (n - 55)
  else none

/-- A number written in a base; `acc` is the value of the digits before. -/
def numberIn (base : Nat) : List Char → Nat → Option Nat
  | [], acc => some acc
  | c :: rest, acc =>
    match digitValue c with
    | some d => if d < base then numberIn base rest (acc * base + d) else none
    | none => none

/-- A non-empty number written in a base. -/
def number (base : Nat) (cs : List Char) : Option Nat :=
  if cs.isEmpty then none else numberIn base cs 0

/-- The characters before and after the first `mark`; none after when there is no mark. -/
def splitAtMark (mark : Char) : List Char → List Char × Option (List Char)
  | [] => ([], none)
  | c :: rest =>
    if c == mark then ([], some rest)
    else
      let r := splitAtMark mark rest
      (c :: r.1, r.2)

/-- The binary32 nearest to n / d, ties to even (R209). -/
def nearestF32 (neg : Bool) (n d : Nat) : F32 := roundUnits neg (n * 2 ^ 149) d

/-- An unsigned decimal number, with optional fraction and exponent, as the binary32 nearest to it (R209). -/
def decimalF32 (neg : Bool) (cs : List Char) : Option F32 :=
  let parts := splitAtMark 'e' cs
  let point := splitAtMark '.' parts.1
  let frac := point.2.getD []
  match number 10 (point.1 ++ frac) with
  | none => none
  | some n =>
    match parts.2 with
    | none => some (nearestF32 neg n (10 ^ frac.length))
    | some ('-' :: ds) => (number 10 ds).map fun e => nearestF32 neg n (10 ^ frac.length * 10 ^ e)
    | some ds => (number 10 ds).map fun e => nearestF32 neg (n * 10 ^ e) (10 ^ frac.length)

/-- R209: a VALUE: `0x` and hex digits, a decimal integer, or `f:` and a decimal number. What it takes beyond R209 (any
number of hex digits, a word modulo 2^32) is the model's choice (log 16, DESIGN CHOICE). -/
def parseValue (s : String) : Option Word :=
  match s.toList with
  | '0' :: 'x' :: ds => (number 16 ds).map (BitVec.ofNat 32)
  | 'f' :: ':' :: '-' :: ds => decimalF32 true ds
  | 'f' :: ':' :: ds => decimalF32 false ds
  | ds => (number 10 ds).map (BitVec.ofNat 32)

/-- The register names of 10_state.md that name one register without a channel (R209). -/
def namedOffsets : List (String × Nat) := [
  ("ID", 0x0000), ("VERSION", 0x0004), ("STATUS", 0x0008), ("ERR_CAUSE", 0x000C), ("ERR_CMD", 0x0010),
  ("ERR_ADDR", 0x0014), ("CMD", 0x0018), ("A0", 0x0020), ("A1", 0x0024), ("R0", 0x0028), ("R1", 0x002C),
  ("CP_IN_DB", 0x0040), ("CP_IN_GAIN", 0x0044), ("CP_OUT_DB", 0x0048), ("CP_OUT_GAIN", 0x004C),
  ("BC_RATE", 0x0300), ("BC_BLOCK", 0x0304), ("BC_NCH", 0x0308), ("BC_THRESH", 0x030C), ("BC_RATIO", 0x0310),
  ("BC_ATTACK", 0x0314), ("BC_RELEASE", 0x0318), ("BC_MAKEUP", 0x031C), ("BC_FLAGS", 0x0320), ("BC_DRIVE", 0x0324),
  ("BC_LINK", 0x0328), ("BC_KNEE", 0x032C), ("BC_BOOST", 0x0330), ("BC_SC_FREQ", 0x0334), ("BC_DC_AMP", 0x0338),
  ("BC_LFSR", 0x033C), ("BC_DCOFF", 0x0340), ("BC_ALPHA_A", 0x0344), ("BC_ALPHA_R", 0x0348),
  ("BC_ALPHA_SC", 0x034C), ("BC_ENV", 0x0350), ("BC_SCX", 0x0354), ("BC_SCY", 0x0358), ("BC_LAST_GR", 0x035C)]

/-- R209: an ADDR: a register name or a byte offset. R209 gives neither the number form of an offset nor what one above
0xFFFF means: any VALUE form is taken, and its low 16 bits (log 16, DESIGN CHOICE). -/
def parseAddr (s : String) : Option Addr :=
  match namedOffsets.find? fun p => p.1 == s with
  | some p => some (BitVec.ofNat 16 p.2)
  | none => (parseValue s).map fun w => w.setWidth 16

/-- R208: CH. -/
def parseChannels (s : String) : Option (BitVec 2) :=
  if s == "l" then some 1 else if s == "r" then some 2 else if s == "lr" then some 3 else none

/-- R208: CHAR, a name or 0 to 3. -/
def parseChar (s : String) : Option (BitVec 2) :=
  if s == "opal" || s == "0" then some 0
  else if s == "gold" || s == "1" then some 1
  else if s == "sapphire" || s == "2" then some 2
  else if s == "3" then some 3 else none

/-- R208: MODEL, a name or 0 to 7. -/
def parseModel (s : String) : Option (BitVec 3) :=
  if s == "luminescent" || s == "0" then some 0
  else if s == "iridescent" || s == "1" then some 1
  else if s == "radiant" || s == "2" then some 2
  else if s == "luster" || s == "3" then some 3
  else if s == "darkessence" || s == "4" then some 4
  else if s == "5" then some 5
  else if s == "6" then some 6
  else if s == "7" then some 7 else none

/-- R203, R208: the channel count of `bc.prepare`; values out of range assemble. R208 gives no number form for it: one decimal
digit, 0 to 3 (log 16, DESIGN CHOICE). -/
def parseCount (s : String) : Option (BitVec 2) :=
  if s == "0" then some 0 else if s == "1" then some 1 else if s == "2" then some 2
  else if s == "3" then some 3 else none

/-- R208: the commands without fields. -/
def plainCommands : List (String × Instr) := [
  ("nop", .nop), ("cp.intrim", .cpSetInTrim), ("cp.outtrim", .cpSetOutTrim), ("ms.enc", .msEncode),
  ("ms.dec", .msDecode), ("bc.thresh", .bcSetThresh), ("bc.ratio", .bcSetRatio), ("bc.attack", .bcSetAttack),
  ("bc.release", .bcSetRelease), ("bc.makeup", .bcSetMakeup), ("bc.drive", .bcSetDrive), ("bc.link", .bcSetLink),
  ("bc.knee", .bcSetSatKnee), ("bc.boost", .bcSetBoost), ("bc.scfreq", .bcSetScFreq), ("bc.dcamp", .bcSetDcAmp),
  ("bc.dcseed", .bcSetDcSeed), ("bc.reset", .bcReset), ("bc.begin", .bcBlockBegin), ("bc.frame", .bcFrame),
  ("bc.end", .bcBlockEnd)]

/-- R208: a command from the parts of its line. -/
def assembleParts : List String → Option Instr
  | [m] =>
    if m == "bc.flags" then some (.bcSetFlags false false)
    else (plainCommands.find? fun p => p.1 == m).map Prod.snd
  | [m, a] =>
    if m == "ts.rate" then (parseChannels a).map .tsSetRate
    else if m == "ts.proc" then (parseChannels a).map .tsSetProc
    else if m == "ts.reset" then (parseChannels a).map .tsReset
    else if m == "ts.sat" then (parseChannels a).map .tsSatEval
    else if m == "ts.process" then (parseChannels a).map fun c => .tsProcess c false
    else if m == "bc.prepare" then (parseCount a).map .bcPrepare
    else if m == "bc.flags" && a == "hpf" then some (.bcSetFlags true false)
    else if m == "bc.flags" && a == "ms" then some (.bcSetFlags false true)
    else none
  | [m, a, b] =>
    if m == "ts.process" && b == "trim" then (parseChannels a).map fun c => .tsProcess c true
    else if m == "bc.flags" && ((a == "hpf" && b == "ms") || (a == "ms" && b == "hpf")) then
      some (.bcSetFlags true true)
    else none
  | [m, a, b, c] =>
    if m == "ts.mode" then
      match parseChannels a, parseChar b, parseModel c with
      | some x, some y, some z => some (.tsSetMode x y z)
      | _, _, _ => none
    else none
  | _ => none

/-- R208: a line of text as a command. -/
def assemble (line : String) : Option Instr := assembleParts (lineParts line.toList [])

/-- R209: `wr ADDR, VALUE`. -/
def hostWrite (a : Addr) (v : Word) : HostInput := .write a 4 v

/-- R209: `rd ADDR`. -/
def hostRead (a : Addr) : HostInput := .read a 4

/-- R209: a command on a line of its own: `wr CMD, <its encoding>`. -/
def hostCommand (i : Instr) : HostInput := hostWrite cmdOffset (encode i)

/-- R210: `set0 V`. -/
def set0 (v : Word) : List HostInput := [hostWrite 0x0020 v]

/-- R210: `set1 V`. -/
def set1 (v : Word) : List HostInput := [hostWrite 0x0024 v]

/-- R210: `setp CMDTEXT, V`. R210 speaks of a one-operand setter only; every command is taken (log 16, DESIGN CHOICE). -/
def setp (i : Instr) (v : Word) : List HostInput := [hostWrite 0x0020 v, hostCommand i]

/-- R210: `sample CH, V0, V1`. -/
def sample (chm : BitVec 2) (v0 v1 : Word) : List HostInput :=
  [hostWrite 0x0020 v0, hostWrite 0x0024 v1, hostCommand (.tsProcess chm false), hostRead 0x0028, hostRead 0x002C]

/-- R210: `frame V0, V1`. -/
def frameOf (v0 v1 : Word) : List HostInput :=
  [hostWrite 0x0020 v0, hostWrite 0x0024 v1, hostCommand .bcFrame, hostRead 0x0028, hostRead 0x002C]

/-- R210: `loadpreset CHAR, MODEL, F, V`. Outside the table the address is taken modulo 2^16 (log 16, DESIGN CHOICE). -/
def loadPreset (char model f : Nat) (v : Word) : List HostInput :=
  [hostWrite (BitVec.ofNat 16 (0x1000 + 4 * ((char * 5 + model) * 32 + f))) v]

/-- R210: `getgr`. -/
def getGr : List HostInput := [hostRead 0x035C]

/-- R209, R210: the host inputs of a line, from its parts. R210 gives no number form for F of `loadpreset` and does not say
what `setp` gives with a CMDTEXT that is no one-operand setter: F is a decimal integer of any size, with no `0x` form, and
CMDTEXT is any command R208 writes (log 16, DESIGN CHOICE). -/
def hostParts (parts : List String) : Option (List HostInput) :=
  match parts with
  | ["getgr"] => some getGr
  | ["rd", a] => (parseAddr a).map fun x => [hostRead x]
  | ["set0", v] => (parseValue v).map set0
  | ["set1", v] => (parseValue v).map set1
  | ["wr", a, v] =>
    match parseAddr a, parseValue v with
    | some x, some y => some [hostWrite x y]
    | _, _ => none
  | ["frame", v, v'] =>
    match parseValue v, parseValue v' with
    | some x, some y => some (frameOf x y)
    | _, _ => none
  | ["sample", c, v, v'] =>
    match parseChannels c, parseValue v, parseValue v' with
    | some c, some x, some y => some (sample c x y)
    | _, _, _ => none
  | ["loadpreset", c, m, f, v] =>
    match parseChar c, parseModel m, number 10 f.toList, parseValue v with
    | some c, some m, some f, some x => some (loadPreset c.toNat m.toNat f x)
    | _, _, _, _ => none
  | "setp" :: rest =>
    match rest.getLast?, assembleParts rest.dropLast with
    | some v, some i => (parseValue v).map (setp i)
    | _, _ => none
  | _ => (assembleParts parts).map fun i => [hostCommand i]

/-- R209, R210: the host inputs of a line of a host program. -/
def hostLine (line : String) : Option (List HostInput) := hostParts (lineParts line.toList [])

end Sys2Proof.Machine
end

