-- ==== Sys2Proof/Safety.lean ====
section
/-! DEFINITION. The terms claims are made in: what the spec says always holds of the registers (the fields' legal values, the
setters' ranges, the derived coefficients, the finite persistent state), which registers the table of R204 lets a command
write, when R452 has a command refused, and what R11's rounding means. -/

namespace Sys2Proof.Machine

/-- R62: CHAR is never 3, MODEL never above 4, all other bits of TS_MODE are zero. -/
def modeLegal (mode : Word) : Prop :=
  (modeChar mode).toNat ≤ 2 ∧ (modeModel mode).toNat ≤ 4 ∧ mode = modeWord (modeChar mode) (modeModel mode)

/-- The bit-field and integer registers hold only what the spec lets them: STATUS bits 31:6 are zero (R54), ERR_CAUSE is at
most 6 (R450), TS_MODE is legal (R62), BC_FLAGS bits 31:2 are zero (R64), BC_NCH is 1 or 2 (R65), BC_LFSR is not zero
(R68). -/
def fieldsLegal (s : State) : Prop :=
  s.err.status.toNat < 2 ^ 6 ∧ s.err.cause.toNat ≤ 6
    ∧ modeLegal s.ts0.mode ∧ modeLegal s.ts1.mode
    ∧ s.bc.flags.toNat < 2 ^ 2 ∧ (s.bc.nch = 1 ∨ s.bc.nch = 2) ∧ s.bc.lfsr ≠ 0

/-- R61: a channel's accepted rate is positive and its processing amount lies in [0, 1] (R270, R272). -/
def tsParamsLegal (t : TsRegs) : Prop :=
  t.rate ≠ 0 ∧ inUnitInterval t.proc = true

/-- The BusCompressor's parameters are values its setters accept (R63, R371 to R385). -/
def bcParamsLegal (b : BcRegs) : Prop :=
  b.rate ≠ 0 ∧ b.block ≠ 0 ∧ isFinite b.thresh = true ∧ atLeastOne b.ratio = true
    ∧ finiteNonNegative b.attack = true ∧ finiteNonNegative b.release = true ∧ isFinite b.makeup = true
    ∧ inUnitInterval b.drive = true ∧ inUnitInterval b.link = true ∧ inHalfOpenUnit b.knee = true
    ∧ isFinite b.boost = true ∧ finitePositive b.scFreq = true ∧ finiteNonNegative b.dcAmp = true

/-- Every parameter register holds a value its setter accepts. -/
def paramsLegal (s : State) : Prop :=
  isFinite s.cp.inDb = true ∧ isFinite s.cp.outDb = true
    ∧ tsParamsLegal s.ts0 ∧ tsParamsLegal s.ts1 ∧ bcParamsLegal s.bc

/-- R61, R270, R275: a channel's scale and auto-gain are those of its rate, processing amount and bundle. -/
def tsDerived (t : TsRegs) : Prop :=
  t.scale = rateScale t.rate.toNat ∧ t.autoGain = ag t.proc t.acb

/-- R66: the three coefficients "always equal these expressions". -/
def bcDerived (b : BcRegs) : Prop :=
  b.alphaA = alpha b.attack b.rate.toNat ∧ b.alphaR = alpha b.release b.rate.toNat
    ∧ b.alphaSc = scAlpha b.scFreq b.rate.toNat

/-- Every derived register equals the expression it is derived by (R60, R61, R66). -/
def derivedAgree (s : State) : Prop :=
  s.cp.inGain = db2lin s.cp.inDb ∧ s.cp.outGain = db2lin s.cp.outDb
    ∧ tsDerived s.ts0 ∧ tsDerived s.ts1 ∧ bcDerived s.bc

/-- R283, R398, R454: no NaN and no infinity in the persistent per-sample state, nor in the meter latched from it
(R399). -/
def stateFinite (s : State) : Prop :=
  tsStateFinite s.ts0 = true ∧ tsStateFinite s.ts1 = true
    ∧ bcStateFinite s.bc = true ∧ isFinite s.bc.lastGr = true

/-- The "writes" column of R204: whether the table lists register r for command i. -/
def tableWrites (i : Instr) (r : Reg) : Bool :=
  match i with
  | .nop => false
  | .tsSetRate chm =>
    match r with
    | .tsRate c => selects chm c
    | .tsScale c => selects chm c
    | _ => false
  | .tsSetMode chm _ _ =>
    match r with
    | .tsMode c => selects chm c
    | .acb c _ => selects chm c
    | .tsAutoGain c => selects chm c
    | _ => false
  | .tsSetProc chm =>
    match r with
    | .tsProc c => selects chm c
    | .tsAutoGain c => selects chm c
    | _ => false
  | .tsReset chm =>
    match r with
    | .tsS c => selects chm c
    | .tsPrev c => selects chm c
    | .tsEnv c => selects chm c
    | _ => false
  | .tsProcess chm _ =>
    match r with
    | .r0 => selects chm .left
    | .r1 => selects chm .right
    | .tsS c => selects chm c
    | .tsPrev c => selects chm c
    | .tsEnv c => selects chm c
    | _ => false
  | .tsSatEval chm =>
    match r with
    | .r0 => selects chm .left
    | .r1 => selects chm .right
    | _ => false
  | .cpSetInTrim => r == .cpInDb || r == .cpInGain
  | .cpSetOutTrim => r == .cpOutDb || r == .cpOutGain
  | .msEncode => r == .r0 || r == .r1
  | .msDecode => r == .r0 || r == .r1
  | .bcPrepare _ =>
    [Reg.bcRate, .bcBlock, .bcNch, .bcAlphaA, .bcAlphaR, .bcAlphaSc, .bcEnv, .bcScx, .bcScy, .bcLastGr].contains r
  | .bcSetThresh => r == .bcThresh
  | .bcSetRatio => r == .bcRatio
  | .bcSetAttack => r == .bcAttack || r == .bcAlphaA
  | .bcSetRelease => r == .bcRelease || r == .bcAlphaR
  | .bcSetMakeup => r == .bcMakeup
  | .bcSetFlags _ _ => r == .bcFlags
  | .bcSetDrive => r == .bcDrive
  | .bcSetLink => r == .bcLink
  | .bcSetSatKnee => r == .bcKnee
  | .bcSetBoost => r == .bcBoost
  | .bcSetScFreq => r == .bcScFreq || r == .bcAlphaSc
  | .bcSetDcAmp => r == .bcDcAmp
  | .bcSetDcSeed => r == .bcLfsr
  | .bcReset => [Reg.bcEnv, .bcScx, .bcScy, .bcLastGr].contains r
  | .bcBlockBegin => r == .bcLfsr || r == .bcDcOff
  | .bcFrame => [Reg.r0, .r1, .bcEnv, .bcScx, .bcScy].contains r
  | .bcBlockEnd => r == .bcLastGr

/-- The complete list of R452: when a decoded command is refused with CfgError, in the spec's own comparisons. -/
def cfgErrorWhen (i : Instr) (s : State) : Bool :=
  match i with
  | .nop => false
  | .tsSetRate _ => s.a0 == 0
  | .tsSetMode _ char model => char == 3#2 || decide (4 < model.toNat)
  | .tsSetProc _ => isNaN s.a0 || flt s.a0 posZero || flt fOne s.a0
  | .tsReset _ => false
  | .tsProcess _ _ => false
  | .tsSatEval _ => false
  | .cpSetInTrim => isNaN s.a0 || isInf s.a0
  | .cpSetOutTrim => isNaN s.a0 || isInf s.a0
  | .msEncode => false
  | .msDecode => false
  | .bcPrepare nch => s.a0 == 0 || s.a1 == 0 || nch == 0#2 || nch == 3#2
  | .bcSetThresh => isNaN s.a0 || isInf s.a0
  | .bcSetRatio => isNaN s.a0 || flt s.a0 fOne
  | .bcSetAttack => flt s.a0 posZero || isNaN s.a0 || isInf s.a0
  | .bcSetRelease => flt s.a0 posZero || isNaN s.a0 || isInf s.a0
  | .bcSetMakeup => isNaN s.a0 || isInf s.a0
  | .bcSetFlags _ _ => false
  | .bcSetDrive => isNaN s.a0 || flt s.a0 posZero || flt fOne s.a0
  | .bcSetLink => isNaN s.a0 || flt s.a0 posZero || flt fOne s.a0
  | .bcSetSatKnee => isNaN s.a0 || flt s.a0 posZero || fle fOne s.a0
  | .bcSetBoost => isNaN s.a0 || isInf s.a0
  | .bcSetScFreq => fle s.a0 posZero || isNaN s.a0 || isInf s.a0
  | .bcSetDcAmp => flt s.a0 posZero || isNaN s.a0 || isInf s.a0
  | .bcSetDcSeed => s.a0 == 0
  | .bcReset => false
  | .bcBlockBegin => false
  | .bcFrame => msEnabled s.bc.flags && s.bc.nch == 1
  | .bcBlockEnd => false

/-- The opcodes of R204. -/
def knownOpcodes : List Byte := [
  0x00, 0x10, 0x11, 0x12, 0x13, 0x14, 0x15, 0x18, 0x19, 0x20, 0x21, 0x30, 0x31, 0x32, 0x33, 0x34, 0x35, 0x36, 0x37, 0x38,
  0x39, 0x3A, 0x3B, 0x3C, 0x3D, 0x3E, 0x40, 0x41, 0x42]

/-- A bit that the format of the word's opcode reserves is 1, by the bit tables of R202. -/
def reservedBitSet (w : Word) : Bool :=
  let op := w.extractLsb' 0 8
  if [0x10#8, 0x12#8, 0x13#8, 0x15#8, 0x30#8].contains op then w >>> 10 != 0
  else if op == 0x11#8 then w >>> 15 != 0
  else if op == 0x14#8 then w >>> 11 != 0
  else if op == 0x36#8 then w >>> 12 != 0 || w.extractLsb' 8 2 != 0#2
  else w >>> 8 != 0

/-- The word is of format C, M or P and selects no channel (R206 (b)). -/
def channelMaskEmpty (w : Word) : Bool :=
  [0x10#8, 0x11#8, 0x12#8, 0x13#8, 0x14#8, 0x15#8].contains (w.extractLsb' 0 8) && w.extractLsb' 8 2 == 0#2

/-- The three conditions of R451. -/
def illegalWhen (w : Word) : Bool :=
  !knownOpcodes.contains (w.extractLsb' 0 8) || reservedBitSet w || channelMaskEmpty w

/-- The mapped offsets, in the ranges of R153 and R158. -/
def mappedOffset (a : Addr) : Bool :=
  let n := a.toNat
  n % 4 == 0
    && (decide (n ≤ 0x18) || (decide (0x20 ≤ n) && decide (n ≤ 0x2C)) || (decide (0x40 ≤ n) && decide (n ≤ 0x4C))
      || (decide (0x100 ≤ n) && decide (n ≤ 0x11C)) || (decide (0x140 ≤ n) && decide (n ≤ 0x15C))
      || (decide (0x200 ≤ n) && decide (n ≤ 0x2FC)) || (decide (0x300 ≤ n) && decide (n ≤ 0x35C))
      || (decide (0x1000 ≤ n) && decide (n ≤ 0x177C)))

/-- The mapped offsets that are not RO: CMD, A0, A1 and the preset RAM (R51, R152). -/
def writableOffset (a : Addr) : Bool :=
  mappedOffset a && (a == 0x18 || a == 0x20 || a == 0x24 || decide (0x1000 ≤ a.toNat))

/-- The register map of R51 outside the ACB mirrors and the preset RAM: each offset and what a host reads there. -/
def registerMap : List (Addr × (State → Word)) := [
  (0x0000, fun _ => 0x52474C58), (0x0004, fun _ => 0x00000007), (0x0008, fun s => s.err.status),
  (0x000C, fun s => s.err.cause), (0x0010, fun s => s.err.cmd), (0x0014, fun s => s.err.addr), (0x0018, fun _ => 0),
  (0x0020, fun s => s.a0), (0x0024, fun s => s.a1), (0x0028, fun s => s.r0), (0x002C, fun s => s.r1),
  (0x0040, fun s => s.cp.inDb), (0x0044, fun s => s.cp.inGain), (0x0048, fun s => s.cp.outDb),
  (0x004C, fun s => s.cp.outGain),
  (0x0100, fun s => s.ts0.rate), (0x0104, fun s => s.ts0.scale), (0x0108, fun s => s.ts0.mode),
  (0x010C, fun s => s.ts0.proc), (0x0110, fun s => s.ts0.autoGain), (0x0114, fun s => s.ts0.s),
  (0x0118, fun s => s.ts0.prev), (0x011C, fun s => s.ts0.env),
  (0x0140, fun s => s.ts1.rate), (0x0144, fun s => s.ts1.scale), (0x0148, fun s => s.ts1.mode),
  (0x014C, fun s => s.ts1.proc), (0x0150, fun s => s.ts1.autoGain), (0x0154, fun s => s.ts1.s),
  (0x0158, fun s => s.ts1.prev), (0x015C, fun s => s.ts1.env),
  (0x0300, fun s => s.bc.rate), (0x0304, fun s => s.bc.block), (0x0308, fun s => s.bc.nch),
  (0x030C, fun s => s.bc.thresh), (0x0310, fun s => s.bc.ratio), (0x0314, fun s => s.bc.attack),
  (0x0318, fun s => s.bc.release), (0x031C, fun s => s.bc.makeup), (0x0320, fun s => s.bc.flags),
  (0x0324, fun s => s.bc.drive), (0x0328, fun s => s.bc.link), (0x032C, fun s => s.bc.knee),
  (0x0330, fun s => s.bc.boost), (0x0334, fun s => s.bc.scFreq), (0x0338, fun s => s.bc.dcAmp),
  (0x033C, fun s => s.bc.lfsr), (0x0340, fun s => s.bc.dcOff), (0x0344, fun s => s.bc.alphaA),
  (0x0348, fun s => s.bc.alphaR), (0x034C, fun s => s.bc.alphaSc), (0x0350, fun s => s.bc.env),
  (0x0354, fun s => s.bc.scx), (0x0358, fun s => s.bc.scy), (0x035C, fun s => s.bc.lastGr)]

/-- A state that differs only by a recorded CfgError of command word w (R450, R452). -/
def refused (w : Word) (s : State) : State :=
  { s with err := { s.err with status := s.err.status ||| 2, cause := 2, cmd := w } }

/-- The word of a command that has only the channel mask as a field (R202). -/
def wordC (op : Word) (chm : BitVec 2) : Word := op ||| (chm.setWidth 32 <<< 8)

/-- The channel mask selects channel 0 (R203). -/
def selectsLeft (chm : BitVec 2) : Bool := chm.getLsbD 0

/-- The channel mask selects channel 1 (R203). -/
def selectsRight (chm : BitVec 2) : Bool := chm.getLsbD 1

/-- R10: the number a pattern stands for, from its three fields: f * 2^-149 for the exponent field 0, else
(2^23 + f) * 2^(e - 150). An infinity gets the place of plus or minus 2^128, just beyond every finite number; a NaN pattern
stands for nothing. -/
def binary32Value (x : F32) : ℚ :=
  let e := (x.extractLsb' 23 8).toNat
  let f := (x.extractLsb' 0 23).toNat
  let m : ℚ := if e = 0 then f / 2 ^ 149 else (2 ^ 23 + f) * 2 ^ e / 2 ^ 150
  if x.getLsbD 31 then -m else m

/-- R11: the result r is the number v rounded once to nearest, ties to even. Below half a unit beyond the largest finite
number r is finite, no finite number is closer to v, and where another is as close r is the even one; from there on r is the
infinity of v's sign. -/
def nearestEven (v : ℚ) (r : F32) : Prop :=
  if |v| < 2 ^ 128 - 2 ^ 103 then
    isFinite r = true ∧ ∀ y : F32, isFinite y = true →
      |binary32Value r - v| ≤ |binary32Value y - v|
      ∧ (|binary32Value r - v| = |binary32Value y - v| → binary32Value y ≠ binary32Value r → r.getLsbD 0 = false)
  else r = if v < 0 then negInf else posInf

end Sys2Proof.Machine
end

