-- ==== Sys2Proof/Certificates/Slice0/Obligations.lean ====
section
/-! DEFINITION. What is claimed of the block, one proposition each: encodings, the step, the host port, faults, frames,
invariants, every command's result, and consequences of the arithmetic. -/

section ObligationStatements
open Sys2Proof Sys2Proof.Machine

/-- 30_encoding.md, formats and fields: no field and no bit of a field is lost between `encode` and `decode`. -/
def Obligations.DecodeOfEncode : Prop :=
  ∀ i : Instr,
    (i.wellFormed = true → decode (encode i) = .ok i)
    ∧ (i.wellFormed = false → decode (encode i) = .error .emptyMask)

/-- 30_encoding.md: every bit of a command word is opcode, field or reserved-zero, so a decoded command determines its
word. It is also why the word a CfgError records is the word the host wrote (log 10). -/
def Obligations.EncodeOfDecode : Prop :=
  ∀ (w : Word) (i : Instr), decode w = .ok i → encode i = w ∧ i.wellFormed = true

/-- R205, R206: the illegal encodings, with the reserved bits taken from the bit tables of R202 (`reservedBitSet`) and
not from the masks. -/
def Obligations.IllegalWordsExactly : Prop :=
  ∀ (w : Word) (s : State),
    (decode w = .error .unknownOpcode ↔ knownOpcodes.contains (w.extractLsb' 0 8) = false)
    ∧ (decode w = .error .reservedBits ↔ knownOpcodes.contains (w.extractLsb' 0 8) = true ∧ reservedBitSet w = true)
    ∧ (decode w = .error .emptyMask ↔ knownOpcodes.contains (w.extractLsb' 0 8) = true ∧ reservedBitSet w = false
        ∧ channelMaskEmpty w = true)
    ∧ ((∃ i, decode w = .ok i) ↔ illegalWhen w = false)
    ∧ (illegalWhen w = true → execute w s =
        .next { s with err := { s.err with status := s.err.status ||| 1, cause := 1, cmd := w } })
    ∧ (∀ (chm char : BitVec 2) (model : BitVec 3), chm ≠ 0 → char = 3 ∨ 4 < model.toNat →
        execute (encode (.tsSetMode chm char model)) s = .next (refused (encode (.tsSetMode chm char model)) s))
    ∧ (∀ nch : BitVec 2, nch = 0 ∨ nch = 3 →
        execute (encode (.bcPrepare nch)) s = .next (refused (encode (.bcPrepare nch)) s))

/-- Example words of R270 to R274, R371, R379 and R388 as bits. -/
def Obligations.SampleWordsDecode : Prop :=
  decode 0b00000000000000000000001100010000 = .ok (.tsSetRate 3)
    ∧ decode 0b00000000000000000000011100010001 = .ok (.tsSetMode 3 1 0)
    ∧ decode 0b00000000000000000000000100010011 = .ok (.tsReset 1)
    ∧ decode 0b00000000000000000000001100010100 = .ok (.tsProcess 3 false)
    ∧ decode 0b00000000000000000000001000110000 = .ok (.bcPrepare 2)
    ∧ decode 0b00000000000000000000110000110110 = .ok (.bcSetFlags true true)
    ∧ decode 0b00000000000000000000000001000000 = .ok .bcBlockBegin
    ∧ decode 0b00000000000000000000000000011001 = .ok .cpSetOutTrim

/-- 10_state.md section 2 (CMD), 40_command_cycle.md and 60_exceptions.md section 1: a word written to CMD is executed
at once, or recorded as Illegal. The list of inputs and the response field are the model's own (log 1, log 2). -/
def Obligations.StepRunsDecodedCommand : Prop :=
  ∀ (s : State) (rest : List HostInput) (w : Word),
    (s.pending = .write 0x0018 4 w :: rest →
      step s = execute w { s with pending := rest, resp := .writeDone false }
      ∧ (∀ i : Instr, decode w = .ok i → step s = exec i { s with pending := rest, resp := .writeDone false })
      ∧ (illegalWhen w = true → step s = .next { s with
          pending := rest, resp := .writeDone false
          err := { s.err with status := s.err.status ||| 1, cause := 1, cmd := w } }))
    ∧ (s.pending = .read 0x0018 4 :: rest →
      step s = .next { s with pending := rest, resp := .readData 0 false })

/-- 20_memory.md section 7 (one transaction at a time) and 70_reset_and_hazards.md section 1. The list of inputs is
the model's (log 1), and that a reset leaves the coming inputs is log 9. -/
def Obligations.StepPerformsNextInput : Prop :=
  ∀ (s : State) (rest : List HostInput),
    (s.pending = [] → step s = .next s)
    ∧ (∀ a n, s.pending = .read a n :: rest → step s = .next (memRead a n { s with pending := rest }))
    ∧ (∀ a n v, s.pending = .write a n v :: rest → step s = memWrite a n v { s with pending := rest })
    ∧ (s.pending = .hardReset :: rest → step s = .next { State.reset with pending := rest })

/-- 60_exceptions.md section 3 (R456): after any fault the block accepts the next transaction normally. -/
def Obligations.EveryStepCompletes : Prop :=
  ∀ s : State, ∃ t : State, step s = .next t

/-- 10_state.md sections 1 to 3 and 20_memory.md section 1: the address column of the register map with its two
constants, the ACB mirrors and the preset RAM. The response field that carries what was read is the model's own (log
2). -/
def Obligations.RegisterMapReads : Prop :=
  ∀ s : State,
    (∀ p ∈ registerMap, memRead p.1 4 s = { s with resp := .readData (p.2 s) false })
    ∧ (∀ f < 32, memRead (BitVec.ofNat 16 (0x0200 + 4 * f)) 4 s =
        { s with resp := .readData (recordWord s.ts0.acb f) false })
    ∧ (∀ f < 32, memRead (BitVec.ofNat 16 (0x0280 + 4 * f)) 4 s =
        { s with resp := .readData (recordWord s.ts1.acb f) false })
    ∧ (∀ i < 480, memRead (BitVec.ofNat 16 (0x1000 + 4 * i)) 4 s =
        { s with resp := .readData (pramWord s.pram i) false })

/-- 20_memory.md sections 1 and 3 and 60_exceptions.md section 1 (R153, R156, R453), with the mapped ranges written
out (`mappedOffset`, `writableOffset`). That every response is shown in `resp`, its error flag among them, is the
model's choice (log 2): R453 signals an error only where the host's bus has one. -/
def Obligations.BusErrorsExactly : Prop :=
  ∀ (s : State) (a : Addr) (n : Nat) (v : Word),
    (¬ (n = 4 ∧ mappedOffset a = true) → memRead a n s =
      { s with resp := .readData 0 true,
               err := { s.err with status := s.err.status ||| 4, cause := 3, addr := a.setWidth 32 } })
    ∧ (n = 4 ∧ mappedOffset a = true → ∃ x, memRead a n s = { s with resp := .readData x false })
    ∧ (¬ (n = 4 ∧ writableOffset a = true) → memWrite a n v s =
      .next { s with resp := .writeDone true,
                     err := { s.err with status := s.err.status ||| 4, cause := 3, addr := a.setWidth 32 } })
    ∧ (n = 4 ∧ writableOffset a = true → ∀ t, memWrite a n v s = .next t →
      t.resp = .writeDone false ∧ t.err.addr = s.err.addr)

/-- 20_memory.md section 1: A0 and A1 are plain storage. The response field is the model's own (log 2). -/
def Obligations.OperandWrites : Prop :=
  ∀ (s : State) (v : Word),
    memWrite 0x0020 4 v s = .next { s with resp := .writeDone false, a0 := v }
    ∧ memWrite 0x0024 4 v s = .next { s with resp := .writeDone false, a1 := v }

/-- 20_memory.md sections 1 and 2 (R152, R155) and the preset RAM's layout (R70). The response field is the model's
own (log 2); that the RAM is kept as bytes is log 8; the cells' order is kept by every step (StepKeepsMemoryForm). -/
def Obligations.PresetRamWrite : Prop :=
  ∀ (s : State) (i : Nat) (v : Word), Memory.rising s.pram = true → i < 480 →
    ∃ m : Memory,
      memWrite (BitVec.ofNat 16 (0x1000 + 4 * i)) 4 v s = .next { s with resp := .writeDone false, pram := m }
      ∧ pramWord m i = v
      ∧ (∀ k, k ≠ i → pramWord m k = pramWord s.pram k)
      ∧ (∀ j < 4, Memory.readByte m (0x1000 + 4 * i + j) = v.extractLsb' (8 * j) 8)
      ∧ (∀ a, a < 0x1000 + 4 * i ∨ 0x1000 + 4 * i + 4 ≤ a → Memory.readByte m a = Memory.readByte s.pram a)

/-- 10_state.md section 4: every state element is readable through the window. `pending` and `resp` are the model's
own (log 1, log 2). -/
def Obligations.WholeStateIsReadable : Prop :=
  ∀ s t : State, Memory.wf s.pram = true → Memory.wf t.pram = true →
    s.pending = t.pending → s.resp = t.resp → (∀ r : Reg, peek r s = peek r t) → s = t

/-- 60_exceptions.md section 1: the table of kinds. -/
def Obligations.FaultRecording : Prop :=
  ∀ (s : State) (w : Word) (a : Addr),
    record (.illegal w) s = { s with err := { s.err with status := s.err.status ||| 0x01, cause := 1, cmd := w } }
    ∧ record (.cfgError w) s = { s with err := { s.err with status := s.err.status ||| 0x02, cause := 2, cmd := w } }
    ∧ record (.busError a) s =
        { s with err := { s.err with status := s.err.status ||| 0x04, cause := 3, addr := a.setWidth 32 } }
    ∧ record (.nonFiniteTs .left) s = { s with err := { s.err with status := s.err.status ||| 0x08, cause := 4 } }
    ∧ record (.nonFiniteTs .right) s = { s with err := { s.err with status := s.err.status ||| 0x10, cause := 5 } }
    ∧ record .nonFiniteBus s = { s with err := { s.err with status := s.err.status ||| 0x20, cause := 6 } }

/-- 10_state.md section 2 (STATUS) and 70_reset_and_hazards.md section 1. -/
def Obligations.StatusBitsAreSticky : Prop :=
  ∀ s t : State, step s = .next t →
    (s.pending.head? ≠ some .hardReset → s.err.status &&& t.err.status = s.err.status)
    ∧ (s.pending.head? = some .hardReset → t.err.status = 0)

/-- R452: the list is `cfgErrorWhen`, written from the table's own words. -/
def Obligations.CfgErrorExactly : Prop :=
  ∀ (w : Word) (i : Instr) (s : State), decode w = .ok i →
    (cfgErrorWhen i s = true → execute w s =
      .next { s with err := { s.err with status := s.err.status ||| 2, cause := 2, cmd := w } })
    ∧ (cfgErrorWhen i s = false → ∃ t, execute w s = .next t
        ∧ t.err.status.getLsbD 1 = s.err.status.getLsbD 1 ∧ t.err.cmd = s.err.cmd ∧ t.err.addr = s.err.addr)

/-- The writes column of the opcode map (30_encoding.md section 3), as `tableWrites`. All of memory is covered: no
command writes the preset RAM. `pending` and `resp` are the model's own (log 1, log 2). -/
def Obligations.CommandFrame : Prop :=
  ∀ (i : Instr) (s t : State), exec i s = .next t →
    (∀ r : Reg, tableWrites i r = false → r ≠ .status → r ≠ .errCause → r ≠ .errCmd → peek r t = peek r s)
    ∧ (∀ a : Nat, Memory.readByte t.pram a = Memory.readByte s.pram a)
    ∧ t.pram = s.pram ∧ t.err.addr = s.err.addr ∧ t.a0 = s.a0 ∧ t.a1 = s.a1
    ∧ t.pending = s.pending ∧ t.resp = s.resp

/-- 10_state.md section 3 and 20_memory.md section 7: a preset write is not seen by a channel until TS_SET_MODE copies
the record. -/
def Obligations.PresetRamReachesOnlySetMode : Prop :=
  ∀ (i : Instr) (s t : State) (m : Memory), (∀ chm char model, i ≠ .tsSetMode chm char model) →
    exec i s = .next t → exec i { s with pram := m } = .next { t with pram := m }

/-- 40_command_cycle.md: the two parts read and write disjoint per-channel state. -/
def Obligations.ToneShaperChannelsIndependent : Prop :=
  ∀ (s t : State) (u : TsRegs) (char : BitVec 2) (model : BitVec 3) (trim : Bool),
    (∀ i ∈ [Instr.tsSetRate 1, .tsSetMode 1 char model, .tsSetProc 1, .tsReset 1, .tsProcess 1 trim, .tsSatEval 1],
      exec i s = .next t →
        t.ts1 = s.ts1 ∧ t.r1 = s.r1 ∧ exec i { s with ts1 := u } = .next { t with ts1 := u })
    ∧ (∀ i ∈ [Instr.tsSetRate 2, .tsSetMode 2 char model, .tsSetProc 2, .tsReset 2, .tsProcess 2 trim, .tsSatEval 2],
      exec i s = .next t →
        t.ts0 = s.ts0 ∧ t.r0 = s.r0 ∧ exec i { s with ts0 := u } = .next { t with ts0 := u })

/-- 40_command_cycle.md (R253): the channel-0 part, then the channel-1 part. -/
def Obligations.BothChannelsInOrder : Prop :=
  ∀ (s t : State) (char : BitVec 2) (model : BitVec 3) (trim : Bool) (f : BitVec 2 → Instr),
    f ∈ [Instr.tsSetRate, fun c => .tsSetMode c char model, .tsSetProc, .tsReset, fun c => .tsProcess c trim,
      .tsSatEval] →
    cfgErrorWhen (f 3) s = false → exec (f 1) s = .next t → exec (f 2) t = exec (f 3) s

/-- 10_state.md section 2: STATUS, TS_MODE, BC_FLAGS, BC_NCH and BC_LFSR hold only these values. At reset:
ResetMeetsInvariants. -/
def Obligations.StepKeepsFieldsLegal : Prop :=
  ∀ s t : State, fieldsLegal s → step s = .next t → fieldsLegal t

/-- 10_state.md section 2 with the ranges of 60_exceptions.md section 1. At reset: ResetMeetsInvariants. -/
def Obligations.StepKeepsParamsLegal : Prop :=
  ∀ s t : State, paramsLegal s → step s = .next t → paramsLegal t

/-- 10_state.md section 2: the derived registers 'always equal these expressions'. At reset: ResetMeetsInvariants. -/
def Obligations.StepKeepsDerivedAgree : Prop :=
  ∀ s t : State, derivedAgree s → step s = .next t → derivedAgree t

/-- 41_toneshaper.md section 3 and 44_bus_compressor.md section 3: non-finite values do not stay in persistent state.
At reset: ResetMeetsInvariants. -/
def Obligations.StepKeepsStateFinite : Prop :=
  ∀ s t : State, stateFinite s → step s = .next t → stateFinite t

/-- The model's memory form (log 8), over the preset RAM of 10_state.md section 3. At reset: ResetMeetsInvariants. -/
def Obligations.StepKeepsMemoryForm : Prop :=
  ∀ s t : State, Memory.wf s.pram = true → step s = .next t → Memory.wf t.pram = true

/-- 70_reset_and_hazards.md section 1 against the invariants stated here. -/
def Obligations.ResetMeetsInvariants : Prop :=
  fieldsLegal State.reset ∧ paramsLegal State.reset ∧ derivedAgree State.reset ∧ stateFinite State.reset
    ∧ Memory.wf State.reset.pram = true

/-- R480, item by item. -/
def Obligations.ResetRegisters : Prop :=
  ∀ s : State, s.pending.head? = some .hardReset → ∃ t, step s = .next t
    ∧ (peek .id t = 0x52474C58 ∧ peek .version t = 7 ∧ peek .status t = 0 ∧ peek .errCause t = 0 ∧ peek .errCmd t = 0
      ∧ peek .errAddr t = 0 ∧ peek .a0 t = 0 ∧ peek .a1 t = 0 ∧ peek .r0 t = 0 ∧ peek .r1 t = 0
      ∧ peek .cpInDb t = 0 ∧ peek .cpInGain t = 0x3F800000 ∧ peek .cpOutDb t = 0 ∧ peek .cpOutGain t = 0x3F800000)
    ∧ (∀ c : Chan, peek (.tsRate c) t = 44100 ∧ peek (.tsScale c) t = 0x3F800000 ∧ peek (.tsMode c) t = 0
      ∧ peek (.tsProc c) t = 0 ∧ peek (.tsS c) t = 0 ∧ peek (.tsPrev c) t = 0 ∧ peek (.tsEnv c) t = 0
      ∧ peek (.tsAutoGain c) t = ag 0 (recordOfWords Config.defaultPreset)
      ∧ (∀ f : Fin 32, peek (.acb c f) t = Config.defaultPreset f)
      ∧ (flt (Config.defaultPreset 23) 0 = false → isFinite (Config.defaultPreset 20) = true →
          isFinite (Config.defaultPreset 21) = true → peek (.tsAutoGain c) t = 0x3F800000))
    ∧ (peek .bcRate t = 44100 ∧ peek .bcBlock t = 512 ∧ peek .bcNch t = 2 ∧ peek .bcThresh t = 0
      ∧ peek .bcRatio t = 0x3F800000 ∧ peek .bcAttack t = 0x41200000 ∧ peek .bcRelease t = 0x43960000
      ∧ peek .bcMakeup t = 0 ∧ peek .bcFlags t = 0 ∧ peek .bcDrive t = 0 ∧ peek .bcLink t = 0x3F800000
      ∧ peek .bcKnee t = 0x3F4CCCCD ∧ peek .bcBoost t = 0 ∧ peek .bcScFreq t = 0x43160000 ∧ peek .bcDcAmp t = 0
      ∧ peek .bcLfsr t = 1 ∧ peek .bcDcOff t = 0 ∧ peek .bcAlphaA t = alpha 0x41200000 44100
      ∧ peek .bcAlphaR t = alpha 0x43960000 44100 ∧ peek .bcAlphaSc t = scAlpha 0x43160000 44100
      ∧ peek .bcAlphaSc t = 0x3F7AA4B6 ∧ peek .bcEnv t = 0 ∧ peek .bcScx t = 0 ∧ peek .bcScy t = 0
      ∧ peek .bcLastGr t = 0)
    ∧ (∀ i : Fin 480, peek (.pram i) t = Config.defaultPreset i)

/-- 41_toneshaper.md section 2 (rule AG): the pseudocode line by line, its corner cases and what 'optional' means
there. -/
def Obligations.AutoGainCorners : Prop :=
  ∀ (c : Record) (p : F32),
    (let d1 := fadd fOne (fmul p c.k1)
     let d2 := fadd fOne (fmul p c.k2)
     let g := fdiv fOne (fmul d1 d2)
     ag p c = if flt c.knee p then fmul g (fadd fOne (fmul (fsub p c.knee) c.k3)) else g)
    ∧ (mag p = 0 → flt c.knee p = false → isFinite c.k1 = true → isFinite c.k2 = true → ag p c = 0x3F800000)
    ∧ (mag c.k3 = 0 → isFinite (fsub p c.knee) = true →
        ag p c = fdiv fOne (fmul (fadd fOne (fmul p c.k1)) (fadd fOne (fmul p c.k2))))

/-- R252. -/
def Obligations.NopResult : Prop :=
  (∀ s : State, exec .nop s = .next s)
    ∧ encode .nop = 0
    ∧ (∀ w : Word, w.extractLsb' 0 8 = 0 → w ≠ 0 → decode w = .error .reservedBits)

/-- R270 (the pseudocode, its check and its first two corner ranges). -/
def Obligations.SetRateResult : Prop :=
  ∀ (chm : BitVec 2) (s : State), chm ≠ 0 →
    encode (.tsSetRate chm) = wordC 0x10 chm
    ∧ (s.a0 ≠ 0 →
      let n := (s.a0.toNat + 44099) / 44100
      exec (.tsSetRate chm) s = .next { s with
        ts0 := if selectsLeft chm then { s.ts0 with rate := s.a0, scale := fdiv fOne (i2f n) } else s.ts0
        ts1 := if selectsRight chm then { s.ts1 with rate := s.a0, scale := fdiv fOne (i2f n) } else s.ts1 })
    ∧ (s.a0 = 0 → exec (.tsSetRate chm) s = .next (refused (wordC 0x10 chm) s))
    ∧ (∀ r : Nat, 1 ≤ r → r ≤ 44100 → rateScale r = 0x3F800000)
    ∧ (∀ r : Nat, 44101 ≤ r → r ≤ 88200 → rateScale r = 0x3F000000)

/-- R271. -/
def Obligations.SetModeResult : Prop :=
  ∀ (chm char : BitVec 2) (model : BitVec 3) (s : State), chm ≠ 0 →
    encode (.tsSetMode chm char model) = wordC 0x11 chm ||| (char.setWidth 32 <<< 10) ||| (model.setWidth 32 <<< 12)
    ∧ (char.toNat ≤ 2 → model.toNat ≤ 4 →
      let c := recordOfWords fun f => pramWord s.pram ((char.toNat * 5 + model.toNat) * 32 + f)
      let mode := BitVec.ofNat 32 (16 * model.toNat + char.toNat)
      exec (.tsSetMode chm char model) s = .next { s with
        ts0 := if selectsLeft chm then { s.ts0 with mode := mode, acb := c, autoGain := ag s.ts0.proc c } else s.ts0
        ts1 := if selectsRight chm then { s.ts1 with mode := mode, acb := c, autoGain := ag s.ts1.proc c } else s.ts1 })
    ∧ (char = 3 ∨ 4 < model.toNat →
      exec (.tsSetMode chm char model) s = .next (refused (encode (.tsSetMode chm char model)) s))

/-- R272. -/
def Obligations.SetProcResult : Prop :=
  ∀ (chm : BitVec 2) (s : State), chm ≠ 0 →
    encode (.tsSetProc chm) = wordC 0x12 chm
    ∧ ((fle 0 s.a0 && fle s.a0 fOne) = true →
      exec (.tsSetProc chm) s = .next { s with
        ts0 := if selectsLeft chm then { s.ts0 with proc := s.a0, autoGain := ag s.a0 s.ts0.acb } else s.ts0
        ts1 := if selectsRight chm then { s.ts1 with proc := s.a0, autoGain := ag s.a0 s.ts1.acb } else s.ts1 })
    ∧ ((fle 0 s.a0 && fle s.a0 fOne) = false → exec (.tsSetProc chm) s = .next (refused (wordC 0x12 chm) s))
    ∧ (fle 0 0x80000000 && fle 0x80000000 fOne) = true ∧ (fle 0 0x00000001 && fle 0x00000001 fOne) = true
    ∧ (fle 0 0x42480000 && fle 0x42480000 fOne) = false

/-- R273. -/
def Obligations.TsResetResult : Prop :=
  ∀ (chm : BitVec 2) (s : State), chm ≠ 0 →
    encode (.tsReset chm) = wordC 0x13 chm
    ∧ exec (.tsReset chm) s = .next { s with
        ts0 := if selectsLeft chm then { s.ts0 with s := 0, prev := 0, env := 0 } else s.ts0
        ts1 := if selectsRight chm then { s.ts1 with s := 0, prev := 0, env := 0 } else s.ts1 }
    ∧ (∀ t, exec (.tsReset chm) s = .next t → exec (.tsReset chm) t = .next t)

/-- R274 and R283; the datapath itself is TsStepFormula. -/
def Obligations.TsProcessResult : Prop :=
  ∀ (chm : BitVec 2) (trim : Bool) (s : State), chm ≠ 0 →
    let clean := fun v : F32 => if isFinite v then v else 0
    let x0 := if trim then fmul s.a0 s.cp.inGain else s.a0
    let x1 := if trim then fmul s.a1 s.cp.inGain else s.a1
    let d0 := tsDatapath s.ts0 x0
    let d1 := tsDatapath s.ts1 x1
    let bad0 := selectsLeft chm && !(isFinite d0.2.s && isFinite x0 && isFinite d0.2.env)
    let bad1 := selectsRight chm && !(isFinite d1.2.s && isFinite x1 && isFinite d1.2.env)
    encode (.tsProcess chm trim) = wordC 0x14 chm ||| (if trim then 0x400 else 0)
    ∧ exec (.tsProcess chm trim) s = .next { s with
        r0 := if selectsLeft chm then (if trim then fmul d0.1 s.cp.outGain else d0.1) else s.r0
        r1 := if selectsRight chm then (if trim then fmul d1.1 s.cp.outGain else d1.1) else s.r1
        ts0 := if selectsLeft chm then
            { s.ts0 with s := clean d0.2.s, prev := clean x0, env := clean d0.2.env } else s.ts0
        ts1 := if selectsRight chm then
            { s.ts1 with s := clean d1.2.s, prev := clean x1, env := clean d1.2.env } else s.ts1
        err := { s.err with
          status := s.err.status ||| (if bad0 then 8 else 0) ||| (if bad1 then 16 else 0)
          cause := if bad1 then 5 else if bad0 then 4 else s.err.cause } }

/-- R280: the pseudocode, line by line. -/
def Obligations.TsStepFormula : Prop :=
  ∀ (t : TsRegs) (x : F32),
    let C := t.acb
    let P := t.proc
    let k := t.scale
    let char := t.mode.extractLsb' 0 2
    let hE := fmul C.hpf k
    let lE := fmul C.lpf k
    let x1 := fadd (fmul hE x) (fmul C.fb (fsub x t.prev))
    let x2 := fadd (fmul x1 (fadd C.f1 (fmul C.kdrv P))) (fmul x1 (fadd fOne (fmul C.khrm P)))
    let e2 := if flt t.env (fabs x) then fabs x else fmul t.env C.envDecay
    let v := if C.flags.getLsbD 0 then x else x2
    let ds := fmul (fadd fOne (fmul C.ksat P)) (fadd fOne (fmul C.kenv e2))
    let w1 := sat char C (fmul v ds)
    let wv := if C.flags.getLsbD 2 then sat char C (fmul w1 C.ksp) else w1
    let s2 := fadd t.s (fmul (fsub wv t.s) lE)
    let y1 := fmul (fmul (fmul C.kpd P) (fsub s2 (fmul x C.otrim))) C.postGain
    let y := if C.flags.getLsbD 3 then sat char C y1 else y1
    tsDatapath t x = (fmul (fadd y x) t.autoGain, { t with prev := x, s := s2, env := e2 })

/-- R326. -/
def Obligations.SatEvalResult : Prop :=
  ∀ (chm : BitVec 2) (s : State), chm ≠ 0 →
    encode (.tsSatEval chm) = wordC 0x15 chm
    ∧ exec (.tsSatEval chm) s = .next { s with
        r0 := if selectsLeft chm then sat (s.ts0.mode.extractLsb' 0 2) s.ts0.acb s.a0 else s.r0
        r1 := if selectsRight chm then sat (s.ts1.mode.extractLsb' 0 2) s.ts1.acb s.a1 else s.r1 }
    ∧ (∀ t, exec (.tsSatEval chm) s = .next t → exec (.tsSatEval chm) t = .next t)

/-- 43_channel_pair.md; the exact gains are those R17 fixes. -/
def Obligations.TrimResults : Prop :=
  (∀ s : State,
    (isFinite s.a0 = true → exec .cpSetInTrim s =
      .next { s with cp := { s.cp with inDb := s.a0, inGain := fPow10 (fdiv s.a0 0x41A00000) } })
    ∧ (isFinite s.a0 = false → exec .cpSetInTrim s = .next (refused 0x18 s))
    ∧ (isFinite s.a0 = true → exec .cpSetOutTrim s =
      .next { s with cp := { s.cp with outDb := s.a0, outGain := fPow10 (fdiv s.a0 0x41A00000) } })
    ∧ (isFinite s.a0 = false → exec .cpSetOutTrim s = .next (refused 0x19 s)))
    ∧ encode .cpSetInTrim = 0x18 ∧ encode .cpSetOutTrim = 0x19
    ∧ fPow10 (fdiv 0x00000000 0x41A00000) = 0x3F800000 ∧ fPow10 (fdiv 0x80000000 0x41A00000) = 0x3F800000
    ∧ fPow10 (fdiv 0x41A00000 0x41A00000) = 0x41200000

/-- R431, R432. -/
def Obligations.MidSideResults : Prop :=
  ∀ s : State,
    exec .msEncode s = .next { s with
      r0 := fmul (fadd s.a0 s.a1) 0x3F3504F3, r1 := fmul (fsub s.a0 s.a1) 0x3F3504F3 }
    ∧ exec .msDecode s = .next { s with
      r0 := fmul (fadd s.a0 s.a1) 0x3F3504F3, r1 := fmul (fsub s.a0 s.a1) 0x3F3504F3 }
    ∧ encode .msEncode = 0x20 ∧ encode .msDecode = 0x21
    ∧ (∀ t, exec .msDecode s = .next t → t.err = s.err)

/-- R371. -/
def Obligations.PrepareResult : Prop :=
  ∀ (nch : BitVec 2) (s : State),
    encode (.bcPrepare nch) = wordC 0x30 nch
    ∧ (s.a0 ≠ 0 → s.a1 ≠ 0 → nch = 1 ∨ nch = 2 →
      exec (.bcPrepare nch) s = .next { s with bc := { s.bc with
        rate := s.a0, block := s.a1, nch := nch.setWidth 32
        alphaA := alpha s.bc.attack s.a0.toNat, alphaR := alpha s.bc.release s.a0.toNat
        alphaSc := scAlpha s.bc.scFreq s.a0.toNat, env := 0, scx := 0, scy := 0, lastGr := 0 } })
    ∧ (s.a0 = 0 ∨ s.a1 = 0 ∨ nch = 0 ∨ nch = 3 → exec (.bcPrepare nch) s = .next (refused (wordC 0x30 nch) s))
    ∧ (∀ t, s.a0 ≠ 0 → s.a1 ≠ 0 → nch = 1 ∨ nch = 2 → exec (.bcPrepare nch) s = .next t →
      exec (.bcPrepare nch) t = .next t)

/-- R372, R373, R378, R380 to R383, R385, R386. -/
def Obligations.PlainSetterResults : Prop :=
  ∀ s : State,
    (isFinite s.a0 = true → exec .bcSetThresh s = .next { s with bc := { s.bc with thresh := s.a0 } })
    ∧ (isFinite s.a0 = false → exec .bcSetThresh s = .next (refused 0x31 s)) ∧ encode .bcSetThresh = 0x31
    ∧
    (fle fOne s.a0 = true → exec .bcSetRatio s = .next { s with bc := { s.bc with ratio := s.a0 } })
    ∧ (fle fOne s.a0 = false → exec .bcSetRatio s = .next (refused 0x32 s)) ∧ encode .bcSetRatio = 0x32
    ∧
    (isFinite s.a0 = true → exec .bcSetMakeup s = .next { s with bc := { s.bc with makeup := s.a0 } })
    ∧ (isFinite s.a0 = false → exec .bcSetMakeup s = .next (refused 0x35 s)) ∧ encode .bcSetMakeup = 0x35
    ∧
    ((fle 0 s.a0 && fle s.a0 fOne) = true → exec .bcSetDrive s = .next { s with bc := { s.bc with drive := s.a0 } })
    ∧ ((fle 0 s.a0 && fle s.a0 fOne) = false → exec .bcSetDrive s = .next (refused 0x37 s)) ∧ encode .bcSetDrive = 0x37
    ∧
    ((fle 0 s.a0 && fle s.a0 fOne) = true → exec .bcSetLink s = .next { s with bc := { s.bc with link := s.a0 } })
    ∧ ((fle 0 s.a0 && fle s.a0 fOne) = false → exec .bcSetLink s = .next (refused 0x38 s)) ∧ encode .bcSetLink = 0x38
    ∧
    ((fle 0 s.a0 && flt s.a0 fOne) = true → exec .bcSetSatKnee s = .next { s with bc := { s.bc with knee := s.a0 } })
    ∧ ((fle 0 s.a0 && flt s.a0 fOne) = false → exec .bcSetSatKnee s = .next (refused 0x39 s)) ∧ encode .bcSetSatKnee = 0x39
    ∧
    (isFinite s.a0 = true → exec .bcSetBoost s = .next { s with bc := { s.bc with boost := s.a0 } })
    ∧ (isFinite s.a0 = false → exec .bcSetBoost s = .next (refused 0x3A s)) ∧ encode .bcSetBoost = 0x3A
    ∧
    ((isFinite s.a0 && fle 0 s.a0) = true → exec .bcSetDcAmp s = .next { s with bc := { s.bc with dcAmp := s.a0 } })
    ∧ ((isFinite s.a0 && fle 0 s.a0) = false → exec .bcSetDcAmp s = .next (refused 0x3C s)) ∧ encode .bcSetDcAmp = 0x3C
    ∧
    ((s.a0 != 0) = true → exec .bcSetDcSeed s = .next { s with bc := { s.bc with lfsr := s.a0 } })
    ∧ ((s.a0 != 0) = false → exec .bcSetDcSeed s = .next (refused 0x3D s)) ∧ encode .bcSetDcSeed = 0x3D

/-- 44_bus_compressor.md section 2 (R374, R375, R384 with the formulas of R376 and R377); the last clause is R376's
corner case ms = 0, for the time +0. For the accepted time -0.0 the formula gives EXP(+inf), an open value: the model
follows the formula (log 17). -/
def Obligations.DerivedSetterResults : Prop :=
  (∀ s : State,
    ((isFinite s.a0 && fle 0 s.a0) = true → exec .bcSetAttack s = .next { s with bc := { s.bc with
        attack := s.a0, alphaA := fExp (fneg (fdiv fOne (fdiv (fmul s.a0 (i2f s.bc.rate.toNat)) 0x447A0000))) } })
    ∧ ((isFinite s.a0 && fle 0 s.a0) = false → exec .bcSetAttack s = .next (refused 0x33 s))
    ∧ ((isFinite s.a0 && fle 0 s.a0) = true → exec .bcSetRelease s = .next { s with bc := { s.bc with
        release := s.a0, alphaR := fExp (fneg (fdiv fOne (fdiv (fmul s.a0 (i2f s.bc.rate.toNat)) 0x447A0000))) } })
    ∧ ((isFinite s.a0 && fle 0 s.a0) = false → exec .bcSetRelease s = .next (refused 0x34 s))
    ∧ ((isFinite s.a0 && flt 0 s.a0) = true → exec .bcSetScFreq s = .next { s with bc := { s.bc with
        scFreq := s.a0
        alphaSc := fdiv fOne (fadd fOne (fdiv (fmul 0x40C90FDB s.a0) (i2f s.bc.rate.toNat))) } })
    ∧ ((isFinite s.a0 && flt 0 s.a0) = false → exec .bcSetScFreq s = .next (refused 0x3B s)))
    ∧ encode .bcSetAttack = 0x33 ∧ encode .bcSetRelease = 0x34 ∧ encode .bcSetScFreq = 0x3B
    ∧ (∀ r : Word, alpha 0 r.toNat = 0)

/-- R379. -/
def Obligations.SetFlagsResult : Prop :=
  ∀ (hpf ms : Bool) (s : State),
    encode (.bcSetFlags hpf ms) = 0x36 ||| (if hpf then 0x400 else 0) ||| (if ms then 0x800 else 0)
    ∧ exec (.bcSetFlags hpf ms) s = .next { s with bc := { s.bc with
        flags := (if hpf then 1 else 0) ||| (if ms then 2 else 0) } }

/-- R387, R399. -/
def Obligations.DetectorClearAndLatch : Prop :=
  ∀ s : State,
    exec .bcReset s = .next { s with bc := { s.bc with env := 0, scx := 0, scy := 0, lastGr := 0 } }
    ∧ exec .bcBlockEnd s = .next { s with bc := { s.bc with lastGr := s.bc.env } }
    ∧ encode .bcReset = 0x3E ∧ encode .bcBlockEnd = 0x42
    ∧ (∀ i ∈ [Instr.bcReset, .bcBlockEnd], ∀ t, exec i s = .next t → exec i t = .next t)

/-- 44_bus_compressor.md section 3 (R388, R397). -/
def Obligations.BlockBeginResult : Prop :=
  ∀ s : State,
    let a := s.bc.lfsr ^^^ (s.bc.lfsr <<< 13)
    let b := a ^^^ (a >>> 17)
    let x := b ^^^ (b <<< 5)
    exec .bcBlockBegin s = .next { s with bc := { s.bc with
      lfsr := x, dcOff := fmul s.bc.dcAmp (fmul (s2f x) 0x30000000) } }
    ∧ encode .bcBlockBegin = 0x40

/-- R389 to R394, R396 and R398 written out; the bus saturation itself is BusSaturationFormula. -/
def Obligations.FrameResult : Prop :=
  ∀ s : State,
    let b := s.bc
    let ms := b.flags.getLsbD 1
    let clean := fun v : F32 => if isFinite v then v else 0
    let p0 := if ms then fmul (fadd s.a0 s.a1) 0x3F3504F3 else s.a0
    let p1 := if ms then fmul (fsub s.a0 s.a1) 0x3F3504F3 else s.a1
    let pk := if flt (fabs p0) (fabs p1) then p1 else p0
    let d := if b.nch = 1 then p0
      else fadd (fmul b.link (fmul (fadd p0 p1) 0x3F000000)) (fmul (fsub fOne b.link) pk)
    let h := fmul b.alphaSc (fsub (fadd b.scy d) b.scx)
    let m := fabs (if b.flags.getLsbD 0 then h else d)
    let lvl := fmul 0x41A00000 (fLog10 m)
    let target := if !flt 0 m then 0 else if fle lvl b.thresh then 0
      else fmul (fsub b.thresh lvl) (fsub fOne (fdiv fOne b.ratio))
    let env := fadd target (fmul (if flt target b.env then b.alphaA else b.alphaR) (fsub b.env target))
    let g := fPow10 (fdiv (fadd env b.makeup) 0x41A00000)
    let v0 := busSat b (fmul p0 g)
    let v1 := busSat b (fmul p1 g)
    let q0 := if b.nch = 2 ∧ ms = true then fmul (fadd v0 v1) 0x3F3504F3 else v0
    let q1 := if b.nch = 2 ∧ ms = true then fmul (fsub v0 v1) 0x3F3504F3 else v1
    encode .bcFrame = 0x41
    ∧ (ms = true → b.nch = 1 → exec .bcFrame s = .next (refused 0x41 s))
    ∧ (¬ (ms = true ∧ b.nch = 1) → exec .bcFrame s = .next { s with
        r0 := fadd q0 b.dcOff
        r1 := if b.nch = 2 then fadd q1 b.dcOff else s.r1
        bc := { b with env := clean env, scx := clean d, scy := clean h }
        err := if isFinite env && isFinite d && isFinite h then s.err
          else { s.err with status := s.err.status ||| 32, cause := 6 } })

/-- R395: the formula, 'The stage is odd-symmetric' and its first two corner cases. -/
def Obligations.BusSaturationFormula : Prop :=
  ∀ (b : BcRegs) (v : F32),
    let KN := b.knee
    let a := fabs v
    let dd := fsub a KN
    let w0 := fadd KN (fdiv dd (fadd fOne (fdiv dd (fsub fOne KN))))
    busSat b v = fmul (if fle a KN then v else copysign w0 v) (fadd fOne (fmul b.drive b.boost))
    ∧ (isNaN v = true → busSat b v = 0x7FC00000)
    ∧ (inHalfOpenUnit b.knee = true → busSat b 0x7F800000 = 0x7FC00000)
    ∧ (isNaN (busSat b v) = false → busSat b (fneg v) = fneg (busSat b v))

/-- R281's consequence, with the finiteness it says in words as premises; a zero x is left out because -0 + +0 is +0.
At P = 0 with PS = 1 the curve is applied to a zero and adds what the preset makes of it, so PS = 0 is a premise. -/
def Obligations.ZeroProcessingPassesDry : Prop :=
  ∀ (t : TsRegs) (x : F32), mag t.proc = 0 → flagPS t.acb.flags = false → isFinite x = true → mag x ≠ 0 →
    isFinite t.acb.kpd = true → isFinite t.acb.postGain = true →
    isFinite (fsub (tsDatapath t x).2.s (fmul x t.acb.otrim)) = true →
    (tsDatapath t x).1 = fmul x t.autoGain

/-- 41_toneshaper.md section 3 (R282, R283) and 60_exceptions.md section 2 (R455). -/
def Obligations.NonFiniteInputIsRepaired : Prop :=
  ∀ s : State, isFinite s.a0 = false →
    (∃ t, exec (.tsProcess 1 false) s = .next t ∧ tsStateFinite t.ts0 = true ∧ t.ts0.prev = 0
      ∧ t.err.status = s.err.status ||| 8 ∧ t.err.cause = 4)
    ∧ (isNaN s.a0 = true → isFinite (fmul s.ts0.env s.ts0.acb.envDecay) = true →
        ∃ t, exec (.tsProcess 1 false) s = .next t ∧ t.ts0.env = fmul s.ts0.env s.ts0.acb.envDecay)
    ∧ (isFinite s.a1 = false →
        ∃ t, exec (.tsProcess 3 false) s = .next t ∧ tsStateFinite t.ts0 = true ∧ tsStateFinite t.ts1 = true
          ∧ t.err.status = s.err.status ||| 24 ∧ t.err.cause = 5)

/-- 43_channel_pair.md (R352): the reset gains are exactly 1.0, so T makes no difference. -/
def Obligations.UnityTrimsAreTransparent : Prop :=
  ∀ (chm : BitVec 2) (s : State), s.cp.inGain = 0x3F800000 → s.cp.outGain = 0x3F800000 →
    exec (.tsProcess chm true) s = exec (.tsProcess chm false) s

/-- 42_saturation.md section 1: R321 to R325 written out. -/
def Obligations.WaveshaperFamilies : Prop :=
  ∀ (char : BitVec 2) (C : Record) (u : F32), char ≠ 3 →
    let odd := fun y : F32 => fsub (fadd y (fmul C.h3 (fmul (fmul y y) y)))
      (fmul C.h5 (fmul (fmul (fmul y y) y) (fmul y y)))
    let r := fdiv u (fadd fOne (fabs (fmul u C.bdrv)))
    let y0 := if flt u 0 then fmul C.nb r else r
    let c := if flt fOne u then fOne else if flt u 0xBF800000 then 0xBF800000 else u
    sat char C u =
      if C.flags.getLsbD 1 then fsub c (fmul C.ht (fmul (fmul c c) c))
      else if char = 0 then odd (fTanh u)
      else if char = 1 then fadd (fadd y0 (fmul C.h2 (fmul y0 y0))) (fmul C.h3 (fmul (fmul y0 y0) y0))
      else odd (fmul C.cc (fAtan u))

/-- 42_saturation.md section 1 (R324's corner cases), for every HT. -/
def Obligations.TransparentFamilyClips : Prop :=
  ∀ (C : Record) (u : F32),
    (fle fOne u = true → satT C u = fsub fOne C.ht)
    ∧ (fle u 0xBF800000 = true → isNaN (fsub fOne C.ht) = false → mag (fsub fOne C.ht) ≠ 0 →
        satT C u = fneg (fsub fOne C.ht))
    ∧ (isNaN u = true → satT C u = 0x7FC00000)

/-- 45_midside.md (R430's corner cases). -/
def Obligations.MidSideCorners : Prop :=
  (∀ x : F32, isFinite x = true → (msRot x x).2 = 0)
    ∧ msRot 0x7F800000 0x7F800000 = (0x7F800000, 0x7FC00000)
    ∧ msRot 0x7F800000 0x3F800000 = (0x7F800000, 0x7F800000)
    ∧ (∀ a b : F32, isNaN a = true ∨ isNaN b = true → msRot a b = (0x7FC00000, 0x7FC00000))

/-- 44_bus_compressor.md section 3 (R393's corner cases a = 0 and target = e); with both +0 the second is the meter
property that no reduction stays no reduction. -/
def Obligations.EnvelopeReachesAndKeepsTarget : Prop :=
  ∀ b : BcRegs,
    (∀ target : F32, (if flt target b.env then b.alphaA else b.alphaR) = 0 →
      isFinite b.env = true → isFinite target = true → isFinite (fsub b.env target) = true → target ≠ 0x80000000 →
      ballistic b target = target)
    ∧ (isFinite b.env = true → b.env ≠ 0x80000000 → isFinite b.alphaR = true → ballistic b b.env = b.env)

/-- R14, with the numbers read from the fields of R10 (`binary32Value`). -/
def Obligations.ComparisonsAreQuiet : Prop :=
  ∀ x y : F32,
    (isNaN x = true ↔ x.extractLsb' 23 8 = 255 ∧ x.extractLsb' 0 23 ≠ 0)
    ∧ (isFinite x = true ↔ x.extractLsb' 23 8 ≠ 255)
    ∧ (isNaN x = true ∨ isNaN y = true → flt x y = false ∧ fle x y = false ∧ feq x y = false)
    ∧ (isNaN x = false → isNaN y = false →
        (flt x y = true ↔ binary32Value x < binary32Value y)
        ∧ (fle x y = true ↔ binary32Value x ≤ binary32Value y)
        ∧ (feq x y = true ↔ binary32Value x = binary32Value y))
    ∧ feq 0x00000000 0x80000000 = true

/-- 44_bus_compressor.md section 3 (the corner cases of R393 to R396 put together); the gain is exactly 1.0 for every
admissible POW10. -/
def Obligations.QuietFramePassesThrough : Prop :=
  ∀ s : State, s.bc.nch = 2 → msEnabled s.bc.flags = false → s.bc.env = 0 → s.bc.makeup = 0 →
    isFinite s.bc.alphaR = true → s.bc.dcOff = 0 → fadd fOne (fmul s.bc.drive s.bc.boost) = fOne →
    (let d := detect s.bc.link s.a0 s.a1 2
     targetGr s.bc.thresh s.bc.ratio (if hpfEnabled s.bc.flags then sidechainOut s.bc d else d) = 0) →
    isFinite s.a0 = true → mag s.a0 ≠ 0 → fle (fabs s.a0) s.bc.knee = true →
    isFinite s.a1 = true → mag s.a1 ≠ 0 → fle (fabs s.a1) s.bc.knee = true →
    ∃ t, exec .bcFrame s = .next t ∧ t.r0 = s.a0 ∧ t.r1 = s.a1 ∧ t.bc.env = 0

/-- 44_bus_compressor.md section 2 (R373's corner case): a ratio of 1 means no reduction at any level. -/
def Obligations.UnityRatioNeverReduces : Prop :=
  ∀ (thresh dsel : F32), isFinite (fsub thresh (fmul 0x41A00000 (fLog10 (fabs dsel)))) = true →
    mag (targetGr thresh 0x3F800000 dsel) = 0

/-- 44_bus_compressor.md section 3 (R397). -/
def Obligations.GeneratorIsBijective : Prop :=
  (∀ x y : Word, xorshift32 x = xorshift32 y → x = y)
    ∧ (∀ y : Word, ∃ x : Word, xorshift32 x = y)
    ∧ xorshift32 0 = 0
    ∧ (∀ x : Word, x ≠ 0 → xorshift32 x ≠ 0)

/-- 44_bus_compressor.md section 3 (R388). -/
def Obligations.OffsetStaysWithinAmplitude : Prop :=
  ∀ (amp : F32) (x : Word), finiteNonNegative amp = true →
    fle (fabs (dcOffset amp x)) amp = true ∧ (mag amp = 0 → mag (dcOffset amp x) = 0)

/-- 00_scope.md section 5.3 (the table of R17). That the units are any non-decreasing curves held to these values is
log 3; that POW10 may be +0 where it underflows, which the table and 93_implementation_defined.md I22 disagree on, is
log 4; 10^-k rounded to nearest as 1.0 /f 10^k is log 15. -/
def Obligations.FunctionUnitsAreAdmissible : Prop :=
  (∀ x y : F32, fle x y = true →
    fle (fTanh x) (fTanh y) = true ∧ fle (fAtan x) (fAtan y) = true ∧ fle (fExp x) (fExp y) = true
    ∧ fle (fPow10 x) (fPow10 y) = true ∧ (flt 0 x = true → fle (fLog10 x) (fLog10 y) = true))
    ∧ (∀ x : F32, isNaN x = true →
      fTanh x = 0x7FC00000 ∧ fAtan x = 0x7FC00000 ∧ fExp x = 0x7FC00000 ∧ fPow10 x = 0x7FC00000)
    ∧ (∀ x : F32, isNaN x = false →
      fTanh (fneg x) = fneg (fTanh x) ∧ fAtan (fneg x) = fneg (fAtan x)
      ∧ fle (fabs (fTanh x)) 0x3F800000 = true ∧ fle (fabs (fAtan x)) 0x3FC90FDB = true
      ∧ (fle x 0 = true → fle (fExp x) 0x3F800000 = true))
    ∧ fTanh 0 = 0 ∧ fTanh 0x80000000 = 0x80000000 ∧ fTanh 0x7F800000 = 0x3F800000
    ∧ fAtan 0 = 0 ∧ fAtan 0x80000000 = 0x80000000
    ∧ fExp 0xFF800000 = 0 ∧ fExp 0 = 0x3F800000 ∧ fExp 0x80000000 = 0x3F800000
    ∧ (∀ k ≤ 10, fLog10 (i2f (10 ^ k)) = i2f k ∧ fPow10 (i2f k) = i2f (10 ^ k))
    ∧ (∀ k, 1 ≤ k → k ≤ 10 → fPow10 (fneg (i2f k)) = fdiv fOne (i2f (10 ^ k)))
    ∧ fLog10 0x7F800000 = 0x7F800000 ∧ fPow10 0xFF800000 = 0 ∧ fPow10 0x7F800000 = 0x7F800000
    ∧ (∀ x : F32, isFinite x = true → flt 0 (fPow10 x) = true ∨ (fPow10 x = 0 ∧ fle x 0xC2349E36 = true))

/-- 00_scope.md section 5.3 (R11, R12, R13, R16): what one rounding to nearest means is `nearestEven`, over the exact
rational `binary32Value`; subnormals are kept. -/
def Obligations.RoundingIsExactAndSymmetric : Prop :=
  (∀ a b : F32, isFinite a = true → isFinite b = true →
    let va := binary32Value a
    let vb := binary32Value b
    nearestEven (va + vb) (fadd a b) ∧ nearestEven (va - vb) (fsub a b) ∧ nearestEven (va * vb) (fmul a b)
    ∧ (vb ≠ 0 → nearestEven (va / vb) (fdiv a b) ∧ signOf (fdiv a b) = (signOf a != signOf b))
    ∧ (vb = 0 → fdiv a b = if va = 0 then 0x7FC00000 else withSign (signOf a != signOf b) 0x7F800000)
    ∧ signOf (fmul a b) = (signOf a != signOf b)
    ∧ (va + vb = 0 → signOf (fadd a b) = (signOf a && signOf b))
    ∧ (va - vb = 0 → signOf (fsub a b) = (signOf a && !signOf b)))
    ∧ (∀ n : Nat, n < 2 ^ 32 → nearestEven n (i2f n) ∧ signOf (i2f n) = false)
    ∧ (∀ w : Word, nearestEven (w.toInt : ℚ) (s2f w) ∧ signOf (s2f w) = w.msb)
    ∧ (∀ a b : F32, isNaN a = true ∨ isNaN b = true →
      fadd a b = 0x7FC00000 ∧ fsub a b = 0x7FC00000 ∧ fmul a b = 0x7FC00000 ∧ fdiv a b = 0x7FC00000)
    ∧ (∀ a b : F32, isInf a = true → isFinite b = true →
      fadd a b = a ∧ fsub a b = a ∧ fsub b a = fneg a
      ∧ fmul a b = (if mag b = 0 then 0x7FC00000 else withSign (signOf a != signOf b) 0x7F800000)
      ∧ fdiv a b = withSign (signOf a != signOf b) 0x7F800000 ∧ fdiv b a = withSign (signOf a != signOf b) 0)
    ∧ (∀ a b : F32, isInf a = true → isInf b = true →
      fadd a b = (if signOf a = signOf b then a else 0x7FC00000)
      ∧ fsub a b = (if signOf a = signOf b then 0x7FC00000 else a)
      ∧ fmul a b = withSign (signOf a != signOf b) 0x7F800000 ∧ fdiv a b = 0x7FC00000)
    ∧ (∀ a b : F32,
      fadd a b = fadd b a
      ∧ fmul a b = fmul b a
      ∧ (isNaN (fadd a b) = false → mag (fadd a b) ≠ 0 → fadd (fneg a) (fneg b) = fneg (fadd a b))
      ∧ fmul a fOne = (if isNaN a then 0x7FC00000 else a)
      ∧ (isFinite a = true → mag a ≠ 0 → fadd a 0 = a ∧ fsub a a = 0))

/-- 30_encoding.md section 5 (R210), with a line of text for each (R208, R209). That the address is modulo 2^16
outside the table, that setp takes every command and not a one-operand setter only, and the spelling the lines allow
beyond the rules, are the model's choice (log 16). -/
def Obligations.PseudoInstructionExpansions : Prop :=
  (∀ (v v' : Word) (chm : BitVec 2) (i : Instr),
    set0 v = [.write 0x0020 4 v] ∧ set1 v = [.write 0x0024 4 v]
    ∧ setp i v = [.write 0x0020 4 v, .write 0x0018 4 (encode i)]
    ∧ sample chm v v' = [.write 0x0020 4 v, .write 0x0024 4 v', .write 0x0018 4 (wordC 0x14 chm), .read 0x0028 4,
        .read 0x002C 4]
    ∧ frameOf v v' = [.write 0x0020 4 v, .write 0x0024 4 v', .write 0x0018 4 0x41, .read 0x0028 4, .read 0x002C 4]
    ∧ getGr = [.read 0x035C 4])
    ∧ (∀ (ch m f : Nat) (v : Word),
        loadPreset ch m f v = [.write (BitVec.ofNat 16 (0x1000 + 4 * ((ch * 5 + m) * 32 + f))) 4 v])
    ∧ hostLine "set0 0x12345678" = some [.write 0x0020 4 0x12345678]
    ∧ hostLine "set1 f:-0.5" = some [.write 0x0024 4 0xBF000000]
    ∧ hostLine "setp bc.ratio, f:4.0" = some [.write 0x0020 4 0x40800000, .write 0x0018 4 0x32]
    ∧ hostLine "sample lr, f:1.0, f:-1.0" = some (sample 3 0x3F800000 0xBF800000)
    ∧ hostLine "frame f:0.5, f:0.25" = some (frameOf 0x3F000000 0x3E800000)
    ∧ hostLine "loadpreset gold, 0, 7, 0x3F000000" = some [.write 0x129C 4 0x3F000000]
    ∧ hostLine "getgr" = some getGr

end ObligationStatements
end

