-- ==== Sys2Proof/Laws/Binary32.lean ====
section
/-! SUPPORT. Lemmas of binary32: patterns and their parts, NaN operands, exact rounding, the neutral operands 1.0 and zero, and
negation. -/

namespace Sys2Proof.Machine

theorem mag_lt (x : F32) : mag x < 2 ^ 31 := Nat.mod_lt _ (by decide)

theorem mag_eq_iff_zero (x : F32) : mag x = 0 ↔ x = 0x00000000 ∨ x = 0x80000000 := by
  unfold mag
  constructor
  · intro h
    have hx := x.isLt
    rcases Nat.lt_or_ge x.toNat (2 ^ 31) with h1 | h1
    · left; apply BitVec.eq_of_toNat_eq; simp; omega
    · right; apply BitVec.eq_of_toNat_eq; simp; omega
  · rintro (rfl | rfl) <;> decide

theorem signOf_eq (x : F32) : signOf x = decide (2 ^ 31 ≤ x.toNat) := by
  simp [signOf, BitVec.msb_eq_decide]

/-- A pattern is its sign and its magnitude bits. -/
theorem withSign_signOf_mag (x : F32) : withSign (signOf x) (mag x) = x := by
  have hx := x.isLt
  apply BitVec.eq_of_toNat_eq
  simp only [withSign, signOf_eq, mag, BitVec.toNat_ofNat, decide_eq_true_eq]
  split <;> omega

@[simp] theorem mag_withSign (neg : Bool) (m : Nat) (h : m < 2 ^ 31) : mag (withSign neg m) = m := by
  simp only [mag, withSign, BitVec.toNat_ofNat]
  split <;> omega

@[simp] theorem signOf_withSign (neg : Bool) (m : Nat) (h : m < 2 ^ 31) : signOf (withSign neg m) = neg := by
  simp only [signOf_eq, withSign, BitVec.toNat_ofNat]
  cases neg
  · simp; omega
  · simp; omega

/-- Two patterns with the same sign and magnitude are equal. -/
theorem eq_of_sign_mag {x y : F32} (hs : signOf x = signOf y) (hm : mag x = mag y) : x = y := by
  rw [← withSign_signOf_mag x, ← withSign_signOf_mag y, hs, hm]

theorem isFinite_iff (x : F32) : isFinite x = true ↔ mag x < 0x7F800000 := by simp [isFinite]

theorem isNaN_iff (x : F32) : isNaN x = true ↔ 0x7F800000 < mag x := by simp [isNaN]

theorem isInf_iff (x : F32) : isInf x = true ↔ mag x = 0x7F800000 := by simp [isInf]

theorem isFinite_eq (x : F32) : isFinite x = (!isNaN x && !isInf x) := by
  rw [Bool.eq_iff_iff]
  simp only [isFinite, isNaN, isInf, Bool.and_eq_true, Bool.not_eq_true', decide_eq_true_eq,
    decide_eq_false_iff_not, beq_eq_false_iff_ne, ne_eq]
  omega

theorem isNaN_of_isFinite {x : F32} (h : isFinite x = true) : isNaN x = false := by
  rw [isFinite_eq] at h; simp_all

theorem isInf_of_isFinite {x : F32} (h : isFinite x = true) : isInf x = false := by
  rw [isFinite_eq] at h; simp_all

@[simp] theorem fneg_fneg (x : F32) : fneg (fneg x) = x := by
  simp [fneg]

@[simp] theorem mag_fneg (x : F32) : mag (fneg x) = mag x := by
  unfold mag fneg
  rw [BitVec.toNat_xor, Nat.xor_mod_two_pow]
  simp

@[simp] theorem signOf_fneg (x : F32) : signOf (fneg x) = !signOf x := by
  unfold signOf fneg
  rw [BitVec.msb_xor]
  simp [BitVec.msb_eq_decide]

@[simp] theorem isNaN_fneg (x : F32) : isNaN (fneg x) = isNaN x := by simp [isNaN]
@[simp] theorem isInf_fneg (x : F32) : isInf (fneg x) = isInf x := by simp [isInf]
@[simp] theorem isFinite_fneg (x : F32) : isFinite (fneg x) = isFinite x := by simp [isFinite]
@[simp] theorem units_fneg (x : F32) : units (fneg x) = units x := by simp [units]

theorem fneg_withSign (neg : Bool) (m : Nat) (h : m < 2 ^ 31) :
    fneg (withSign neg m) = withSign (!neg) m := by
  apply eq_of_sign_mag
  · rw [signOf_fneg, signOf_withSign _ _ h, signOf_withSign _ _ h]
  · rw [mag_fneg, mag_withSign _ _ h, mag_withSign _ _ h]

/-- A quotient with no remainder is not rounded. -/
theorem roundNearestEven_exact (n d : Nat) (hd : 0 < d) : roundNearestEven (n * d) d = n := by
  simp [roundNearestEven, Nat.mul_div_cancel _ hd, Nat.mul_mod_left]
  omega

/-- Rounding sees only the quotient: a common factor changes nothing. -/
theorem roundNearestEven_scale (n d c : Nat) (hc : 0 < c) :
    roundNearestEven (n * c) (d * c) = roundNearestEven n d := by
  unfold roundNearestEven
  have h1 : n * c / (d * c) = n / d := Nat.mul_div_mul_right n d hc
  have h2 : n * c % (d * c) = n % d * c := Nat.mul_mod_mul_right c n d
  have h3 : (2 * (n % d * c) > d * c) ↔ (2 * (n % d) > d) := by
    rw [← Nat.mul_assoc]; exact Nat.mul_lt_mul_right hc
  have h4 : (2 * (n % d * c) = d * c) ↔ (2 * (n % d) = d) := by
    rw [← Nat.mul_assoc]; exact Nat.mul_left_inj (by omega)
  simp only [h1, h2, h3, h4]

/-- R11: the rounded result depends on the value alone, not on how its fraction is written. -/
theorem roundUnits_scale (neg : Bool) (n d c : Nat) (hc : 0 < c) :
    roundUnits neg (n * c) (d * c) = roundUnits neg n d := by
  unfold roundUnits
  have h1 : n * c / (d * c) = n / d := Nat.mul_div_mul_right n d hc
  rw [h1]
  simp only
  rw [show d * c * 2 ^ quantumShift (n / d) = d * 2 ^ quantumShift (n / d) * c by ring,
    roundNearestEven_scale _ _ _ hc]

/-- A rounded result is the pattern of a magnitude with the sign asked for. -/
theorem roundUnits_eq_withSign (n d : Nat) :
    ∃ m, m ≤ 0x7F800000 ∧ ∀ b, roundUnits b n d = withSign b m := by
  exact ⟨_, Nat.min_le_right _ _, fun _ => rfl⟩

/-- Rounding never gives a NaN (R11). -/
@[simp] theorem isNaN_roundUnits (neg : Bool) (n d : Nat) : isNaN (roundUnits neg n d) = false := by
  obtain ⟨m, hm, h⟩ := roundUnits_eq_withSign n d
  rw [h, isNaN, mag_withSign _ _ (by omega)]; simpa using hm

/-- Rounding treats both signs alike. -/
theorem fneg_roundUnits (neg : Bool) (n d : Nat) : fneg (roundUnits neg n d) = roundUnits (!neg) n d := by
  obtain ⟨m, hm, h⟩ := roundUnits_eq_withSign n d
  rw [h, h, fneg_withSign _ _ (by omega)]

/-- R11: a value that binary32 represents is not changed by rounding. -/
theorem roundUnits_units (x : F32) (h : isFinite x = true) (neg : Bool) :
    roundUnits neg (units x) 1 = withSign neg (mag x) := by
  rw [isFinite_iff] at h
  unfold roundUnits units
  simp only [Nat.div_one, Nat.one_mul]
  have hf : mag x % 2 ^ 23 < 2 ^ 23 := Nat.mod_lt _ (by decide)
  have hm : mag x = mag x / 2 ^ 23 * 2 ^ 23 + mag x % 2 ^ 23 := by omega
  generalize hE : mag x / 2 ^ 23 = e at *
  generalize hF : mag x % 2 ^ 23 = f at *
  by_cases he : e = 0
  · subst he
    have hk : quantumShift f = 0 := by unfold quantumShift; rw [if_pos (by omega)]
    simp only [if_true, hk, Nat.pow_zero, Nat.zero_mul, Nat.add_zero]
    have := roundNearestEven_exact f 1 (by decide)
    rw [Nat.mul_one] at this
    rw [this, Nat.min_eq_left (by omega)]
    congr 1; omega
  · rw [if_neg he]
    have hk : quantumShift ((2 ^ 23 + f) * 2 ^ (e - 1)) = e - 1 := by
      unfold quantumShift
      by_cases h1 : e = 1
      · subst h1
        rw [if_pos (by simp; omega)]
      · have h2 : 2 ^ 24 ≤ (2 ^ 23 + f) * 2 ^ (e - 1) := by
          calc 2 ^ 24 = 2 ^ 23 * 2 ^ 1 := by norm_num
            _ ≤ (2 ^ 23 + f) * 2 ^ (e - 1) :=
              Nat.mul_le_mul (by omega) (Nat.pow_le_pow_right (by decide) (by omega))
        rw [if_neg (by omega)]
        have hl : Nat.log2 ((2 ^ 23 + f) * 2 ^ (e - 1)) = 23 + (e - 1) := by
          rw [Nat.log2_eq_iff (by positivity)]
          constructor
          · rw [Nat.pow_add]; exact Nat.mul_le_mul_right _ (by omega)
          · rw [show 23 + (e - 1) + 1 = 24 + (e - 1) by omega, Nat.pow_add]
            exact Nat.mul_lt_mul_of_pos_right (by omega) (by positivity)
        omega
    rw [hk, roundNearestEven_exact _ _ (by positivity)]
    rw [Nat.min_eq_left (by omega)]
    congr 1; omega

/-- R11, R12: a NaN operand gives the canonical NaN. -/
@[simp] theorem fadd_nan_left {a : F32} (b : F32) (h : isNaN a = true) : fadd a b = canonNaN := by
  simp [fadd, h]

@[simp] theorem fadd_nan_right (a : F32) {b : F32} (h : isNaN b = true) : fadd a b = canonNaN := by
  simp [fadd, h]

@[simp] theorem fsub_nan_left {a : F32} (b : F32) (h : isNaN a = true) : fsub a b = canonNaN := by
  simp [fsub, h]

@[simp] theorem fsub_nan_right (a : F32) {b : F32} (h : isNaN b = true) : fsub a b = canonNaN := by
  simp [fsub, h]

@[simp] theorem fmul_nan_left {a : F32} (b : F32) (h : isNaN a = true) : fmul a b = canonNaN := by
  simp [fmul, h]

@[simp] theorem fmul_nan_right (a : F32) {b : F32} (h : isNaN b = true) : fmul a b = canonNaN := by
  simp [fmul, h]

@[simp] theorem fdiv_nan_left {a : F32} (b : F32) (h : isNaN a = true) : fdiv a b = canonNaN := by
  simp [fdiv, h]

@[simp] theorem fdiv_nan_right (a : F32) {b : F32} (h : isNaN b = true) : fdiv a b = canonNaN := by
  simp [fdiv, h]

@[simp] theorem isNaN_canonNaN : isNaN canonNaN = true := by decide

@[simp] theorem isNaN_withSign (neg : Bool) (m : Nat) (h : m ≤ 0x7F800000) : isNaN (withSign neg m) = false := by
  rw [isNaN, mag_withSign _ _ (by omega)]; simpa using h

/-- 1.0 in units. -/
theorem units_fOne : units fOne = 2 ^ 149 := by decide +kernel

/-- `x *f 1.0` is x, a NaN in its canonical form. -/
theorem fmul_fOne (x : F32) : fmul x fOne = canonical x := by
  unfold canonical
  by_cases hn : isNaN x = true
  · simp [hn]
  · have h1 : isNaN fOne = false := by decide
    have h2 : isInf fOne = false := by decide
    have h3 : signOf fOne = false := by decide
    have h4 : (mag fOne == 0) = false := by decide
    simp only [Bool.not_eq_true] at hn
    unfold fmul
    simp only [hn, h1, h2, h3, h4, Bool.or_false, Bool.false_eq_true, if_false]
    by_cases hi : isInf x = true
    · have hm := (isInf_iff x).1 hi
      have h5 : (mag x == 0) = false := by rw [hm]; decide
      simp only [hi, if_true, h5, Bool.false_eq_true, if_false]
      rw [← hm]
      have : (signOf x != false) = signOf x := by cases signOf x <;> rfl
      rw [this, withSign_signOf_mag]
    · simp only [Bool.not_eq_true] at hi
      have hf : isFinite x = true := by rw [isFinite_eq]; simp [hn, hi]
      simp only [hi, Bool.false_eq_true, if_false, units_fOne]
      have := roundUnits_scale (signOf x != false) (units x) 1 (2 ^ 149) (by positivity)
      rw [Nat.one_mul] at this
      rw [this, roundUnits_units x hf]
      have : (signOf x != false) = signOf x := by cases signOf x <;> rfl
      rw [this, withSign_signOf_mag]

theorem mag_eq_zero_of_units {x : F32} (h : units x = 0) : mag x = 0 := by
  unfold units at h
  simp only at h
  split at h
  · omega
  · have : 0 < 2 ^ (mag x / 2 ^ 23 - 1) := by positivity
    have := Nat.mul_eq_zero.1 h
    omega

theorem units_eq_zero_of_mag {x : F32} (h : mag x = 0) : units x = 0 := by
  simp [units, h]

/-- Adding a zero to a finite value other than zero leaves it. -/
theorem fadd_zero_of_nonzero {x z : F32} (hx : isFinite x = true) (hx0 : mag x ≠ 0) (hz : mag z = 0) :
    fadd x z = x ∧ fadd z x = x := by
  have hzf : isFinite z = true := by rw [isFinite_iff, hz]; decide
  have hu : units z = 0 := units_eq_zero_of_mag hz
  have hp : 0 < units x := Nat.pos_of_ne_zero fun h => hx0 (mag_eq_zero_of_units h)
  have r : roundUnits (signOf x) (units x) 1 = x := by
    rw [roundUnits_units x hx, withSign_signOf_mag]
  unfold fadd
  simp only [isNaN_of_isFinite hx, isNaN_of_isFinite hzf, isInf_of_isFinite hx, isInf_of_isFinite hzf, hu,
    Bool.or_false, Bool.false_eq_true, if_false, Nat.add_zero, Nat.zero_add, Nat.sub_zero, hp, if_true,
    Nat.not_lt_zero]
  constructor
  · split <;> exact r
  · split
    · next h => simp only [beq_iff_eq] at h; rw [h]; exact r
    · exact r

/-- The sum of two zeros is a zero. -/
theorem mag_fadd_zeros {x z : F32} (hx : mag x = 0) (hz : mag z = 0) : mag (fadd x z) = 0 := by
  rw [mag_eq_iff_zero] at hx hz
  rcases hx with rfl | rfl <;> rcases hz with rfl | rfl <;> decide +kernel

/-- A zero times a finite value is a zero, of the product's sign. -/
theorem fmul_zero_of_finite {x z : F32} (hx : isFinite x = true) (hz : mag z = 0) :
    fmul x z = withSign (signOf x != signOf z) 0 ∧ fmul z x = withSign (signOf z != signOf x) 0 := by
  have hzf : isFinite z = true := by rw [isFinite_iff, hz]; decide
  have hr : ∀ b, roundUnits b 0 (2 ^ 149) = withSign b 0 := by intro b; cases b <;> decide +kernel
  unfold fmul
  simp only [isNaN_of_isFinite hx, isNaN_of_isFinite hzf, isInf_of_isFinite hx, isInf_of_isFinite hzf,
    units_eq_zero_of_mag hz, Bool.or_false, Bool.false_eq_true, if_false, Nat.mul_zero, Nat.zero_mul, hr, and_self]

/-- Negating an operand negates a product that is no NaN. -/
theorem fmul_fneg_left {a b : F32} (h : isNaN (fmul a b) = false) : fmul (fneg a) b = fneg (fmul a b) := by
  have hs : ((!signOf a) != signOf b) = !(signOf a != signOf b) := by
    cases signOf a <;> cases signOf b <;> rfl
  unfold fmul at h ⊢
  simp only [isNaN_fneg, isInf_fneg, mag_fneg, signOf_fneg, units_fneg, hs] at h ⊢
  split
  · next h1 => simp [h1] at h
  · next h1 =>
    split
    · next h2 =>
      split
      · next h3 => simp [h1, h2, h3] at h
      · rw [fneg_withSign _ _ (by decide)]
    · rw [fneg_roundUnits]

/-- A state value that passed the non-finite check is finite (R283, R398). -/
theorem isFinite_posZero : isFinite posZero = true := by decide

/-- A finite or infinite operand is its own canonical form. -/
theorem canonical_of_not_nan {x : F32} (h : isNaN x = false) : canonical x = x := by simp [canonical, h]

end Sys2Proof.Machine
end

