-- ==== Sys2Proof/Laws/Ops.lean ====
section
/-! SUPPORT. What each shared operation does to each part of the state: fault recording, the channels, the result registers, the
channel mask and the operand check. -/

namespace Sys2Proof.Machine

/-- R450: RECORD sets its STATUS bit. -/
@[simp] theorem record_status (e : Event) (s : State) : (record e s).err.status = statusAfter s.err.status e := by
  cases e <;> rfl

/-- R450: RECORD writes its cause code. -/
@[simp] theorem record_cause (e : Event) (s : State) : (record e s).err.cause = causeCode e := by cases e <;> rfl

@[simp] theorem record_a0 (e : Event) (s : State) : (record e s).a0 = s.a0 := by cases e <;> rfl
@[simp] theorem record_a1 (e : Event) (s : State) : (record e s).a1 = s.a1 := by cases e <;> rfl
@[simp] theorem record_r0 (e : Event) (s : State) : (record e s).r0 = s.r0 := by cases e <;> rfl
@[simp] theorem record_r1 (e : Event) (s : State) : (record e s).r1 = s.r1 := by cases e <;> rfl
@[simp] theorem record_cp (e : Event) (s : State) : (record e s).cp = s.cp := by cases e <;> rfl
@[simp] theorem record_ts0 (e : Event) (s : State) : (record e s).ts0 = s.ts0 := by cases e <;> rfl
@[simp] theorem record_ts1 (e : Event) (s : State) : (record e s).ts1 = s.ts1 := by cases e <;> rfl
@[simp] theorem record_bc (e : Event) (s : State) : (record e s).bc = s.bc := by cases e <;> rfl
@[simp] theorem record_pram (e : Event) (s : State) : (record e s).pram = s.pram := by cases e <;> rfl
@[simp] theorem record_pending (e : Event) (s : State) : (record e s).pending = s.pending := by cases e <;> rfl
@[simp] theorem record_resp (e : Event) (s : State) : (record e s).resp = s.resp := by cases e <;> rfl
@[simp] theorem channel_record (c : Chan) (e : Event) (s : State) : channel c (record e s) = channel c s := by
  cases c <;> simp [channel]

/-- R450: RECORD changes the fault registers and nothing else. -/
theorem record_eq_err (e : Event) (s : State) : record e s = { s with err := (record e s).err } := by
  cases e <;> rfl

@[simp] theorem channel_setChannel_same (c : Chan) (t : TsRegs) (s : State) :
    channel c (setChannel c t s) = t := by cases c <;> rfl

theorem channel_setChannel_other {c d : Chan} (h : d ≠ c) (t : TsRegs) (s : State) :
    channel d (setChannel c t s) = channel d s := by cases c <;> cases d <;> first | rfl | exact absurd rfl h

@[simp] theorem setChannel_err (c : Chan) (t : TsRegs) (s : State) : (setChannel c t s).err = s.err := by
  cases c <;> rfl
@[simp] theorem setChannel_a0 (c : Chan) (t : TsRegs) (s : State) : (setChannel c t s).a0 = s.a0 := by cases c <;> rfl
@[simp] theorem setChannel_a1 (c : Chan) (t : TsRegs) (s : State) : (setChannel c t s).a1 = s.a1 := by cases c <;> rfl
@[simp] theorem setChannel_r0 (c : Chan) (t : TsRegs) (s : State) : (setChannel c t s).r0 = s.r0 := by cases c <;> rfl
@[simp] theorem setChannel_r1 (c : Chan) (t : TsRegs) (s : State) : (setChannel c t s).r1 = s.r1 := by cases c <;> rfl
@[simp] theorem setChannel_cp (c : Chan) (t : TsRegs) (s : State) : (setChannel c t s).cp = s.cp := by cases c <;> rfl
@[simp] theorem setChannel_bc (c : Chan) (t : TsRegs) (s : State) : (setChannel c t s).bc = s.bc := by cases c <;> rfl
@[simp] theorem setChannel_pram (c : Chan) (t : TsRegs) (s : State) : (setChannel c t s).pram = s.pram := by
  cases c <;> rfl
@[simp] theorem setChannel_pending (c : Chan) (t : TsRegs) (s : State) :
    (setChannel c t s).pending = s.pending := by cases c <;> rfl
@[simp] theorem setChannel_resp (c : Chan) (t : TsRegs) (s : State) : (setChannel c t s).resp = s.resp := by
  cases c <;> rfl

@[simp] theorem setResult_err (c : Chan) (v : Word) (s : State) : (setResult c v s).err = s.err := by cases c <;> rfl
@[simp] theorem setResult_a0 (c : Chan) (v : Word) (s : State) : (setResult c v s).a0 = s.a0 := by cases c <;> rfl
@[simp] theorem setResult_a1 (c : Chan) (v : Word) (s : State) : (setResult c v s).a1 = s.a1 := by cases c <;> rfl
@[simp] theorem setResult_cp (c : Chan) (v : Word) (s : State) : (setResult c v s).cp = s.cp := by cases c <;> rfl
@[simp] theorem setResult_ts0 (c : Chan) (v : Word) (s : State) : (setResult c v s).ts0 = s.ts0 := by cases c <;> rfl
@[simp] theorem setResult_ts1 (c : Chan) (v : Word) (s : State) : (setResult c v s).ts1 = s.ts1 := by cases c <;> rfl
@[simp] theorem setResult_bc (c : Chan) (v : Word) (s : State) : (setResult c v s).bc = s.bc := by cases c <;> rfl
@[simp] theorem setResult_pram (c : Chan) (v : Word) (s : State) : (setResult c v s).pram = s.pram := by
  cases c <;> rfl
@[simp] theorem setResult_pending (c : Chan) (v : Word) (s : State) : (setResult c v s).pending = s.pending := by
  cases c <;> rfl
@[simp] theorem setResult_resp (c : Chan) (v : Word) (s : State) : (setResult c v s).resp = s.resp := by
  cases c <;> rfl
@[simp] theorem channel_setResult (c d : Chan) (v : Word) (s : State) :
    channel d (setResult c v s) = channel d s := by cases c <;> cases d <;> rfl

/-- A property that both channels' parts keep is kept by a command on the selected channels (R253). -/
theorem forSelected_keeps {p : State → Prop} {chm : BitVec 2} {part : Chan → State → State} {s : State} (h : p s)
    (hp : ∀ c s, p s → p (part c s)) : p (forSelected chm part s) := by
  unfold forSelected
  simp only
  split <;> split <;> first | exact h | exact hp _ _ h | exact hp _ _ (hp _ _ h)

/-- The four masks, case by case (R203, R253). -/
theorem forSelected_cases (chm : BitVec 2) (part : Chan → State → State) (s : State) :
    (chm = 0 ∧ forSelected chm part s = s) ∨ (chm = 1 ∧ forSelected chm part s = part .left s)
      ∨ (chm = 2 ∧ forSelected chm part s = part .right s)
      ∨ (chm = 3 ∧ forSelected chm part s = part .right (part .left s)) := by
  have h : ∀ c : BitVec 2, c = 0 ∨ c = 1 ∨ c = 2 ∨ c = 3 := by decide
  rcases h chm with rfl | rfl | rfl | rfl
  · exact .inl ⟨rfl, rfl⟩
  · exact .inr (.inl ⟨rfl, rfl⟩)
  · exact .inr (.inr (.inl ⟨rfl, rfl⟩))
  · exact .inr (.inr (.inr ⟨rfl, rfl⟩))

/-- R251: a checked command either has its effect or records CfgError. -/
theorem guarded_cases (i : Instr) (ok : Bool) (f : State → State) (s : State) :
    (ok = true ∧ guarded i ok f s = f s) ∨ (ok = false ∧ guarded i ok f s = record (.cfgError (encode i)) s) := by
  cases ok
  · exact .inr ⟨rfl, rfl⟩
  · exact .inl ⟨rfl, rfl⟩

@[simp] theorem guarded_true (i : Instr) (f : State → State) (s : State) : guarded i true f s = f s := rfl

@[simp] theorem guarded_false (i : Instr) (f : State → State) (s : State) :
    guarded i false f s = record (.cfgError (encode i)) s := rfl

end Sys2Proof.Machine
end

