-- ==== Sys2Proof/Laws/State.lean ====
section
/-! SUPPORT. One lemma for each field of each named update of a register group, true by definition, and the fields of the reset
state. -/

namespace Sys2Proof.Machine

@[simp] theorem reset_pram : State.reset.pram = [] := rfl
@[simp] theorem reset_pending : State.reset.pending = [] := rfl
@[simp] theorem reset_resp : State.reset.resp = .idle := rfl
@[simp] theorem reset_err : State.reset.err = ⟨0, 0, 0, 0⟩ := rfl
@[simp] theorem reset_cp : State.reset.cp = ⟨posZero, fOne, posZero, fOne⟩ := rfl
@[simp] theorem reset_ts0 : State.reset.ts0 = resetTs := rfl
@[simp] theorem reset_ts1 : State.reset.ts1 = resetTs := rfl
@[simp] theorem reset_bc : State.reset.bc = resetBc := rfl

@[simp] theorem setRateOf_rate (r : Word) (t : TsRegs) : (setRateOf r t).rate = r := rfl
@[simp] theorem setRateOf_scale (r : Word) (t : TsRegs) : (setRateOf r t).scale = rateScale r.toNat := rfl
@[simp] theorem setRateOf_mode (r : Word) (t : TsRegs) : (setRateOf r t).mode = t.mode := rfl
@[simp] theorem setRateOf_proc (r : Word) (t : TsRegs) : (setRateOf r t).proc = t.proc := rfl
@[simp] theorem setRateOf_autoGain (r : Word) (t : TsRegs) : (setRateOf r t).autoGain = t.autoGain := rfl
@[simp] theorem setRateOf_s (r : Word) (t : TsRegs) : (setRateOf r t).s = t.s := rfl
@[simp] theorem setRateOf_prev (r : Word) (t : TsRegs) : (setRateOf r t).prev = t.prev := rfl
@[simp] theorem setRateOf_env (r : Word) (t : TsRegs) : (setRateOf r t).env = t.env := rfl
@[simp] theorem setRateOf_acb (r : Word) (t : TsRegs) : (setRateOf r t).acb = t.acb := rfl

@[simp] theorem setModeOf_mode (m : Word) (c : Record) (t : TsRegs) : (setModeOf m c t).mode = m := rfl
@[simp] theorem setModeOf_acb (m : Word) (c : Record) (t : TsRegs) : (setModeOf m c t).acb = c := rfl
@[simp] theorem setModeOf_autoGain (m : Word) (c : Record) (t : TsRegs) :
    (setModeOf m c t).autoGain = ag t.proc c := rfl
@[simp] theorem setModeOf_rate (m : Word) (c : Record) (t : TsRegs) : (setModeOf m c t).rate = t.rate := rfl
@[simp] theorem setModeOf_scale (m : Word) (c : Record) (t : TsRegs) : (setModeOf m c t).scale = t.scale := rfl
@[simp] theorem setModeOf_proc (m : Word) (c : Record) (t : TsRegs) : (setModeOf m c t).proc = t.proc := rfl
@[simp] theorem setModeOf_s (m : Word) (c : Record) (t : TsRegs) : (setModeOf m c t).s = t.s := rfl
@[simp] theorem setModeOf_prev (m : Word) (c : Record) (t : TsRegs) : (setModeOf m c t).prev = t.prev := rfl
@[simp] theorem setModeOf_env (m : Word) (c : Record) (t : TsRegs) : (setModeOf m c t).env = t.env := rfl

@[simp] theorem setProcOf_proc (p : F32) (t : TsRegs) : (setProcOf p t).proc = p := rfl
@[simp] theorem setProcOf_autoGain (p : F32) (t : TsRegs) : (setProcOf p t).autoGain = ag p t.acb := rfl
@[simp] theorem setProcOf_rate (p : F32) (t : TsRegs) : (setProcOf p t).rate = t.rate := rfl
@[simp] theorem setProcOf_scale (p : F32) (t : TsRegs) : (setProcOf p t).scale = t.scale := rfl
@[simp] theorem setProcOf_mode (p : F32) (t : TsRegs) : (setProcOf p t).mode = t.mode := rfl
@[simp] theorem setProcOf_acb (p : F32) (t : TsRegs) : (setProcOf p t).acb = t.acb := rfl
@[simp] theorem setProcOf_s (p : F32) (t : TsRegs) : (setProcOf p t).s = t.s := rfl
@[simp] theorem setProcOf_prev (p : F32) (t : TsRegs) : (setProcOf p t).prev = t.prev := rfl
@[simp] theorem setProcOf_env (p : F32) (t : TsRegs) : (setProcOf p t).env = t.env := rfl

@[simp] theorem clearTs_s (t : TsRegs) : (clearTs t).s = posZero := rfl
@[simp] theorem clearTs_prev (t : TsRegs) : (clearTs t).prev = posZero := rfl
@[simp] theorem clearTs_env (t : TsRegs) : (clearTs t).env = posZero := rfl
@[simp] theorem clearTs_rate (t : TsRegs) : (clearTs t).rate = t.rate := rfl
@[simp] theorem clearTs_scale (t : TsRegs) : (clearTs t).scale = t.scale := rfl
@[simp] theorem clearTs_mode (t : TsRegs) : (clearTs t).mode = t.mode := rfl
@[simp] theorem clearTs_proc (t : TsRegs) : (clearTs t).proc = t.proc := rfl
@[simp] theorem clearTs_autoGain (t : TsRegs) : (clearTs t).autoGain = t.autoGain := rfl
@[simp] theorem clearTs_acb (t : TsRegs) : (clearTs t).acb = t.acb := rfl

@[simp] theorem repairTs_s (t : TsRegs) : (repairTs t).s = repaired t.s := rfl
@[simp] theorem repairTs_prev (t : TsRegs) : (repairTs t).prev = repaired t.prev := rfl
@[simp] theorem repairTs_env (t : TsRegs) : (repairTs t).env = repaired t.env := rfl
@[simp] theorem repairTs_rate (t : TsRegs) : (repairTs t).rate = t.rate := rfl
@[simp] theorem repairTs_scale (t : TsRegs) : (repairTs t).scale = t.scale := rfl
@[simp] theorem repairTs_mode (t : TsRegs) : (repairTs t).mode = t.mode := rfl
@[simp] theorem repairTs_proc (t : TsRegs) : (repairTs t).proc = t.proc := rfl
@[simp] theorem repairTs_autoGain (t : TsRegs) : (repairTs t).autoGain = t.autoGain := rfl
@[simp] theorem repairTs_acb (t : TsRegs) : (repairTs t).acb = t.acb := rfl

/-- R280: the datapath writes PREV, S and ENV only. -/
@[simp] theorem tsDatapath_rate (t : TsRegs) (x : F32) : (tsDatapath t x).2.rate = t.rate := rfl
@[simp] theorem tsDatapath_scale (t : TsRegs) (x : F32) : (tsDatapath t x).2.scale = t.scale := rfl
@[simp] theorem tsDatapath_mode (t : TsRegs) (x : F32) : (tsDatapath t x).2.mode = t.mode := rfl
@[simp] theorem tsDatapath_proc (t : TsRegs) (x : F32) : (tsDatapath t x).2.proc = t.proc := rfl
@[simp] theorem tsDatapath_autoGain (t : TsRegs) (x : F32) : (tsDatapath t x).2.autoGain = t.autoGain := rfl
@[simp] theorem tsDatapath_acb (t : TsRegs) (x : F32) : (tsDatapath t x).2.acb = t.acb := rfl
@[simp] theorem tsDatapath_prev (t : TsRegs) (x : F32) : (tsDatapath t x).2.prev = x := rfl
@[simp] theorem tsDatapath_env (t : TsRegs) (x : F32) :
    (tsDatapath t x).2.env = followEnvelope t.env t.acb.envDecay x := rfl

@[simp] theorem clearDetector_env (b : BcRegs) : (clearDetector b).env = posZero := rfl
@[simp] theorem clearDetector_scx (b : BcRegs) : (clearDetector b).scx = posZero := rfl
@[simp] theorem clearDetector_scy (b : BcRegs) : (clearDetector b).scy = posZero := rfl
@[simp] theorem clearDetector_lastGr (b : BcRegs) : (clearDetector b).lastGr = posZero := rfl

@[simp] theorem repairBc_env (b : BcRegs) : (repairBc b).env = repaired b.env := rfl
@[simp] theorem repairBc_scx (b : BcRegs) : (repairBc b).scx = repaired b.scx := rfl
@[simp] theorem repairBc_scy (b : BcRegs) : (repairBc b).scy = repaired b.scy := rfl

@[simp] theorem detectorStep_lastGr (b : BcRegs) (x y : F32) : (detectorStep b x y).lastGr = b.lastGr := rfl
@[simp] theorem detectorStep_nch (b : BcRegs) (x y : F32) : (detectorStep b x y).nch = b.nch := rfl
@[simp] theorem detectorStep_flags (b : BcRegs) (x y : F32) : (detectorStep b x y).flags = b.flags := rfl
@[simp] theorem detectorStep_lfsr (b : BcRegs) (x y : F32) : (detectorStep b x y).lfsr = b.lfsr := rfl

/-- Everything the detector of a frame writes: BC_SCX, BC_SCY and BC_ENV (R391, R393). -/
theorem detectorStep_frame (b : BcRegs) (x y : F32) :
    detectorStep b x y = { b with env := (detectorStep b x y).env, scx := (detectorStep b x y).scx,
                                  scy := (detectorStep b x y).scy } := rfl

/-- R283, R398: a repaired value is finite. -/
@[simp] theorem isFinite_repaired (x : F32) : isFinite (repaired x) = true := by
  unfold repaired
  split
  · assumption
  · decide

/-- R283, R398: a finite value is kept. -/
theorem repaired_of_finite {x : F32} (h : isFinite x = true) : repaired x = x := by simp [repaired, h]

end Sys2Proof.Machine
end

