-- ==== Sys2Proof/Laws/Commands.lean ====
section
/-! SUPPORT. What the parts of the command meanings can do, each said once: one ToneShaper sample, the non-finite repairs, the
checked BusCompressor setters and one BusCompressor frame. -/

namespace Sys2Proof.Machine

/-- A NaN or an infinity becomes +0. -/
theorem repaired_of_not_finite {x : F32} (h : isFinite x = false) : repaired x = posZero := by simp [repaired, h]

@[simp] theorem tsStateFinite_repairTs (t : TsRegs) : tsStateFinite (repairTs t) = true := by
  simp only [tsStateFinite, repairTs, isFinite_repaired, Bool.and_self]

@[simp] theorem bcStateFinite_repairBc (b : BcRegs) : bcStateFinite (repairBc b) = true := by
  simp only [bcStateFinite, repairBc, isFinite_repaired, Bool.and_self]

theorem repairTs_of_finite {t : TsRegs} (h : tsStateFinite t = true) : repairTs t = t := by
  simp only [tsStateFinite, Bool.and_eq_true] at h
  simp only [repairTs, repaired_of_finite h.1.1, repaired_of_finite h.1.2, repaired_of_finite h.2]

theorem repairBc_of_finite {b : BcRegs} (h : bcStateFinite b = true) : repairBc b = b := by
  simp only [bcStateFinite, Bool.and_eq_true] at h
  simp only [repairBc, repaired_of_finite h.1.1, repaired_of_finite h.1.2, repaired_of_finite h.2]

/-- The datapath writes PREV, S and ENV of its channel and nothing else (R280). -/
theorem tsDatapath_regs (t : TsRegs) (x : F32) :
    (tsDatapath t x).2 =
      { t with prev := x, s := (tsDatapath t x).2.s, env := followEnvelope t.env t.acb.envDecay x } := rfl

/-- Everything one sample can do to the state: the channel's repaired registers, and a NonFinite event when there was
something to repair (R280, R283). -/
theorem tsStep_cases (c : Chan) (x : F32) (s : State) :
    (tsStateFinite (tsDatapath (channel c s) x).2 = true
      ∧ (tsStep c x s).2 = setChannel c (tsDatapath (channel c s) x).2 s)
    ∨ (tsStateFinite (tsDatapath (channel c s) x).2 = false
      ∧ (tsStep c x s).2 = record (.nonFiniteTs c) (setChannel c (repairTs (tsDatapath (channel c s) x).2) s)) := by
  cases h : tsStateFinite (tsDatapath (channel c s) x).2 with
  | true =>
    left
    refine ⟨rfl, ?_⟩
    unfold tsStep
    simp only [h, if_true, repairTs_of_finite h]
  | false =>
    right
    refine ⟨rfl, ?_⟩
    unfold tsStep
    simp only [h, Bool.false_eq_true, if_false]

/-- The output of a sample is the datapath's (R280). -/
@[simp] theorem tsStep_fst (c : Chan) (x : F32) (s : State) : (tsStep c x s).1 = (tsDatapath (channel c s) x).1 := rfl

/-- A checked BusCompressor setter either replaces the BusCompressor's registers or records CfgError (R251). -/
theorem guardedBc_cases (i : Instr) (ok : Bool) (f : BcRegs → BcRegs) (s : State) :
    (ok = true ∧ guardedBc i ok f s = { s with bc := f s.bc })
    ∨ (ok = false ∧ guardedBc i ok f s = record (.cfgError (encode i)) s) :=
  guarded_cases i ok _ s

/-- Everything one frame can do to the state (R389, R398). -/
theorem frame_cases (s : State) :
    let b := detectorStep s.bc s.a0 s.a1
    let out := frameOutputs b s.a0 s.a1
    let t := { s with r0 := out.1, r1 := if b.nch = 2 then out.2 else s.r1, bc := repairBc b }
    (bcStateFinite b = true ∧ frame s = t) ∨ (bcStateFinite b = false ∧ frame s = record .nonFiniteBus t) := by
  intro b out t
  have h : frame s = if bcStateFinite b then t else record .nonFiniteBus t := by
    unfold frame
    simp only
    by_cases hk : (detectorStep s.bc s.a0 s.a1).nch = 2
    · simp only [hk, if_true, t, b, out, setResult]
    · simp only [hk, if_false, t, b, out, setResult]
  rw [h]
  cases bcStateFinite b
  · exact .inr ⟨rfl, rfl⟩
  · exact .inl ⟨rfl, rfl⟩

/-- The detector leaves every parameter, coefficient and meter register (R391, R393). -/
theorem detectorStep_regs (b : BcRegs) (a0 a1 : F32) :
    detectorStep b a0 a1 =
      { b with scx := (detectorStep b a0 a1).scx, scy := (detectorStep b a0 a1).scy,
               env := (detectorStep b a0 a1).env } := rfl

end Sys2Proof.Machine
end

