-- ==== Sys2Proof/Laws/Memory.lean ====
section
/-! SUPPORT. Lemmas of the preset RAM: what a write changes and leaves, and that every operation keeps the canonical form. -/

namespace Sys2Proof.Machine

/-- A word is made of its four byte lanes (R155). -/
theorem wordOfBytes_byteLane (w : Word) :
    wordOfBytes (byteLane w 0) (byteLane w 1) (byteLane w 2) (byteLane w 3) = w := by
  apply BitVec.eq_of_getLsbD_eq
  intro i hi
  simp only [wordOfBytes, byteLane, BitVec.getLsbD_append, BitVec.getLsbD_extractLsb']
  rcases Nat.lt_or_ge i 8 with h1 | h1
  · simp [h1]
  · rcases Nat.lt_or_ge i 16 with h2 | h2
    · simp [Nat.not_lt.2 h1, show i - 8 < 8 by omega, show 8 + (i - 8) = i by omega]
    · rcases Nat.lt_or_ge i 24 with h3 | h3
      · simp [Nat.not_lt.2 h1, show ¬ i - 8 < 8 by omega, show i - 8 - 8 < 8 by omega,
          show 16 + (i - 8 - 8) = i by omega]
      · simp [Nat.not_lt.2 h1, show ¬ i - 8 < 8 by omega, show ¬ i - 8 - 8 < 8 by omega,
          show i - 8 - 8 - 8 < 8 by omega, show 24 + (i - 8 - 8 - 8) = i by omega]

/-- The canonical form without its bounds: offsets strictly rising and all above a bound. -/
def Memory.risesFrom (lo : Nat) : Memory → Prop
  | [] => True
  | (a, _) :: rest => lo ≤ a ∧ Memory.risesFrom (a + 1) rest

theorem rising_iff (m : Memory) : Memory.rising m = true ↔ Memory.risesFrom 0 m := by
  have key : ∀ (m : Memory) (a : Nat) (b : Byte),
      Memory.rising ((a, b) :: m) = true ↔ Memory.risesFrom (a + 1) m := by
    intro m
    induction m with
    | nil => intro a b; simp [Memory.rising, Memory.risesFrom]
    | cons c rest ih =>
      intro a b
      obtain ⟨k, v⟩ := c
      simp only [Memory.rising, Bool.and_eq_true, decide_eq_true_eq, ih, Memory.risesFrom]
      constructor <;> rintro ⟨h1, h2⟩ <;> exact ⟨by omega, h2⟩
  cases m with
  | nil => simp [Memory.rising, Memory.risesFrom]
  | cons c rest =>
    obtain ⟨k, v⟩ := c
    rw [key]; simp [Memory.risesFrom]

theorem Memory.risesFrom_mono {m : Memory} {lo hi : Nat} (h : Memory.risesFrom hi m) (hl : lo ≤ hi) :
    Memory.risesFrom lo m := by
  cases m with
  | nil => trivial
  | cons c rest => obtain ⟨k, v⟩ := c; exact ⟨by have := h.1; omega, h.2⟩

theorem Memory.find_none_of_risesFrom {m : Memory} {lo a : Nat} (h : Memory.risesFrom lo m) (ha : a < lo) :
    Memory.find m a = none := by
  induction m generalizing lo with
  | nil => rfl
  | cons c rest ih =>
    obtain ⟨k, v⟩ := c
    obtain ⟨h1, h2⟩ := h
    rw [Memory.find, if_neg (by omega)]
    exact ih h2 (by omega)

theorem Memory.find_insert (m : Memory) (a x : Nat) (v : Byte) (lo : Nat) (h : Memory.risesFrom lo m) :
    Memory.find (Memory.insert m a v) x = if x = a then some v else Memory.find m x := by
  induction m generalizing lo with
  | nil =>
    by_cases hx : a = x
    · subst hx; simp [Memory.insert, Memory.find]
    · simp [Memory.insert, Memory.find, hx, Ne.symm hx]
  | cons c rest ih =>
    obtain ⟨k, b⟩ := c
    obtain ⟨h1, h2⟩ := h
    unfold Memory.insert
    split
    · by_cases hx : a = x
      · subst hx; simp [Memory.find]
      · simp [Memory.find, hx, Ne.symm hx]
    · split
      · next hk =>
        subst hk
        by_cases hx : k = x
        · subst hx; simp [Memory.find]
        · simp [Memory.find, hx, Ne.symm hx]
      · next hk =>
        simp only [Memory.find, ih (k + 1) h2]
        by_cases hkx : k = x
        · subst hkx; simp [hk]
        · simp [hkx]

theorem Memory.find_erase (m : Memory) (a x : Nat) (lo : Nat) (h : Memory.risesFrom lo m) :
    Memory.find (Memory.erase m a) x = if x = a then none else Memory.find m x := by
  induction m generalizing lo with
  | nil => simp [Memory.erase, Memory.find]
  | cons c rest ih =>
    obtain ⟨k, b⟩ := c
    obtain ⟨h1, h2⟩ := h
    unfold Memory.erase
    split
    · next hk =>
      subst hk
      by_cases hx : x = k
      · subst hx; simp [Memory.find_none_of_risesFrom h2 (Nat.lt_succ_self _)]
      · simp [Memory.find, hx, Ne.symm hx]
    · next hk =>
      simp only [Memory.find, ih (k + 1) h2]
      by_cases hkx : k = x
      · subst hkx; simp [hk]
      · simp [hkx]

/-- A byte read after a byte written: the byte itself at its offset, every other byte as before. -/
theorem readByte_writeByte (m : Memory) (a x : Nat) (v : Byte) (h : Memory.rising m = true) :
    Memory.readByte (Memory.writeByte m a v) x = if x = a then v else Memory.readByte m x := by
  rw [rising_iff] at h
  unfold Memory.readByte Memory.writeByte
  split
  · next hv =>
    rw [Memory.find_erase m a x 0 h]
    by_cases hx : x = a
    · subst hx; simp [hv]
    · simp [hx]
  · rw [Memory.find_insert m a x v 0 h]
    by_cases hx : x = a <;> simp [hx]

theorem Memory.risesFrom_insert (m : Memory) (a : Nat) (v : Byte) (lo : Nat) (h : Memory.risesFrom lo m)
    (ha : lo ≤ a) : Memory.risesFrom lo (Memory.insert m a v) := by
  induction m generalizing lo with
  | nil => exact ⟨ha, trivial⟩
  | cons c rest ih =>
    obtain ⟨k, b⟩ := c
    obtain ⟨h1, h2⟩ := h
    unfold Memory.insert
    split
    · next hk => exact ⟨ha, by omega, h2⟩
    · split
      · next hk => subst hk; exact ⟨h1, h2⟩
      · exact ⟨h1, ih (k + 1) h2 (by omega)⟩

theorem Memory.risesFrom_erase (m : Memory) (a : Nat) (lo : Nat) (h : Memory.risesFrom lo m) :
    Memory.risesFrom lo (Memory.erase m a) := by
  induction m generalizing lo with
  | nil => trivial
  | cons c rest ih =>
    obtain ⟨k, b⟩ := c
    obtain ⟨h1, h2⟩ := h
    unfold Memory.erase
    split
    · exact Memory.risesFrom_mono h2 (by omega)
    · exact ⟨h1, ih (k + 1) h2⟩

theorem Memory.mem_insert {m : Memory} {a : Nat} {v : Byte} {c : Host.Cell} (h : c ∈ Memory.insert m a v) :
    c = (a, v) ∨ c ∈ m := by
  induction m with
  | nil => simpa [Memory.insert] using h
  | cons d rest ih =>
    obtain ⟨k, b⟩ := d
    unfold Memory.insert at h
    split at h
    · simpa using h
    · split at h
      · simp only [List.mem_cons] at h ⊢; tauto
      · simp only [List.mem_cons] at h ⊢
        rcases h with h | h
        · tauto
        · rcases ih h with h | h <;> tauto

theorem Memory.mem_erase {m : Memory} {a : Nat} {c : Host.Cell} (h : c ∈ Memory.erase m a) : c ∈ m := by
  induction m with
  | nil => simp [Memory.erase] at h
  | cons d rest ih =>
    obtain ⟨k, b⟩ := d
    unfold Memory.erase at h
    split at h
    · exact List.mem_cons_of_mem _ h
    · simp only [List.mem_cons] at h ⊢
      rcases h with h | h
      · exact .inl h
      · exact .inr (ih h)

/-- The canonical form says: rising offsets, and every entry lies in the preset RAM and differs from what an unlisted
offset reads as. -/
theorem wf_iff (m : Memory) :
    Memory.wf m = true ↔ Memory.risesFrom 0 m ∧ ∀ c ∈ m, pramBase ≤ c.1 ∧ c.1 < pramEnd ∧ c.2 ≠ defaultByte c.1 := by
  unfold Memory.wf
  rw [Bool.and_eq_true, rising_iff, List.all_eq_true]
  simp [and_assoc]

/-- A byte written inside the preset RAM keeps the canonical form. -/
theorem wf_writeByte (m : Memory) (a : Nat) (v : Byte) (h : Memory.wf m = true) (h1 : pramBase ≤ a)
    (h2 : a < pramEnd) : Memory.wf (Memory.writeByte m a v) = true := by
  rw [wf_iff] at h ⊢
  unfold Memory.writeByte
  split
  · exact ⟨Memory.risesFrom_erase m a 0 h.1, fun c hc => h.2 c (Memory.mem_erase hc)⟩
  · next hv =>
    refine ⟨Memory.risesFrom_insert m a v 0 h.1 (Nat.zero_le _), fun c hc => ?_⟩
    rcases Memory.mem_insert hc with rfl | hc
    · exact ⟨h1, h2, hv⟩
    · exact h.2 c hc

/-- A byte written keeps the offsets rising. -/
theorem rising_writeByte (m : Memory) (a : Nat) (v : Byte) (h : Memory.rising m = true) :
    Memory.rising (Memory.writeByte m a v) = true := by
  rw [rising_iff] at h ⊢
  unfold Memory.writeByte
  split
  · exact Memory.risesFrom_erase m a 0 h
  · exact Memory.risesFrom_insert m a v 0 h (Nat.zero_le _)

theorem rising_of_wf {m : Memory} (h : Memory.wf m = true) : Memory.rising m = true := by
  unfold Memory.wf at h
  rw [Bool.and_eq_true] at h
  exact h.1

/-- A word written inside the preset RAM keeps the canonical form. -/
theorem wf_writeWord (m : Memory) (a : Nat) (v : Word) (h : Memory.wf m = true) (h1 : pramBase ≤ a)
    (h2 : a + 3 < pramEnd) : Memory.wf (Memory.writeWord m a v) = true := by
  unfold Memory.writeWord
  exact wf_writeByte _ _ _ (wf_writeByte _ _ _ (wf_writeByte _ _ _ (wf_writeByte _ _ _ h h1 (by omega))
    (by omega) (by omega)) (by omega) (by omega)) (by omega) h2

/-- A byte read after a word written: the word's lane at its four offsets, every other byte as before. -/
theorem readByte_writeWord (m : Memory) (a x : Nat) (v : Word) (h : Memory.rising m = true) :
    Memory.readByte (Memory.writeWord m a v) x =
      if x = a + 3 then byteLane v 3 else if x = a + 2 then byteLane v 2
      else if x = a + 1 then byteLane v 1 else if x = a then byteLane v 0 else Memory.readByte m x := by
  have r0 := rising_writeByte m a (byteLane v 0) h
  have r1 := rising_writeByte _ (a + 1) (byteLane v 1) r0
  have r2 := rising_writeByte _ (a + 2) (byteLane v 2) r1
  unfold Memory.writeWord
  rw [readByte_writeByte _ _ _ _ r2, readByte_writeByte _ _ _ _ r1, readByte_writeByte _ _ _ _ r0,
    readByte_writeByte _ _ _ _ h]

/-- A word read where a word was written is that word. -/
theorem readWord_writeWord_same (m : Memory) (a : Nat) (v : Word) (h : Memory.rising m = true) :
    Memory.readWord (Memory.writeWord m a v) a = v := by
  unfold Memory.readWord
  simp only [readByte_writeWord _ _ _ _ h]
  simp [wordOfBytes_byteLane]

/-- A word read elsewhere is as before. -/
theorem readWord_writeWord_other (m : Memory) (a x : Nat) (v : Word) (h : Memory.rising m = true)
    (hx : x + 4 ≤ a ∨ a + 4 ≤ x) : Memory.readWord (Memory.writeWord m a v) x = Memory.readWord m x := by
  unfold Memory.readWord
  simp only [readByte_writeWord _ _ _ _ h]
  congr 1 <;> (repeat rw [if_neg (by omega)])

/-- At reset nothing is listed, which is canonical. -/
theorem wf_nil : Memory.wf [] = true := rfl

/-- An empty preset RAM reads as DEFAULT_PRESET, word by word (R74). -/
theorem pramWord_nil (i : Nat) : pramWord [] i = Config.defaultPreset i := by
  unfold pramWord Memory.readWord Memory.readByte Memory.find defaultByte pramOffset
  simp only [Option.getD_none]
  rw [show (pramBase + 4 * i - pramBase) / 4 = i by omega, show (pramBase + 4 * i + 1 - pramBase) / 4 = i by omega,
    show (pramBase + 4 * i + 2 - pramBase) / 4 = i by omega, show (pramBase + 4 * i + 3 - pramBase) / 4 = i by omega,
    show (pramBase + 4 * i) % 4 = 0 by unfold pramBase; omega,
    show (pramBase + 4 * i + 1) % 4 = 1 by unfold pramBase; omega,
    show (pramBase + 4 * i + 2) % 4 = 2 by unfold pramBase; omega,
    show (pramBase + 4 * i + 3) % 4 = 3 by unfold pramBase; omega]
  exact wordOfBytes_byteLane _

end Sys2Proof.Machine
end

