-- ==== Sys2Proof/Laws/PerInstr.lean ====
section
/-! SUPPORT. A statement made command by command: the encoder writes only the bits that the opcode map of R204 leaves to
fields, and the opcode it writes selects the row. -/

namespace Sys2Proof.Laws.EncodingFitsTable

/-- The word of a command agrees with the match of its opcode's row in every bit of that row's mask (R201, R204). -/
def Statement (i : Instr) : Prop :=
  (rowOf (encode i)).any (fun r => encode i &&& r.mask == r.matchWord) = true

theorem nop : Statement .nop := by unfold Statement; decide +kernel
theorem tsSetRate (chm : BitVec 2) : Statement (.tsSetRate chm) := by unfold Statement; revert chm; decide +kernel
theorem tsSetMode (chm : BitVec 2) (char : BitVec 2) (model : BitVec 3) : Statement (.tsSetMode chm char model) := by unfold Statement; revert chm char model; decide +kernel
theorem tsSetProc (chm : BitVec 2) : Statement (.tsSetProc chm) := by unfold Statement; revert chm; decide +kernel
theorem tsReset (chm : BitVec 2) : Statement (.tsReset chm) := by unfold Statement; revert chm; decide +kernel
theorem tsProcess (chm : BitVec 2) (trim : Bool) : Statement (.tsProcess chm trim) := by unfold Statement; revert chm trim; decide +kernel
theorem tsSatEval (chm : BitVec 2) : Statement (.tsSatEval chm) := by unfold Statement; revert chm; decide +kernel
theorem cpSetInTrim : Statement .cpSetInTrim := by unfold Statement; decide +kernel
theorem cpSetOutTrim : Statement .cpSetOutTrim := by unfold Statement; decide +kernel
theorem msEncode : Statement .msEncode := by unfold Statement; decide +kernel
theorem msDecode : Statement .msDecode := by unfold Statement; decide +kernel
theorem bcPrepare (nch : BitVec 2) : Statement (.bcPrepare nch) := by unfold Statement; revert nch; decide +kernel
theorem bcSetThresh : Statement .bcSetThresh := by unfold Statement; decide +kernel
theorem bcSetRatio : Statement .bcSetRatio := by unfold Statement; decide +kernel
theorem bcSetAttack : Statement .bcSetAttack := by unfold Statement; decide +kernel
theorem bcSetRelease : Statement .bcSetRelease := by unfold Statement; decide +kernel
theorem bcSetMakeup : Statement .bcSetMakeup := by unfold Statement; decide +kernel
theorem bcSetFlags (hpf : Bool) (ms : Bool) : Statement (.bcSetFlags hpf ms) := by unfold Statement; revert hpf ms; decide +kernel
theorem bcSetDrive : Statement .bcSetDrive := by unfold Statement; decide +kernel
theorem bcSetLink : Statement .bcSetLink := by unfold Statement; decide +kernel
theorem bcSetSatKnee : Statement .bcSetSatKnee := by unfold Statement; decide +kernel
theorem bcSetBoost : Statement .bcSetBoost := by unfold Statement; decide +kernel
theorem bcSetScFreq : Statement .bcSetScFreq := by unfold Statement; decide +kernel
theorem bcSetDcAmp : Statement .bcSetDcAmp := by unfold Statement; decide +kernel
theorem bcSetDcSeed : Statement .bcSetDcSeed := by unfold Statement; decide +kernel
theorem bcReset : Statement .bcReset := by unfold Statement; decide +kernel
theorem bcBlockBegin : Statement .bcBlockBegin := by unfold Statement; decide +kernel
theorem bcFrame : Statement .bcFrame := by unfold Statement; decide +kernel
theorem bcBlockEnd : Statement .bcBlockEnd := by unfold Statement; decide +kernel

end Sys2Proof.Laws.EncodingFitsTable
end

