-- ==== Sys2Proof/Laws/Port.lean ====
section
/-! SUPPORT. What a step can do, said once: the cases of the host port (R151, R152, R250, R481). -/

namespace Sys2Proof.Machine

/-- Everything one step can do. -/
theorem step_cases {s t : State} (h : step s = .next t) :
    (s.pending = [] ∧ t = s)
    ∨ (∃ a n rest, s.pending = .read a n :: rest ∧ t = memRead a n { s with pending := rest })
    ∨ (∃ a n v rest, s.pending = .write a n v :: rest ∧ memWrite a n v { s with pending := rest } = .next t)
    ∨ (∃ rest, s.pending = .hardReset :: rest ∧ t = hardReset { s with pending := rest }) := by
  unfold step stepOnce at h
  split at h
  · next hp => exact .inl ⟨hp, by injection h with h; exact h.symm⟩
  · next i rest hp =>
    cases i with
    | read a n => exact .inr (.inl ⟨a, n, rest, hp, by injection h with h; exact h.symm⟩)
    | write a n v => exact .inr (.inr (.inl ⟨a, n, v, rest, hp, h⟩))
    | hardReset => exact .inr (.inr (.inr ⟨rest, hp, by injection h with h; exact h.symm⟩))

/-- Everything a read can do (R151). -/
theorem memRead_cases (a : Addr) (n : Nat) (s : State) :
    (accessed a n = none ∧ memRead a n s = record (.busError a) { s with resp := .readData 0 true })
    ∨ (∃ r, accessed a n = some r ∧ memRead a n s = { s with resp := .readData (peek r s) false }) := by
  unfold memRead
  cases h : accessed a n with
  | none => exact .inl ⟨rfl, rfl⟩
  | some r => exact .inr ⟨r, rfl, rfl⟩

/-- Everything a write can do (R152): a BusError, a stored word, a command executed, or an Illegal word recorded. -/
theorem memWrite_cases {a : Addr} {n : Nat} {v : Word} {s t : State} (h : memWrite a n v s = .next t) :
    t = record (.busError a) { s with resp := .writeDone true }
    ∨ (∃ r, accessed a n = some r ∧ accessOf r = .rw ∧ t = storeReg r v { s with resp := .writeDone false })
    ∨ (∃ i, decode v = .ok i ∧ exec i { s with resp := .writeDone false } = .next t)
    ∨ (∃ e, decode v = .error e ∧ t = record (.illegal v) { s with resp := .writeDone false }) := by
  unfold memWrite at h
  split at h
  · injection h with h; exact .inl h.symm
  · next r hr =>
    split at h
    · injection h with h; exact .inl h.symm
    · unfold execute at h
      split at h
      · next i hd => exact .inr (.inr (.inl ⟨i, hd, h⟩))
      · next e hd => injection h with h; exact .inr (.inr (.inr ⟨e, hd, h.symm⟩))
    · next hw => injection h with h; exact .inr (.inl ⟨r, hr, hw, h.symm⟩)

/-- A property of the state is kept by every step if it is kept by the model's own fields' changes, by fault recording, by
a stored word and by every command, and if hardware reset gives it (R151, R152, R250, R481). -/
theorem step_keeps {I : State → Prop} (hp : ∀ s p r, I s → I { s with pending := p, resp := r })
    (hr : ∀ e s, I s → I (record e s)) (hs : ∀ r v s, I s → I (storeReg r v s))
    (he : ∀ i s t, I s → exec i s = .next t → I t) (h0 : I State.reset) {s t : State} (hi : I s)
    (h : step s = .next t) : I t := by
  rcases step_cases h with ⟨_, rfl⟩ | ⟨a, n, rest, _, rfl⟩ | ⟨a, n, v, rest, _, hw⟩ | ⟨rest, _, rfl⟩
  · exact hi
  · rcases memRead_cases a n { s with pending := rest } with ⟨_, h2⟩ | ⟨r, _, h2⟩ <;> rw [h2]
    · exact hr _ _ (hp s rest _ hi)
    · exact hp s rest _ hi
  · rcases memWrite_cases hw with rfl | ⟨r, _, _, rfl⟩ | ⟨i, _, h2⟩ | ⟨e, _, rfl⟩
    · exact hr _ _ (hp s rest _ hi)
    · exact hs _ _ _ (hp s rest _ hi)
    · exact he i _ _ (hp s rest _ hi) h2
    · exact hr _ _ (hp s rest _ hi)
  · exact hp State.reset rest .idle h0

end Sys2Proof.Machine
end

