-- ==== Sys2Proof/Laws/Rounding.lean ====
section
/-! SUPPORT. What R11's rounding means: the number a pattern stands for in units of 2^-149, and that `roundUnits` answers the
binary32 number nearest to its exact fraction, the even one on a tie, the infinity on overflow. -/

namespace Sys2Proof.Machine

/-- The number of a pattern is its units of 2^-149 with its sign. -/
theorem binary32Value_eq (x : F32) :
    binary32Value x = (if signOf x then -(units x : ℚ) else (units x : ℚ)) / 2 ^ 149 := by
  have he : (x.extractLsb' 23 8).toNat = mag x / 2 ^ 23 := by
    simp only [BitVec.extractLsb'_toNat, Nat.shiftRight_eq_div_pow, mag]; omega
  have hf : (x.extractLsb' 0 23).toNat = mag x % 2 ^ 23 := by
    simp only [BitVec.extractLsb'_toNat, Nat.shiftRight_eq_div_pow, mag]; omega
  have hs : x.getLsbD 31 = signOf x := by simp [signOf, BitVec.msb_eq_getLsbD_last]
  unfold binary32Value units
  simp only [he, hf, hs]
  generalize mag x / 2 ^ 23 = e
  generalize mag x % 2 ^ 23 = f
  have h : (if e = 0 then (f : ℚ) / 2 ^ 149 else (2 ^ 23 + (f : ℚ)) * 2 ^ e / 2 ^ 150)
      = ((if e = 0 then f else (2 ^ 23 + f) * 2 ^ (e - 1) : Nat) : ℚ) / 2 ^ 149 := by
    rcases e with _ | e
    · simp
    · simp only [Nat.add_one_ne_zero, if_false, Nat.add_sub_cancel]
      push_cast
      rw [pow_succ]; ring
  rw [h]
  cases signOf x <;> simp [neg_div]

/-- The units of a finite pattern are a multiple of 2^k, or below 2^(23 + k). -/
theorem units_grid (x : F32) (k : Nat) : (∃ m, units x = m * 2 ^ k) ∨ units x < 2 ^ (23 + k) := by
  have hf : mag x % 2 ^ 23 < 2 ^ 23 := Nat.mod_lt _ (by decide)
  unfold units
  simp only
  generalize mag x / 2 ^ 23 = e
  generalize mag x % 2 ^ 23 = f at *
  split
  · exact .inr (lt_of_lt_of_le hf (Nat.pow_le_pow_right (by decide) (by omega)))
  · rcases Nat.lt_or_ge k e with h | h
    · refine .inl ⟨(2 ^ 23 + f) * 2 ^ (e - 1 - k), ?_⟩
      rw [Nat.mul_assoc, ← Nat.pow_add]; congr 2; omega
    · right
      calc (2 ^ 23 + f) * 2 ^ (e - 1) < 2 ^ 24 * 2 ^ (e - 1) :=
            Nat.mul_lt_mul_of_pos_right (by omega) (by positivity)
        _ = 2 ^ (24 + (e - 1)) := by rw [Nat.pow_add]
        _ ≤ 2 ^ (23 + k) := Nat.pow_le_pow_right (by decide) (by omega)

/-- A rounded significand R plus the exponent's bits is the pattern of R * 2^k, also where R carried to 2^24. -/
theorem units_assembled (neg : Bool) {R k : Nat} (hR : R ≤ 2 ^ 24) (hk : k = 0 ∨ 2 ^ 23 ≤ R)
    (hf : R + k * 2 ^ 23 < 0x7F800000) : units (withSign neg (R + k * 2 ^ 23)) = R * 2 ^ k := by
  unfold units
  rw [mag_withSign _ _ (by omega)]
  simp only
  rcases Nat.lt_or_ge R (2 ^ 23) with h | h
  · have hk0 : k = 0 := by omega
    subst hk0
    rw [if_pos (by omega), Nat.pow_zero]; omega
  · rcases Nat.lt_or_ge R (2 ^ 24) with h' | h'
    · have he : (R + k * 2 ^ 23) / 2 ^ 23 = k + 1 := by omega
      have hm : (R + k * 2 ^ 23) % 2 ^ 23 = R - 2 ^ 23 := by omega
      rw [he, hm, if_neg (by omega), Nat.add_sub_cancel, show 2 ^ 23 + (R - 2 ^ 23) = R by omega]
    · have hR' : R = 2 ^ 24 := by omega
      have he : (R + k * 2 ^ 23) / 2 ^ 23 = k + 2 := by omega
      have hm : (R + k * 2 ^ 23) % 2 ^ 23 = 0 := by omega
      rw [he, hm, if_neg (by omega), hR', show k + 2 - 1 = k + 1 by omega, Nat.pow_succ 2 k]
      ring

/-- The rounded quotient is the quotient or the next integer. -/
theorem roundNearestEven_bounds (n e : Nat) :
    n / e ≤ roundNearestEven n e ∧ roundNearestEven n e ≤ n / e + 1 := by
  unfold roundNearestEven; simp only; split <;> omega

/-- R11: no integer is closer to n / e than the rounded quotient, and on a tie it is the even one. -/
theorem roundNearestEven_nearest (n : Nat) {e : Nat} (he : 0 < e) (m : ℤ) :
    |(roundNearestEven n e : ℤ) * e - n| ≤ |m * e - n|
      ∧ (|(roundNearestEven n e : ℤ) * e - n| = |m * e - n| → m ≠ roundNearestEven n e →
          roundNearestEven n e % 2 = 0) := by
  have hn : (n : ℤ) = e * (n / e : Nat) + (n % e : Nat) := by
    exact_mod_cast (Nat.div_add_mod n e).symm
  have hr : n % e < e := Nat.mod_lt _ he
  unfold roundNearestEven
  simp only
  generalize n / e = q at *
  generalize n % e = r at *
  rw [hn]
  have e1 : (q : ℤ) * e - (e * q + r) = -r := by ring
  have e2 : ((q + 1 : Nat) : ℤ) * e - (e * q + r) = e - r := by push_cast; ring
  have hm : (m ≤ q ∧ (r : ℤ) + (q - m) ≤ |m * e - (e * q + r)|)
      ∨ ((q : ℤ) + 1 ≤ m ∧ (e : ℤ) - r + (m - (q + 1)) ≤ |m * e - (e * q + r)|) := by
    rcases lt_or_ge (q : ℤ) m with h | h
    · right
      refine ⟨by omega, le_trans ?_ (le_abs_self _)⟩
      have : 0 ≤ (m - (q + 1)) * ((e : ℤ) - 1) := mul_nonneg (by omega) (by omega)
      nlinarith
    · left
      refine ⟨h, le_trans ?_ (neg_le_abs _)⟩
      have : 0 ≤ ((q : ℤ) - m) * ((e : ℤ) - 1) := mul_nonneg (by omega) (by omega)
      nlinarith
  generalize |m * e - ((e : ℤ) * q + r)| = a at *
  split
  · rw [e2, abs_of_nonneg (by omega)]
    push_cast
    constructor
    · omega
    · omega
  · rw [e1, abs_neg, abs_of_nonneg (by omega)]
    constructor
    · omega
    · omega

/-- What the quantum's exponent says of the quotient: it has at most 24 significant bits above it, and exactly 24 when
the exponent is not 0. -/
theorem quantumShift_spec (q : Nat) :
    q < 2 ^ (24 + quantumShift q) ∧ (quantumShift q = 0 ∨ 2 ^ (23 + quantumShift q) ≤ q) := by
  unfold quantumShift
  split
  · next h => exact ⟨h, .inl rfl⟩
  · next h =>
    have hq : q ≠ 0 := by omega
    have h1 : 24 ≤ q.log2 := (Nat.le_log2 hq).2 (by omega)
    have h2 := Nat.log2_self_le hq
    have h3 := @Nat.lt_log2_self q
    rw [show 24 + (q.log2 - 23) = q.log2 + 1 by omega, show 23 + (q.log2 - 23) = q.log2 by omega]
    exact ⟨h3, .inr h2⟩

/-- The significand `roundUnits` rounds to. -/
def significand (n d : Nat) : Nat := roundNearestEven n (d * 2 ^ quantumShift (n / d))

theorem significand_bounds (n d : Nat) :
    significand n d ≤ 2 ^ 24 ∧ (quantumShift (n / d) = 0 ∨ 2 ^ 23 ≤ significand n d) := by
  obtain ⟨h1, h2⟩ := quantumShift_spec (n / d)
  obtain ⟨h3, h4⟩ := roundNearestEven_bounds n (d * 2 ^ quantumShift (n / d))
  unfold significand
  rw [← Nat.div_div_eq_div_mul] at h3 h4
  generalize quantumShift (n / d) = k at *
  have h5 : n / d / 2 ^ k < 2 ^ 24 := by
    rw [Nat.div_lt_iff_lt_mul (by positivity), ← Nat.pow_add]; exact h1
  refine ⟨by omega, h2.imp id fun h => le_trans ?_ h3⟩
  rw [Nat.le_div_iff_mul_le (by positivity), ← Nat.pow_add]; exact h

/-- A quotient of at most an odd M rounds beyond M from M + 1/2 on: the tie there is to the even M + 1. -/
theorem roundNearestEven_top (n : Nat) {e M : Nat} (he : 0 < e) (hM : M % 2 = 1) (hq : n / e ≤ M) :
    roundNearestEven n e ≤ M ↔ 2 * n < (2 * M + 1) * e := by
  have hmod := Nat.mod_lt n he
  have hdiv := Nat.div_add_mod n e
  unfold roundNearestEven
  simp only
  generalize n / e = q at *
  generalize n % e = r at *
  have h0 : (2 * M + 1) * e = 2 * (e * M) + e := by ring
  rw [h0]
  rcases Nat.lt_or_ge q M with hq' | hq'
  · have : e * (q + 1) ≤ e * M := Nat.mul_le_mul_left _ hq'
    rw [Nat.mul_add] at this
    refine ⟨fun _ => by omega, fun _ => ?_⟩
    split <;> omega
  · obtain rfl : q = M := by omega
    split <;> constructor <;> intro _ <;> omega

/-- The pattern overflows from half a unit in the last place beyond the largest finite number on: (2^25 - 1) * 2^252
units. -/
theorem significand_overflow (n : Nat) {d : Nat} (hd : 0 < d) :
    significand n d + quantumShift (n / d) * 2 ^ 23 < 0x7F800000 ↔ n < 33554431 * 2 ^ 252 * d := by
  obtain ⟨h1, h2⟩ := quantumShift_spec (n / d)
  obtain ⟨hb1, -⟩ := significand_bounds n d
  rw [← Nat.div_lt_iff_lt_mul hd]
  unfold significand at *
  generalize quantumShift (n / d) = k at *
  have h5 : n / (d * 2 ^ k) < 2 ^ 24 := by
    rw [← Nat.div_div_eq_div_mul, Nat.div_lt_iff_lt_mul (by positivity), ← Nat.pow_add]; exact h1
  have h6 : k = 0 ∨ 2 ^ 23 ≤ n / (d * 2 ^ k) := h2.imp id fun h => by
    rw [← Nat.div_div_eq_div_mul, Nat.le_div_iff_mul_le (by positivity), ← Nat.pow_add]; exact h
  have hrne := (roundNearestEven_bounds n (d * 2 ^ k)).1
  rcases Nat.lt_trichotomy k 253 with h | h | h
  · have h3 : n / d < 2 ^ 24 * 2 ^ 252 :=
      lt_of_lt_of_le h1 (Nat.pow_add 2 24 k ▸ Nat.mul_le_mul_left _ (Nat.pow_le_pow_right (by decide) (by omega)))
    generalize 2 ^ 252 = P at *
    exact ⟨fun _ => by omega, fun _ => by omega⟩
  · have ht : n / d < 33554431 * 2 ^ 252 ↔ 2 * n < 33554431 * (d * 2 ^ k) := by
      rw [Nat.div_lt_iff_lt_mul hd, show 33554431 * (d * 2 ^ k) = 2 * (33554431 * 2 ^ 252 * d) by
        rw [h, show (253 : Nat) = 252 + 1 from rfl, Nat.pow_succ]; ring]
      exact ⟨fun _ => by omega, fun _ => by omega⟩
    rw [ht]
    rw [← roundNearestEven_top n (M := 16777215) (by positivity) (by decide) (Nat.le_of_lt_succ h5)]
    exact ⟨fun _ => by omega, fun _ => by omega⟩
  · have h3 : 2 ^ 25 * 2 ^ 252 ≤ n / d := by
      refine le_trans ?_ (h2.resolve_left (by omega))
      rw [show 23 + k = 25 + (k - 2) by omega, Nat.pow_add 2 25 (k - 2)]
      exact Nat.mul_le_mul_left _ (Nat.pow_le_pow_right (by decide) (by omega))
    generalize 2 ^ 252 = P at *
    exact ⟨fun _ => by omega, fun _ => by omega⟩

theorem roundUnits_eq (neg : Bool) (n d : Nat) :
    roundUnits neg n d = withSign neg (min (significand n d + quantumShift (n / d) * 2 ^ 23) 0x7F800000) := rfl

/-- No integer that is the units of a finite pattern, of either sign, is closer to n / d than the rounded significand on its
quantum. -/
theorem significand_nearest (n : Nat) {d : Nat} (hd : 0 < d) (w : ℤ)
    (hw : (∃ m : ℤ, w = m * 2 ^ quantumShift (n / d)) ∨ w < 2 ^ (23 + quantumShift (n / d))) :
    |(significand n d : ℤ) * 2 ^ quantumShift (n / d) * d - n| ≤ |w * d - n|
      ∧ (|(significand n d : ℤ) * 2 ^ quantumShift (n / d) * d - n| = |w * d - n| →
          w ≠ significand n d * 2 ^ quantumShift (n / d) → significand n d % 2 = 0) := by
  have h2 := (quantumShift_spec (n / d)).2
  have near := roundNearestEven_nearest n (e := d * 2 ^ quantumShift (n / d)) (by positivity)
  rw [show roundNearestEven n (d * 2 ^ quantumShift (n / d)) = significand n d from rfl] at near
  generalize quantumShift (n / d) = k at *
  generalize significand n d = R at *
  have hR : (R : ℤ) * ((d * 2 ^ k : Nat) : ℤ) = R * 2 ^ k * d := by push_cast; ring
  rw [hR] at near
  by_cases hm : ∃ m : ℤ, w = m * 2 ^ k
  · obtain ⟨m, rfl⟩ := hm
    have := near m
    rw [show m * ((d * 2 ^ k : Nat) : ℤ) = m * 2 ^ k * d by push_cast; ring] at this
    exact ⟨this.1, fun h1 h3 => this.2 h1 fun h4 => h3 (by rw [h4])⟩
  · have hw' := hw.resolve_left hm
    have hk : 2 ^ (23 + k) ≤ n / d := by
      rcases h2 with h2 | h2
      · exact absurd ⟨w, by rw [h2]; simp⟩ hm
      · exact h2
    have hn : 2 ^ (23 + k) * d ≤ n := (Nat.le_div_iff_mul_le hd).1 hk
    have hn' : (2 : ℤ) ^ (23 + k) * d ≤ n := by exact_mod_cast hn
    have hwd : w * d < 2 ^ (23 + k) * d := mul_lt_mul_of_pos_right hw' (by exact_mod_cast hd)
    have := (near (2 ^ 23)).1
    rw [show (2 : ℤ) ^ 23 * ((d * 2 ^ k : Nat) : ℤ) = 2 ^ (23 + k) * d by push_cast; rw [pow_add]; ring,
      abs_of_nonpos (a := (2 : ℤ) ^ (23 + k) * d - n) (by linarith)] at this
    have h5 : |w * d - n| = n - w * d := by rw [abs_of_nonpos (by linarith)]; ring
    rw [h5]
    exact ⟨by linarith, fun h => by linarith⟩

/-- R11: `roundUnits` rounds the exact value n / d units, with its sign, once to nearest, ties to even. -/
theorem nearestEven_roundUnits (neg : Bool) (n : Nat) {d : Nat} (hd : 0 < d) :
    nearestEven ((if neg then -((n : ℚ) / d) else (n : ℚ) / d) / 2 ^ 149) (roundUnits neg n d) := by
  have hdq : (0 : ℚ) < d := by exact_mod_cast hd
  have habs : |(if neg then -((n : ℚ) / d) else (n : ℚ) / d) / 2 ^ 149| = (n : ℚ) / d / 2 ^ 149 := by
    rw [abs_div, abs_of_pos (show (0 : ℚ) < 2 ^ 149 by positivity)]
    congr 1
    have : (0 : ℚ) ≤ (n : ℚ) / d := by positivity
    cases neg <;> simp [abs_of_nonneg this]
  have hthr : (n : ℚ) / d / 2 ^ 149 < 2 ^ 128 - 2 ^ 103 ↔ n < 33554431 * 2 ^ 252 * d := by
    rw [div_lt_iff₀ (by positivity), div_lt_iff₀ hdq]
    have : ((2 : ℚ) ^ 128 - 2 ^ 103) * 2 ^ 149 * d = ((33554431 * 2 ^ 252 * d : Nat) : ℚ) := by
      push_cast; ring
    rw [this]; exact_mod_cast Iff.rfl
  have hov := significand_overflow n hd
  unfold nearestEven
  rw [habs, roundUnits_eq]
  split
  · next h =>
    have hlt := hov.2 (hthr.1 h)
    rw [Nat.min_eq_left (by omega)]
    obtain ⟨hb1, hb2⟩ := significand_bounds n d
    have hu := units_assembled neg hb1 hb2 hlt
    have hsg := signOf_withSign neg (significand n d + quantumShift (n / d) * 2 ^ 23) (by omega)
    have hmg := mag_withSign neg (significand n d + quantumShift (n / d) * 2 ^ 23) (by omega)
    refine ⟨by rw [isFinite_iff, hmg]; exact hlt, fun y hy => ?_⟩
    rw [binary32Value_eq, binary32Value_eq, hsg, hu]
    -- the operand's units, signed so that the exact value is on the positive side
    let w : ℤ := if signOf y = neg then units y else -(units y : ℤ)
    have hw : (∃ m : ℤ, w = m * 2 ^ quantumShift (n / d)) ∨ w < 2 ^ (23 + quantumShift (n / d)) := by
      rcases units_grid y (quantumShift (n / d)) with ⟨m, hm⟩ | hlt'
      · refine .inl ⟨if signOf y = neg then m else -(m : ℤ), ?_⟩
        simp only [w, hm]; split <;> push_cast <;> ring
      · right
        have : ((units y : Nat) : ℤ) < 2 ^ (23 + quantumShift (n / d)) := by exact_mod_cast hlt'
        have h0 : (0 : ℤ) < 2 ^ (23 + quantumShift (n / d)) := by positivity
        simp only [w]; split <;> omega
    obtain ⟨near, tie⟩ := significand_nearest n hd w hw
    generalize quantumShift (n / d) = k at *
    generalize hRdef : significand n d = R at *
    have scale : ∀ z : ℤ, |(z : ℚ) / 2 ^ 149 - (n : ℚ) / d / 2 ^ 149| = ((|z * d - n| : ℤ) : ℚ) / (d * 2 ^ 149) := by
      intro z
      rw [show (z : ℚ) / 2 ^ 149 - (n : ℚ) / d / 2 ^ 149 = ((z * d - n : ℤ) : ℚ) / (d * 2 ^ 149) by
        push_cast; field_simp, abs_div, abs_of_pos (show (0 : ℚ) < d * 2 ^ 149 by positivity), Int.cast_abs]
    have flip : ∀ u : ℚ, ∀ b : Bool,
        |(if b then -u else u) / 2 ^ 149 - (if neg then -((n : ℚ) / d) else (n : ℚ) / d) / 2 ^ 149|
          = |(if b = neg then u else -u) / 2 ^ 149 - (n : ℚ) / d / 2 ^ 149| := by
      intro u b
      cases b <;> cases neg <;> simp
      · rw [← abs_neg]; congr 1; ring
      · rw [← abs_neg]; congr 1; ring
    have hwq : (if signOf y = neg then (units y : ℚ) else -(units y : ℚ)) = ((w : ℤ) : ℚ) := by
      simp only [w]; split <;> simp
    have hRq : (((R * 2 ^ k : Nat) : ℚ)) = (((R : ℤ) * 2 ^ k : ℤ) : ℚ) := by push_cast; rfl
    rw [flip, flip, if_pos rfl, hwq, hRq, scale, scale]
    have hpos : (0 : ℚ) < d * 2 ^ 149 := by positivity
    refine ⟨by rw [div_le_div_iff_of_pos_right hpos]; exact_mod_cast near, fun heq hne => ?_⟩
    have heq' : |(R : ℤ) * 2 ^ k * d - n| = |w * d - n| := by
      have := (div_left_inj' hpos.ne').1 heq
      exact_mod_cast this
    have hne' : w ≠ R * 2 ^ k := by
      intro hw2
      apply hne
      have h1 : (if signOf y = neg then (units y : ℚ) else -(units y : ℚ)) = ((R * 2 ^ k : Nat) : ℚ) := by
        rw [hwq, hw2, hRq]
      have h2 : (if signOf y then -(units y : ℚ) else units y)
          = if neg then -((R * 2 ^ k : Nat) : ℚ) else ((R * 2 ^ k : Nat) : ℚ) := by
        rw [← h1]; cases signOf y <;> cases neg <;> simp
      rw [h2, hRq]
    have hev := tie heq' hne'
    have : (withSign neg (R + k * 2 ^ 23)).toNat % 2 = 0 := by
      rw [show (withSign neg (R + k * 2 ^ 23)).toNat % 2 = mag (withSign neg (R + k * 2 ^ 23)) % 2 by
        unfold mag; omega, hmg]
      omega
    simpa [BitVec.getLsbD, Nat.testBit_zero] using this
  · next h =>
    have hge := fun h' => h (hthr.2 (hov.1 h'))
    rw [Nat.min_eq_right (Nat.le_of_not_lt hge)]
    have hn : 0 < n := by
      rcases Nat.eq_zero_or_pos n with rfl | hn
      · exact absurd (hthr.2 (Nat.mul_pos (by positivity) hd)) h
      · exact hn
    have hv : (0 : ℚ) < (n : ℚ) / d := by
      have : (0 : ℚ) < n := by exact_mod_cast hn
      positivity
    cases neg
    · have : ¬ (n : ℚ) / d / 2 ^ 149 < 0 := not_lt.2 (by positivity)
      rw [if_neg Bool.false_ne_true, if_neg this]; decide
    · have : -((n : ℚ) / d) / 2 ^ 149 < 0 := by
        rw [neg_div]; exact neg_neg_of_pos (by positivity)
      rw [if_pos rfl, if_pos this]; decide

end Sys2Proof.Machine
end

