-- ==== Sys2Proof/Laws/Units.lean ====
section
/-! SUPPORT. Lemmas of the function units (R17): the order of patterns, what holding a value between two bounds can do, and
that a unit built by `shapeUnit` is never NaN on a number and non-decreasing, whatever its curve. -/

namespace Sys2Proof.Machine

theorem orderKey_eq (x : F32) : orderKey x = if signOf x then -(mag x : Int) else (mag x : Int) := rfl

theorem isNaN_iff_orderKey (x : F32) :
    isNaN x = false ↔ -0x7F800000 ≤ orderKey x ∧ orderKey x ≤ 0x7F800000 := by
  have := isNaN_iff x
  rw [← Bool.not_eq_true, this, orderKey_eq]
  split <;> omega

/-- R14: on numbers `<=` is the order of the places. -/
theorem fle_iff {x y : F32} (hx : isNaN x = false) (hy : isNaN y = false) :
    fle x y = true ↔ orderKey x ≤ orderKey y := by
  simp [fle, hx, hy]

theorem flt_iff {x y : F32} (hx : isNaN x = false) (hy : isNaN y = false) :
    flt x y = true ↔ orderKey x < orderKey y := by
  simp [flt, hx, hy]

theorem feq_iff {x y : F32} (hx : isNaN x = false) (hy : isNaN y = false) :
    feq x y = true ↔ orderKey x = orderKey y := by
  simp [feq, hx, hy]

theorem orderKey_fneg (x : F32) : orderKey (fneg x) = -orderKey x := by
  rw [orderKey_eq, orderKey_eq, signOf_fneg, mag_fneg]
  cases signOf x <;> simp

theorem mag_eq_zero_iff_orderKey (x : F32) : mag x = 0 ↔ orderKey x = 0 := by
  rw [orderKey_eq]; split <;> omega

/-- A held value lies between its bounds. -/
theorem clampTo_between {lo hi : F32} (h : orderKey lo ≤ orderKey hi) (r : F32) :
    orderKey lo ≤ orderKey (clampTo lo hi r) ∧ orderKey (clampTo lo hi r) ≤ orderKey hi := by
  unfold clampTo
  split
  · exact ⟨le_refl _, h⟩
  · split
    · exact ⟨h, le_refl _⟩
    · omega

/-- A held value rises with the bounds and with the value. -/
theorem clampTo_mono {lo lo' hi hi' r r' : F32} (h' : orderKey lo' ≤ orderKey hi')
    (hlo : orderKey lo ≤ orderKey lo') (hhi : orderKey hi ≤ orderKey hi') (hr : orderKey r ≤ orderKey r') :
    orderKey (clampTo lo hi r) ≤ orderKey (clampTo lo' hi' r') := by
  unfold clampTo
  split_ifs <;> omega

/-- The required values of a unit rise, lie between its bounds, and none is a NaN. -/
structure PinsRise (pins : List Pin) (bottom top : F32) : Prop where
  rise : pins.Pairwise fun p q => orderKey p.1 < orderKey q.1 ∧ orderKey p.2 ≤ orderKey q.2
  numbers : ∀ p ∈ pins, isNaN p.1 = false
  within : ∀ p ∈ pins, orderKey bottom ≤ orderKey p.2 ∧ orderKey p.2 ≤ orderKey top
  bounds : isNaN bottom = false ∧ isNaN top = false ∧ orderKey bottom ≤ orderKey top

/-- The conditions on the required values as checks that evaluate. -/
theorem PinsRise.of_checks {pins : List Pin} {bottom top : F32}
    (rise : pins.Pairwise fun p q => orderKey p.1 < orderKey q.1 ∧ orderKey p.2 ≤ orderKey q.2)
    (each : (pins.all fun p => !isNaN p.1 && decide (orderKey bottom ≤ orderKey p.2)
      && decide (orderKey p.2 ≤ orderKey top)) = true)
    (bounds : isNaN bottom = false ∧ isNaN top = false ∧ orderKey bottom ≤ orderKey top) :
    PinsRise pins bottom top := by
  simp only [List.all_eq_true, Bool.and_eq_true, Bool.not_eq_true', decide_eq_true_eq] at each
  exact ⟨rise, fun p hp => (each p hp).1.1, fun p hp => ⟨(each p hp).1.2, (each p hp).2⟩, bounds⟩

theorem tanhPins_rise : PinsRise tanhPins posZero fOne :=
  .of_checks (by decide +kernel) (by decide +kernel) (by decide +kernel)

theorem atanPins_rise : PinsRise atanPins posZero 0x3FC90FDB :=
  .of_checks (by decide +kernel) (by decide +kernel) (by decide +kernel)

theorem expPins_rise : PinsRise expPins posZero posInf :=
  .of_checks (by decide +kernel) (by decide +kernel) (by decide +kernel)

theorem log10Pins_rise : PinsRise log10Pins negInf posInf :=
  .of_checks (by decide +kernel) (by decide +kernel) (by decide +kernel)

theorem pow10Pins_rise : PinsRise pow10Pins posZero posInf :=
  .of_checks (by decide +kernel) (by decide +kernel) (by decide +kernel)

/-- The bound from below is the unit's own or a required value at or below the operand, and no smaller than any of
these. -/
theorem pinBelow_spec {pins : List Pin} {bottom x : F32} (hx : isNaN x = false)
    (hn : ∀ p ∈ pins, isNaN p.1 = false) (hr : pins.Pairwise fun p q => orderKey p.2 ≤ orderKey q.2) :
    (pinBelow pins bottom x = bottom ∨ ∃ p ∈ pins, orderKey p.1 ≤ orderKey x ∧ pinBelow pins bottom x = p.2)
      ∧ ∀ p ∈ pins, orderKey p.1 ≤ orderKey x → orderKey p.2 ≤ orderKey (pinBelow pins bottom x) := by
  induction pins generalizing bottom with
  | nil => simp [pinBelow]
  | cons a as ih =>
    rw [List.pairwise_cons] at hr
    have ha : fle a.1 x = true ↔ orderKey a.1 ≤ orderKey x := fle_iff (hn a (by simp)) hx
    obtain ⟨h1, h2⟩ := ih (bottom := if fle a.1 x then a.2 else bottom) (fun p hp => hn p (by simp [hp])) hr.2
    have he : pinBelow (a :: as) bottom x = pinBelow as (if fle a.1 x then a.2 else bottom) x := rfl
    rw [he]
    refine ⟨?_, ?_⟩
    · rcases h1 with h1 | ⟨p, hp, hpx, h1⟩
      · rw [h1]
        split
        · next h => exact .inr ⟨a, by simp, ha.1 h, rfl⟩
        · exact .inl rfl
      · exact .inr ⟨p, by simp [hp], hpx, h1⟩
    · intro p hp hpx
      rcases List.mem_cons.1 hp with rfl | hp
      · rcases h1 with h1 | ⟨q, hq, -, h1⟩
        · rw [h1, if_pos (ha.2 hpx)]
        · rw [h1]; exact hr.1 q hq
      · exact h2 p hp hpx

/-- The bound from above is the unit's own or a required value at or above the operand, and no larger than any of
these. -/
theorem pinAbove_spec {pins : List Pin} {top x : F32} (hx : isNaN x = false)
    (hn : ∀ p ∈ pins, isNaN p.1 = false) (hr : pins.Pairwise fun p q => orderKey p.2 ≤ orderKey q.2) :
    (pinAbove pins top x = top ∨ ∃ p ∈ pins, orderKey x ≤ orderKey p.1 ∧ pinAbove pins top x = p.2)
      ∧ ∀ p ∈ pins, orderKey x ≤ orderKey p.1 → orderKey (pinAbove pins top x) ≤ orderKey p.2 := by
  induction pins with
  | nil => simp [pinAbove]
  | cons a as ih =>
    rw [List.pairwise_cons] at hr
    have ha : fle x a.1 = true ↔ orderKey x ≤ orderKey a.1 := fle_iff hx (hn a (by simp))
    obtain ⟨h1, h2⟩ := ih (fun p hp => hn p (by simp [hp])) hr.2
    have he : pinAbove (a :: as) top x = if fle x a.1 then a.2 else pinAbove as top x := rfl
    rw [he]
    split
    · next h =>
      refine ⟨.inr ⟨a, by simp, ha.1 h, rfl⟩, ?_⟩
      intro p hp _
      rcases List.mem_cons.1 hp with rfl | hp
      · exact le_refl _
      · exact hr.1 p hp
    · next h =>
      refine ⟨?_, ?_⟩
      · rcases h1 with h1 | ⟨p, hp, hpx, h1⟩
        · exact .inl h1
        · exact .inr ⟨p, by simp [hp], hpx, h1⟩
      · intro p hp hpx
        rcases List.mem_cons.1 hp with rfl | hp
        · exact absurd (ha.2 hpx) h
        · exact h2 p hp hpx

/-- The required value of a larger operand is no smaller. -/
theorem PinsRise.results {pins : List Pin} {bottom top : F32} (h : PinsRise pins bottom top) :
    pins.Pairwise fun p q => orderKey p.2 ≤ orderKey q.2 := h.rise.imp fun h => h.2

theorem PinsRise.mono {pins : List Pin} {bottom top : F32} (h : PinsRise pins bottom top) {p q : Pin}
    (hp : p ∈ pins) (hq : q ∈ pins) (hpq : orderKey p.1 ≤ orderKey q.1) : orderKey p.2 ≤ orderKey q.2 := by
  have := h.rise
  clear h
  induction pins with
  | nil => simp at hp
  | cons a as ih =>
    rw [List.pairwise_cons] at this
    rcases List.mem_cons.1 hp with rfl | hp' <;> rcases List.mem_cons.1 hq with rfl | hq'
    · exact le_refl _
    · exact (this.1 q hq').2
    · have := (this.1 p hp').1; omega
    · exact ih hp' hq' this.2

theorem pinBelow_le_pinAbove {pins : List Pin} {bottom top x : F32} (h : PinsRise pins bottom top)
    (hx : isNaN x = false) : orderKey (pinBelow pins bottom x) ≤ orderKey (pinAbove pins top x) := by
  obtain ⟨hb, -⟩ := pinBelow_spec (bottom := bottom) hx h.numbers h.results
  obtain ⟨ha, -⟩ := pinAbove_spec (top := top) hx h.numbers h.results
  rcases hb with hb | ⟨p, hp, hpx, hb⟩ <;> rcases ha with ha | ⟨q, hq, hqx, ha⟩ <;> rw [hb, ha]
  · exact h.bounds.2.2
  · exact (h.within q hq).1
  · exact (h.within p hp).2
  · exact h.mono hp hq (by omega)

/-- On a number a unit gives a required value of that operand, or the curve's value held between the required values
around it. -/
theorem shapeUnit_cases {pins : List Pin} {bottom top x : F32} {curve : Config.Curve} (h : PinsRise pins bottom top)
    (hx : isNaN x = false) :
    (∃ p ∈ pins, orderKey p.1 = orderKey x ∧ shapeUnit pins bottom top curve x = p.2)
      ∨ shapeUnit pins bottom top curve x
          = clampTo (pinBelow pins bottom x) (pinAbove pins top x) (curve.raw x) := by
  unfold shapeUnit
  simp only [hx, Bool.false_eq_true, if_false]
  split
  · next p hp =>
    have hm := List.mem_of_find?_eq_some hp
    exact .inl ⟨p, hm, (feq_iff (h.numbers p hm) hx).1 (by simpa using List.find?_some hp), rfl⟩
  · exact .inr rfl

/-- A unit lies between the required values around its operand. -/
theorem shapeUnit_between {pins : List Pin} {bottom top x : F32} {curve : Config.Curve} (h : PinsRise pins bottom top)
    (hx : isNaN x = false) :
    orderKey (pinBelow pins bottom x) ≤ orderKey (shapeUnit pins bottom top curve x)
      ∧ orderKey (shapeUnit pins bottom top curve x) ≤ orderKey (pinAbove pins top x) := by
  rcases shapeUnit_cases (curve := curve) h hx with ⟨p, hp, hpx, he⟩ | he
  · obtain ⟨hb, -⟩ := pinBelow_spec (bottom := bottom) hx h.numbers h.results
    obtain ⟨ha, -⟩ := pinAbove_spec (top := top) hx h.numbers h.results
    rw [he]
    constructor
    · rcases hb with hb | ⟨q, hq, hqx, hb⟩ <;> rw [hb]
      · exact (h.within p hp).1
      · exact h.mono hq hp (by omega)
    · rcases ha with ha | ⟨q, hq, hqx, ha⟩ <;> rw [ha]
      · exact (h.within p hp).2
      · exact h.mono hp hq (by omega)
  · rw [he]; exact clampTo_between (pinBelow_le_pinAbove h hx) _

/-- A unit lies between its own bounds. -/
theorem shapeUnit_bounds {pins : List Pin} {bottom top x : F32} {curve : Config.Curve} (h : PinsRise pins bottom top)
    (hx : isNaN x = false) :
    orderKey bottom ≤ orderKey (shapeUnit pins bottom top curve x)
      ∧ orderKey (shapeUnit pins bottom top curve x) ≤ orderKey top := by
  obtain ⟨hb, -⟩ := pinBelow_spec (bottom := bottom) hx h.numbers h.results
  obtain ⟨ha, -⟩ := pinAbove_spec (top := top) hx h.numbers h.results
  obtain ⟨h1, h2⟩ := shapeUnit_between (curve := curve) h hx
  constructor
  · rcases hb with hb | ⟨p, hp, -, hb⟩ <;> rw [hb] at h1
    · exact h1
    · exact le_trans (h.within p hp).1 h1
  · rcases ha with ha | ⟨p, hp, -, ha⟩ <;> rw [ha] at h2
    · exact h2
    · exact le_trans h2 (h.within p hp).2

/-- R17: a unit of a number is a number. -/
theorem isNaN_shapeUnit {pins : List Pin} {bottom top x : F32} {curve : Config.Curve} (h : PinsRise pins bottom top)
    (hx : isNaN x = false) : isNaN (shapeUnit pins bottom top curve x) = false := by
  have := shapeUnit_bounds (curve := curve) h hx
  have hb := (isNaN_iff_orderKey bottom).1 h.bounds.1
  have ht := (isNaN_iff_orderKey top).1 h.bounds.2.1
  exact (isNaN_iff_orderKey _).2 ⟨by omega, by omega⟩

/-- R17: a unit is non-decreasing, whatever its curve. -/
theorem shapeUnit_mono {pins : List Pin} {bottom top x y : F32} {curve : Config.Curve} (h : PinsRise pins bottom top)
    (hx : isNaN x = false) (hy : isNaN y = false) (hxy : orderKey x ≤ orderKey y) :
    orderKey (shapeUnit pins bottom top curve x) ≤ orderKey (shapeUnit pins bottom top curve y) := by
  obtain ⟨hbx, -⟩ := pinBelow_spec (bottom := bottom) hx h.numbers h.results
  obtain ⟨-, hby⟩ := pinBelow_spec (bottom := bottom) hy h.numbers h.results
  obtain ⟨-, hax⟩ := pinAbove_spec (top := top) hx h.numbers h.results
  obtain ⟨hay, -⟩ := pinAbove_spec (top := top) hy h.numbers h.results
  have bx := shapeUnit_between (curve := curve) h hx
  have by' := shapeUnit_between (curve := curve) h hy
  rcases shapeUnit_cases (curve := curve) h hx with ⟨p, hp, hpx, he⟩ | he
  · rw [he]
    exact le_trans (hby p hp (by omega)) by'.1
  · rcases shapeUnit_cases (curve := curve) h hy with ⟨q, hq, hqy, he'⟩ | he'
    · rw [he']
      exact le_trans bx.2 (hax q hq (by omega))
    · rw [he, he']
      refine clampTo_mono (pinBelow_le_pinAbove h hy) ?_ ?_ (curve.nonDecreasing x y hxy)
      · rcases hbx with hbx | ⟨p, hp, hpx, hbx⟩ <;> rw [hbx]
        · have := pinBelow_spec (bottom := bottom) hy h.numbers h.results
          rcases this.1 with hb | ⟨q, hq, -, hb⟩ <;> rw [hb]
          exact (h.within q hq).1
        · exact hby p hp (by omega)
      · rcases hay with hay | ⟨q, hq, hqy, hay⟩ <;> rw [hay]
        · have := pinAbove_spec (top := top) hx h.numbers h.results
          rcases this.1 with ha | ⟨q, hq, -, ha⟩ <;> rw [ha]
          exact (h.within q hq).2
        · exact hax q hq (by omega)

/-- A unit takes each required value at its operand. -/
theorem shapeUnit_pin {pins : List Pin} {bottom top x : F32} {curve : Config.Curve} (h : PinsRise pins bottom top)
    {p : Pin} (hp : p ∈ pins) (hx : isNaN x = false) (hpx : orderKey p.1 = orderKey x) :
    orderKey (shapeUnit pins bottom top curve x) = orderKey p.2 := by
  obtain ⟨-, hb⟩ := pinBelow_spec (bottom := bottom) hx h.numbers h.results
  obtain ⟨-, ha⟩ := pinAbove_spec (top := top) hx h.numbers h.results
  have := shapeUnit_between (curve := curve) h hx
  have := hb p hp (by omega)
  have := ha p hp (by omega)
  omega

/-- What `atLeast` gives: the value itself, or the least value where it is a zero. -/
theorem atLeast_cases (least r : F32) :
    (orderKey r = 0 ∧ atLeast least r = least) ∨ (orderKey r ≠ 0 ∧ atLeast least r = r) := by
  unfold atLeast
  have := mag_eq_zero_iff_orderKey r
  split <;> simp_all

/-- A value that is not negative, held to POW10's least value: positive, or +0 at an operand that underflows. -/
theorem atLeast_pow10Least (x : F32) {r : F32} (hr : 0 ≤ orderKey r) :
    0 < orderKey (atLeast (pow10Least x) r)
      ∨ (atLeast (pow10Least x) r = posZero ∧ flt pow10Underflow x = false) := by
  have h1 : 0 < orderKey 0x00000001#32 := by decide
  rcases atLeast_cases (pow10Least x) r with ⟨-, he⟩ | ⟨h, he⟩
  · rw [he]
    unfold pow10Least
    split
    · exact .inl h1
    · next h => exact .inr ⟨rfl, Bool.eq_false_of_not_eq_true h⟩
  · rw [he]; exact .inl (by omega)

/-- R17 and I22: POW10 of a number is positive, or it is +0 where the power of ten underflows. -/
theorem fPow10_positive {x : F32} (hx : isNaN x = false) :
    0 < orderKey (fPow10 x) ∨ (fPow10 x = posZero ∧ flt pow10Underflow x = false) :=
  atLeast_pow10Least x (shapeUnit_bounds pow10Pins_rise hx).1

end Sys2Proof.Machine
end

