-- ==== Sys2Proof/Tests/Slice0.lean ====
section
/-! SUPPORT. The model's own checks: the well-formedness smoke test, words written out from the spec's formats, one-step vectors
of 95_test_vectors.md and of the rules' examples that hold for every admissible function unit, and for each obligation with
premises a concrete case that meets them. -/

namespace Sys2Proof.Machine.Tests

set_option Elab.async false

/-- The test preset TP of 95_test_vectors.md section 1. -/
def tp : Record := recordOfWords fun i =>
  [0x3F000000, 0x3F7F8000, 0x3E800000, 0x3F000000, 0x3E800000, 0x3F800000, 0, 0x3F000000, 0, 0x3E000000, 0, 0x3F800000,
    0x3F400000, 0x3F200000, 0x3E000000, 0x3F800000, 0x3F000000, 0x3F800000, 0x3F800000, 0x3F800000, 0x3F000000,
    0x3E800000, 0x3F000000, 0x3F300000].getD i 0#32

/-- A channel in Gold, Luminescent with TP and P = 0.5. -/
def goldTs : TsRegs :=
  { rate := 44100, scale := fOne, mode := 1, proc := 0x3F000000, autoGain := 0x3F360B61, s := 0, prev := 0, env := 0,
    acb := tp }

/-- The BusCompressor at its reset values but for instantaneous attack and release, so that no value is open. -/
def plainBc : BcRegs :=
  { rate := 44100, block := 512, nch := 2, thresh := 0, ratio := fOne, attack := 0, release := 0, makeup := 0, flags := 0,
    drive := 0, link := fOne, knee := 0x3F4CCCCD, boost := 0, scFreq := 0x43160000, dcAmp := 0, lfsr := 1, dcOff := 0,
    alphaA := 0, alphaR := 0, alphaSc := 0x3F7AA4B6, env := 0, scx := 0, scy := 0, lastGr := 0 }

/-- A state of literals with the given operands. -/
def demo (a0 a1 : Word) : State :=
  { err := ⟨0, 0, 0, 0⟩, a0 := a0, a1 := a1, r0 := 0x11111111, r1 := 0x22222222, cp := ⟨0, fOne, 0, fOne⟩, ts0 := goldTs,
    ts1 := goldTs, bc := plainBc, pram := [], pending := [], resp := .idle }

/-- The state with inputs to come. -/
def inputs (p : List HostInput) (s : State) : State := { s with pending := p }

/-- Whether an outcome is a next state of which p holds. -/
def nextIs (o : Host.Outcome State Fault Refusal) (p : State → Bool) : Bool :=
  match o with
  | .next t => p t
  | .fault _ => false
  | .refused _ => false

/-! ## Well-formedness: an empty channel mask is refused, nothing else is -/

theorem test_wf_tsSetRate : (Instr.tsSetRate 0).wellFormed = false ∧ (Instr.tsSetRate 3).wellFormed = true := by decide
theorem test_wf_tsSetProc : (Instr.tsSetProc 0).wellFormed = false ∧ (Instr.tsSetProc 3).wellFormed = true := by decide
theorem test_wf_tsReset : (Instr.tsReset 0).wellFormed = false ∧ (Instr.tsReset 3).wellFormed = true := by decide
theorem test_wf_tsSatEval : (Instr.tsSatEval 0).wellFormed = false ∧ (Instr.tsSatEval 3).wellFormed = true := by decide
theorem test_wf_tsSetMode : (Instr.tsSetMode 0 1 1).wellFormed = false ∧ (Instr.tsSetMode 1 3 7).wellFormed = true := by
  decide
theorem test_wf_tsProcess : (Instr.tsProcess 0 true).wellFormed = false ∧ (Instr.tsProcess 2 true).wellFormed = true := by
  decide
theorem test_wf_bcPrepare : (Instr.bcPrepare 0).wellFormed = true := by decide

/-! ## Decoding: words written out from the formats of R202 and the opcodes of R204 -/

theorem test_decode_tone_shaper :
    decode 0b0000000000000000000000_11_00010000 = .ok (.tsSetRate 3)
    ∧ decode 0b00000000000000000_100_10_01_00010001 = .ok (.tsSetMode 1 2 4)
    ∧ decode 0b0000000000000000000000_10_00010010 = .ok (.tsSetProc 2)
    ∧ decode 0b0000000000000000000000_01_00010011 = .ok (.tsReset 1)
    ∧ decode 0b000000000000000000000_1_10_00010100 = .ok (.tsProcess 2 true)
    ∧ decode 0b0000000000000000000000_10_00010101 = .ok (.tsSatEval 2) := by decide +kernel
theorem test_decode_plain :
    decode 0x00 = .ok .nop ∧ decode 0x18 = .ok .cpSetInTrim ∧ decode 0x19 = .ok .cpSetOutTrim
    ∧ decode 0x20 = .ok .msEncode ∧ decode 0x21 = .ok .msDecode := by decide +kernel
theorem test_decode_bus_config :
    decode 0b0000000000000000000000_01_00110000 = .ok (.bcPrepare 1)
    ∧ decode 0x31 = .ok .bcSetThresh ∧ decode 0x32 = .ok .bcSetRatio ∧ decode 0x33 = .ok .bcSetAttack
    ∧ decode 0x34 = .ok .bcSetRelease ∧ decode 0x35 = .ok .bcSetMakeup
    ∧ decode 0b00000000000000000000_1_0_00_00110110 = .ok (.bcSetFlags false true)
    ∧ decode 0b00000000000000000000_0_1_00_00110110 = .ok (.bcSetFlags true false)
    ∧ decode 0x37 = .ok .bcSetDrive ∧ decode 0x38 = .ok .bcSetLink ∧ decode 0x39 = .ok .bcSetSatKnee
    ∧ decode 0x3A = .ok .bcSetBoost ∧ decode 0x3B = .ok .bcSetScFreq ∧ decode 0x3C = .ok .bcSetDcAmp
    ∧ decode 0x3D = .ok .bcSetDcSeed := by decide +kernel
theorem test_decode_bus_stream :
    decode 0x3E = .ok .bcReset ∧ decode 0x40 = .ok .bcBlockBegin ∧ decode 0x41 = .ok .bcFrame
    ∧ decode 0x42 = .ok .bcBlockEnd := by decide +kernel
theorem test_decode_unknown :
    decode 0x01 = .error .unknownOpcode ∧ decode 0x16 = .error .unknownOpcode ∧ decode 0x3F = .error .unknownOpcode
    ∧ decode 0x43 = .error .unknownOpcode ∧ decode 0xFFFFFFFF = .error .unknownOpcode := by decide +kernel
theorem test_decode_reserved :
    decode 0x00000100 = .error .reservedBits ∧ decode 0x00000510 = .error .reservedBits
    ∧ decode 0x00008311 = .error .reservedBits ∧ decode 0x00000B14 = .error .reservedBits
    ∧ decode 0x00000430 = .error .reservedBits ∧ decode 0x00000136 = .error .reservedBits
    ∧ decode 0x00001036 = .error .reservedBits ∧ decode 0x80000041 = .error .reservedBits := by decide +kernel
/-- R455: a reserved bit is found before an empty mask. -/
theorem test_decode_empty_mask :
    decode 0x00000010 = .error .emptyMask ∧ decode 0x00007C11 = .error .emptyMask
    ∧ decode 0x00000414 = .error .emptyMask ∧ decode 0x00000410 = .error .reservedBits := by decide +kernel
/-- R155: the lowest address holds bits 7:0. -/
theorem test_decode_bytes :
    decodeBytes [0x11, 0x07, 0x00, 0x00] = .ok (.tsSetMode 3 1 0)
    ∧ decodeBytes [0x11, 0x07, 0x00] = .error .notOneWord := by decide +kernel
theorem test_decode_table_word :
    decodeTableWord 32 0x711 = some (.tsSetMode 3 1 0) ∧ decodeTableWord 32 0x110 = some (.tsSetRate 1)
    ∧ decodeTableWord 8 0x42 = some .bcBlockEnd ∧ decodeTableWord 32 0x10 = none := by decide +kernel

/-! ## Steps from the reset state -/

theorem test_step_reset_nop :
    step (State.reset.withFetchWord 32 0x00) = .next { State.reset with resp := .writeDone false } := rfl
theorem test_step_reset_prepare :
    nextIs (step (State.reset.withFetchWord 32 0x230)) (fun t => t.err.status == 2 && t.err.cmd == 0x230) = true := by
  decide +kernel
theorem test_step_reset_flags :
    nextIs (step (State.reset.withFetchWord 32 0xC36)) (fun t => t.bc.flags == 3) = true := by decide +kernel

/-! ## The host port -/

/-- R453's example. -/
theorem test_write_r0 :
    nextIs (memWrite 0x0028 4 5 (demo 0 0))
      (fun t => t.err == ⟨4, 3, 0, 0x28⟩ && t.r0 == 0x11111111 && t.resp == .writeDone true) = true := by decide +kernel
theorem test_write_a1 : nextIs (memWrite 0x0024 4 0xFFC00001 (demo 0 0)) (fun t => t.a1 == 0xFFC00001) = true := by
  decide +kernel
/-- A misaligned, a narrow and an unmapped read. -/
theorem test_read_bus_errors :
    (memRead 0x0002 4 (demo 0 0)).err == ⟨4, 3, 0, 2⟩ && (memRead 0x0020 2 (demo 7 0)).resp == .readData 0 true
      && (memRead 0x1780 4 (demo 0 0)).err.addr == 0x1780 := by decide +kernel
theorem test_read_registers :
    (memRead 0x0000 4 (demo 0 0)).resp == .readData 0x52474C58 false
      && (memRead 0x0018 4 (demo 0 0)).resp == .readData 0 false
      && (memRead 0x0154 4 { demo 0 0 with ts1 := { goldTs with s := 9 } }).resp == .readData 9 false
      && (memRead 0x02DC 4 (demo 0 0)).resp == .readData 0x3F300000 false
      && (memRead 0x034C 4 (demo 0 0)).resp == .readData 0x3F7AA4B6 false := by decide +kernel
/-- R155, R70: word 479's bytes, little-endian, at 0x177C to 0x177F. -/
theorem test_read_preset_ram :
    (memRead 0x177C 4 { demo 0 0 with pram := [(0x177C, 1), (0x177D, 2), (0x177E, 3), (0x177F, 4)] }).resp
      == .readData 0x04030201 false := by decide +kernel
/-- A CMD write that is a BusError executes nothing (R453). -/
theorem test_narrow_command :
    nextIs (memWrite 0x0018 2 0x3D (demo 5 0)) (fun t => t.bc.lfsr == 1 && t.err.addr == 0x18) = true := by
  decide +kernel
/-- R451's example. -/
theorem test_illegal :
    nextIs (execute 0x01 (demo 0 0)) (fun t => t.err == ⟨1, 1, 1, 0⟩ && t.r0 == 0x11111111) = true := by decide +kernel

/-! ## One command each: the rules' examples and the vectors of 95_test_vectors.md -/

/-- R270's example. -/
theorem test_ts_set_rate :
    nextIs (exec (.tsSetRate 3) (demo 48000 0))
      (fun t => t.ts0.rate == 48000 && t.ts0.scale == 0x3F000000 && t.ts1.scale == 0x3F000000) = true := by decide +kernel
/-- R270: 1/3 at 96 kHz; zero is refused. -/
theorem test_ts_set_rate_edges :
    rateScale 96000 = 0x3EAAAAAB ∧ rateMultiple 0xFFFFFFFF = 97392
    ∧ nextIs (exec (.tsSetRate 1) (demo 0 0)) (fun t => t == refused 0x110 (demo 0 0)) = true := by decide +kernel
/-- R271's example: record 5 starts at 0x1280. -/
theorem test_ts_set_mode :
    nextIs (exec (.tsSetMode 3 1 0)
        { demo 0 0 with pram := [(0x1280, 0x78), (0x1281, 0x56), (0x1282, 0x34), (0x1283, 0x12)] })
      (fun t => t.ts0.mode == 1 && t.ts0.acb.hpf == 0x12345678 && t.ts1.acb.hpf == 0x12345678) = true := by decide +kernel
theorem test_ts_set_mode_refused :
    nextIs (exec (.tsSetMode 1 3 0) (demo 0 0)) (fun t => t == refused 0xD11 (demo 0 0)) = true
    ∧ nextIs (exec (.tsSetMode 1 0 5) (demo 0 0)) (fun t => t == refused 0x5111 (demo 0 0)) = true := by decide +kernel
/-- R272's example, and P = 1.0 with the boost of R275's. -/
theorem test_ts_set_proc :
    nextIs (exec (.tsSetProc 3) (demo 0x3F000000 0)) (fun t => t.ts1.autoGain == 0x3F360B61) = true
    ∧ nextIs (exec (.tsSetProc 1) (demo fOne 0)) (fun t => t.ts0.autoGain == 0x3F1DDDDE) = true := by decide +kernel
/-- R272: -0.0 is stored as it is, 50.0 is refused. -/
theorem test_ts_set_proc_edges :
    nextIs (exec (.tsSetProc 1) (demo 0x80000000 0)) (fun t => t.ts0.proc == 0x80000000) = true
    ∧ nextIs (exec (.tsSetProc 1) (demo 0x42480000 0)) (fun t => t == refused 0x112 (demo 0x42480000 0)) = true := by decide +kernel
/-- R273's example. -/
theorem test_ts_reset :
    nextIs (exec (.tsReset 1)
        { demo 0 0 with ts0 := { goldTs with s := 1, prev := 2, env := 3 }, ts1 := { goldTs with s := 4 } })
      (fun t => t.ts0 == goldTs && t.ts1.s == 4) = true := by decide +kernel
/-- R274's example. -/
theorem test_ts_process :
    nextIs (exec (.tsProcess 3 false) (demo 0x3F800000 0xBF800000))
      (fun t => t.r0 == 0x3F018050 && t.r1 == 0xBEEDF4F6 && t.err.status == 0) = true := by decide +kernel
/-- R283: a NaN is repaired on channel 1 and the result is NaN; channel 0 is not touched. -/
theorem test_ts_process_nan :
    nextIs (exec (.tsProcess 2 true) (demo 0x3F800000 0xFFC00001))
      (fun t => t.r0 == 0x11111111 && t.r1 == 0x7FC00000 && t.ts1.prev == 0 && t.err == ⟨16, 5, 0, 0⟩) = true := by
  decide +kernel
/-- R326's example; family T (TP with TR) from R324's. -/
theorem test_ts_sat_eval :
    nextIs (exec (.tsSatEval 2) (demo 0 0xC0000000)) (fun t => t.r1 == 0xBF040000 && t.r0 == 0x11111111) = true
    ∧ sat 0 { tp with flags := 2 } 0x40000000 = 0x3F600000 := by decide +kernel
/-- R322's examples. -/
theorem test_sat_b :
    satB tp 0x3F000000 = 0x3EAD097C ∧ satB tp 0xBF000000 = 0xBE810000 ∧ satB tp 0x40000000 = 0x3F3425ED
    ∧ satB tp 0x40800000 = 0x3F5D2F1B ∧ satB tp 0x7F800000 = 0x7FC00000 := by decide +kernel
/-- R351's corner case -0.0 on the input trim; infinity is refused. -/
theorem test_cp_set_in_trim :
    nextIs (exec .cpSetInTrim (demo 0x80000000 0)) (fun t => t.cp.inDb == 0x80000000 && t.cp.inGain == fOne) = true
    ∧ nextIs (exec .cpSetInTrim (demo 0x7F800000 0)) (fun t => t == refused 0x18 (demo 0x7F800000 0)) = true := by decide +kernel
/-- R351's example. -/
theorem test_cp_set_out_trim :
    nextIs (exec .cpSetOutTrim (demo 0x41A00000 0)) (fun t => t.cp.outGain == 0x41200000 && t.cp.inGain == fOne)
      = true := by decide +kernel
/-- R431's example. -/
theorem test_ms_encode :
    nextIs (exec .msEncode (demo 0x3F000000 0x3E800000)) (fun t => t.r0 == 0x3F07C3B6 && t.r1 == 0x3E3504F3) = true := by
  decide +kernel
/-- R432's example. -/
theorem test_ms_decode :
    nextIs (exec .msDecode (demo 0x3F07C3B6 0x3E3504F3)) (fun t => t.r0 == 0x3EFFFFFF && t.r1 == 0x3E7FFFFE) = true := by
  decide +kernel
/-- R371's example. -/
theorem test_bc_prepare :
    nextIs (exec (.bcPrepare 1) { demo 48000 512 with bc := { plainBc with env := 1, lastGr := 2 } })
      (fun t => t.bc.alphaSc == 0x3F7B11FC && t.bc.nch == 1 && t.bc.env == 0 && t.bc.lastGr == 0) = true := by
  decide +kernel
theorem test_bc_prepare_refused :
    nextIs (exec (.bcPrepare 3) (demo 48000 512)) (fun t => t == refused 0x330 (demo 48000 512)) = true
    ∧ nextIs (exec (.bcPrepare 2) (demo 48000 0)) (fun t => t == refused 0x230 (demo 48000 0)) = true := by decide +kernel
theorem test_bc_set_thresh :
    nextIs (exec .bcSetThresh (demo 0xC1200000 0)) (fun t => t.bc.thresh == 0xC1200000) = true := by decide +kernel
/-- R373: +infinity is accepted, 0.5 refused. -/
theorem test_bc_set_ratio :
    nextIs (exec .bcSetRatio (demo 0x7F800000 0)) (fun t => t.bc.ratio == 0x7F800000) = true
    ∧ nextIs (exec .bcSetRatio (demo 0x3F000000 0)) (fun t => t == refused 0x32 (demo 0x3F000000 0)) = true := by decide +kernel
/-- R374's example. -/
theorem test_bc_set_attack :
    nextIs (exec .bcSetAttack { demo 0 0 with bc := { plainBc with attack := 5, alphaA := 5 } })
      (fun t => t.bc.attack == 0 && t.bc.alphaA == 0) = true := by decide +kernel
theorem test_bc_set_release :
    nextIs (exec .bcSetRelease { demo 0 0 with bc := { plainBc with alphaR := 5 } }) (fun t => t.bc.alphaR == 0) = true
    ∧ nextIs (exec .bcSetRelease (demo 0xBF800000 0)) (fun t => t == refused 0x34 (demo 0xBF800000 0)) = true := by decide +kernel
theorem test_bc_set_makeup :
    nextIs (exec .bcSetMakeup (demo 0x40400000 0)) (fun t => t.bc.makeup == 0x40400000) = true := by decide +kernel
/-- R379's example. -/
theorem test_bc_set_flags :
    nextIs (exec (.bcSetFlags true true) (demo 0 0)) (fun t => t.bc.flags == 3) = true := by decide +kernel
theorem test_bc_set_drive :
    nextIs (exec .bcSetDrive (demo fOne 0)) (fun t => t.bc.drive == fOne) = true
    ∧ nextIs (exec .bcSetDrive (demo 0x3F800001 0)) (fun t => t == refused 0x37 (demo 0x3F800001 0)) = true := by decide +kernel
theorem test_bc_set_link :
    nextIs (exec .bcSetLink (demo 0 0)) (fun t => t.bc.link == 0) = true
    ∧ nextIs (exec .bcSetLink (demo 0x7FC00000 0)) (fun t => t == refused 0x38 (demo 0x7FC00000 0)) = true := by decide +kernel
/-- R382: 1.0 is refused. -/
theorem test_bc_set_sat_knee :
    nextIs (exec .bcSetSatKnee (demo 0x3F7FFFFF 0)) (fun t => t.bc.knee == 0x3F7FFFFF) = true
    ∧ nextIs (exec .bcSetSatKnee (demo fOne 0)) (fun t => t == refused 0x39 (demo fOne 0)) = true := by decide +kernel
theorem test_bc_set_boost :
    nextIs (exec .bcSetBoost (demo 0xBF000000 0)) (fun t => t.bc.boost == 0xBF000000) = true := by decide +kernel
/-- R384's example; 0 is refused. -/
theorem test_bc_set_sc_freq :
    nextIs (exec .bcSetScFreq { demo 0x43160000 0 with bc := { plainBc with alphaSc := 0 } })
      (fun t => t.bc.alphaSc == 0x3F7AA4B6) = true
    ∧ nextIs (exec .bcSetScFreq (demo 0 0)) (fun t => t == refused 0x3B (demo 0 0)) = true := by decide +kernel
theorem test_bc_set_dc_amp :
    nextIs (exec .bcSetDcAmp (demo 0x3727C5AC 0)) (fun t => t.bc.dcAmp == 0x3727C5AC && t.bc.dcOff == 0) = true := by
  decide +kernel
theorem test_bc_set_dc_seed :
    nextIs (exec .bcSetDcSeed (demo 7 0)) (fun t => t.bc.lfsr == 7) = true
    ∧ nextIs (exec .bcSetDcSeed (demo 0 0)) (fun t => t == refused 0x3D (demo 0 0)) = true := by decide +kernel
theorem test_bc_reset :
    nextIs (exec .bcReset { demo 0 0 with bc := { plainBc with env := 1, scx := 2, scy := 3, lastGr := 4 } })
      (fun t => t.bc == plainBc) = true := by decide +kernel
/-- R388's example, both blocks. -/
theorem test_bc_block_begin :
    nextIs (exec .bcBlockBegin { demo 0 0 with bc := { plainBc with dcAmp := 0x3727C5AC } })
      (fun t => t.bc.lfsr == 0x00042021 && t.bc.dcOff == 0x30AD0941) = true
    ∧ nextIs (exec .bcBlockBegin { demo 0 0 with bc := { plainBc with dcAmp := 0x3727C5AC, lfsr := 0x00042021 } })
      (fun t => t.bc.lfsr == 0x04080601 && t.bc.dcOff == 0x34A91633) = true := by decide +kernel
/-- R398's example. -/
theorem test_bc_frame_nan :
    nextIs (exec .bcFrame (demo 0x7FC00000 0x3F000000))
      (fun t => t.r0 == 0x7FC00000 && t.r1 == 0x3F000000 && t.bc.env == 0 && t.bc.scx == 0 && t.bc.scy == 0
        && t.err == ⟨32, 6, 0, 0⟩) = true := by decide +kernel
/-- By R392 to R394 at operands where LOG10 and POW10 are exact: level 20 dB over threshold 0, a limiter with instant
attack, so the envelope is -20 dB and the meter is not latched; one channel, so R1 stays. -/
theorem test_bc_frame_limiter :
    nextIs (exec .bcFrame { demo 0x41200000 0 with bc := { plainBc with nch := 1, ratio := 0x7F800000 } })
      (fun t => t.bc.env == 0xC1A00000 && t.bc.scx == 0x41200000 && t.bc.lastGr == 0 && t.r1 == 0x22222222) = true := by
  decide +kernel
/-- R399. -/
theorem test_bc_block_end :
    nextIs (exec .bcBlockEnd { demo 0 0 with bc := { plainBc with env := 0xC0400000 } })
      (fun t => t.bc.lastGr == 0xC0400000) = true := by decide +kernel
/-- R395's examples. -/
theorem test_bus_saturation :
    busSat plainBc 0x3F666666 = 0x3F5DDDDE ∧ busSat plainBc 0xBF666666 = 0xBF5DDDDE
    ∧ busSat plainBc 0x3F4CCCCD = 0x3F4CCCCD ∧ busSat plainBc 0x40000000 = 0x3F78AF8B
    ∧ busSat { plainBc with drive := fOne, boost := fHalf } 0x3F666666 = 0x3FA66666 := by decide +kernel
/-- R433's round trip. -/
theorem test_ms_round_trip :
    msRot (msRot fOne 0).1 (msRot fOne 0).2 = (0x3F7FFFFF, 0) := by decide +kernel

/-- R10, R11: 1.0, the smallest subnormal and minus infinity's place as numbers; ties to even at 2^24 (R16); overflow from half a
unit beyond the largest number on. -/
theorem test_rounding :
    binary32Value fOne = 1 ∧ binary32Value 0x80000001 = -1 / 2 ^ 149 ∧ binary32Value 0xFF800000 = -2 ^ 128
    ∧ i2f 16777217 = 0x4B800000 ∧ i2f 16777219 = 0x4B800002 ∧ s2f 0x80000000 = 0xCF000000
    ∧ fadd 0x7F7FFFFF 0x72FFFFFF = 0x7F7FFFFF ∧ fadd 0x7F7FFFFF 0x73000000 = 0x7F800000 := by decide +kernel
/-- I22: a curve's zero is no value of POW10 above the operands that underflow, and never -0.0. -/
theorem test_pow10_least :
    atLeast (pow10Least 0xC2349E35) 0x80000000 = 0x00000001 ∧ atLeast (pow10Least 0xC2349E36) 0x80000000 = 0x00000000
    ∧ atLeast (pow10Least 0xC2480000) 0x00000005 = 0x00000005
    ∧ clampTo posZero fOne 0x7FC00000 = fOne ∧ clampTo posZero fOne 0xFFC00000 = posZero := by decide +kernel

/-! ## The assembler (R208 to R210) -/

theorem test_assemble :
    assemble "ts.mode lr, gold, luminescent" = some (.tsSetMode 3 1 0)
    ∧ assemble "ts.process l, trim" = some (.tsProcess 1 true)
    ∧ assemble "bc.flags hpf, ms" = some (.bcSetFlags true true)
    ∧ assemble "ts.mode r, 3, 7" = some (.tsSetMode 2 3 7) := by decide +kernel
theorem test_host_line :
    hostLine "wr A0, f:-6.0" = some [.write 0x0020 4 0xC0C00000]
    ∧ hostLine "rd BC_LAST_GR" = some [.read 0x035C 4]
    ∧ hostLine "loadpreset gold, 0, 7, 0x3F000000" = some [.write 0x129C 4 0x3F000000] := by decide +kernel

/-! ## A case that meets the premises of each obligation that has premises, clause by clause -/

theorem test_witness_DecodeOfEncode :
    (Instr.tsProcess 3 true).wellFormed = true ∧ (Instr.tsProcess 0 true).wellFormed = false := by decide
theorem test_witness_EncodeOfDecode : decode 0x00007F11 = .ok (.tsSetMode 3 3 7) := by decide +kernel
theorem test_witness_IllegalWordsExactly :
    illegalWhen 0x0F = true ∧ illegalWhen 0x80000000 = true ∧ illegalWhen 0x15 = true ∧ illegalWhen 0x115 = false
    ∧ ((1 : BitVec 2) ≠ 0 ∧ ((3 : BitVec 2) = 3 ∨ 4 < (0 : BitVec 3).toNat))
    ∧ ((1 : BitVec 2) ≠ 0 ∧ ((0 : BitVec 2) = 3 ∨ 4 < (5 : BitVec 3).toNat))
    ∧ ((0 : BitVec 2) = 0 ∨ (0 : BitVec 2) = 3) ∧ ((3 : BitVec 2) = 0 ∨ (3 : BitVec 2) = 3) := by decide +kernel
theorem test_witness_StepRunsDecodedCommand :
    (inputs [.write 0x0018 4 0x711] (demo 0 0)).pending = .write 0x0018 4 0x711 :: [] ∧ decode 0x711 = .ok (.tsSetMode 3 1 0)
    ∧ illegalWhen 0x711 = false
    ∧ (inputs [.write 0x0018 4 0x10, .read 0 4] (demo 0 0)).pending = .write 0x0018 4 0x10 :: [.read 0 4]
    ∧ illegalWhen 0x10 = true ∧ illegalWhen 0xFFFFFFFF = true
    ∧ (inputs [.read 0x0018 4, .hardReset] (demo 0 0)).pending = .read 0x0018 4 :: [.hardReset] := by decide +kernel
theorem test_witness_StepPerformsNextInput :
    (demo 0 0).pending = [] ∧ (inputs [.read 0 4] (demo 0 0)).pending = .read 0 4 :: []
    ∧ (inputs [.write 0xFFFF 1 0] (demo 0 0)).pending = .write 0xFFFF 1 0 :: []
    ∧ (inputs [.hardReset] (demo 0 0)).pending = .hardReset :: [] := by decide
theorem test_witness_RegisterMapReads :
    registerMap.length = 55 ∧ (registerMap.map Prod.fst).head? = some 0x0000
    ∧ (registerMap.map Prod.fst).getLast? = some 0x035C ∧ 31 < 32 ∧ 479 < 480 := by decide +kernel
theorem test_witness_BusErrorsExactly :
    ¬ (3 = 4 ∧ mappedOffset 0x0020 = true) ∧ ¬ (4 = 4 ∧ mappedOffset 0x001C = true)
    ∧ ¬ (4 = 4 ∧ mappedOffset 0x0FFC = true) ∧ ¬ (4 = 4 ∧ mappedOffset 0x1001 = true)
    ∧ ¬ (4 = 4 ∧ mappedOffset 0xFFFC = true)
    ∧ (4 = 4 ∧ mappedOffset 0x0000 = true) ∧ (4 = 4 ∧ mappedOffset 0x177C = true)
    ∧ ¬ (4 = 4 ∧ writableOffset 0x0028 = true) ∧ ¬ (4 = 4 ∧ writableOffset 0x02FC = true)
    ∧ (4 = 4 ∧ writableOffset 0x0018 = true) ∧ (4 = 4 ∧ writableOffset 0x1000 = true) := by decide +kernel
theorem test_witness_PresetRamWrite :
    Memory.rising [(0x1000, 1), (0x177F, 2)] = true ∧ 0 < 480 ∧ 479 < 480 := by decide
theorem test_witness_WholeStateIsReadable :
    Memory.wf (demo 1 2).pram = true ∧ (demo 1 2).pending = (demo 1 2).pending ∧ (demo 1 2).resp = (demo 1 2).resp
    ∧ ∀ r : Reg, peek r (demo 1 2) = peek r (demo 1 2) := ⟨rfl, rfl, rfl, fun _ => rfl⟩
theorem test_witness_StatusBitsAreSticky :
    step (demo 0 0) = .next (demo 0 0) ∧ (demo 0 0).pending.head? ≠ some .hardReset
    ∧ step (inputs [.hardReset] (demo 0 0)) = .next State.reset
    ∧ (inputs [.hardReset] (demo 0 0)).pending.head? = some .hardReset := ⟨rfl, by decide, rfl, rfl⟩
theorem test_witness_CfgErrorExactly :
    decode 0x110 = .ok (.tsSetRate 1) ∧ decode 0x32 = .ok .bcSetRatio ∧ decode 0x39 = .ok .bcSetSatKnee
    ∧ decode 0x37 = .ok .bcSetDrive ∧ decode 0x41 = .ok .bcFrame
    ∧ cfgErrorWhen (.tsSetRate 1) (demo 0 0) = true ∧ cfgErrorWhen (.tsSetRate 1) (demo 1 0) = false
    ∧ cfgErrorWhen .bcSetRatio (demo 0x3F7FFFFF 0) = true ∧ cfgErrorWhen .bcSetRatio (demo fOne 0) = false
    ∧ cfgErrorWhen .bcSetSatKnee (demo fOne 0) = true ∧ cfgErrorWhen .bcSetDrive (demo fOne 0) = false
    ∧ cfgErrorWhen .bcFrame { demo 0 0 with bc := { plainBc with nch := 1, flags := 2 } } = true
    ∧ cfgErrorWhen .bcFrame (demo 0 0) = false := by decide +kernel
theorem test_witness_CommandFrame :
    nextIs (exec (.bcSetFlags true false) (demo 0 0)) (fun t => t == { demo 0 0 with bc := { plainBc with flags := 1 } }) = true
    ∧ tableWrites (.bcSetFlags true false) .bcDrive = false := by decide +kernel
theorem test_witness_PresetRamReachesOnlySetMode :
    (∀ chm char model, Instr.bcReset ≠ .tsSetMode chm char model)
    ∧ nextIs (exec .bcReset (demo 0 0)) (fun t => t == demo 0 0) = true :=
  ⟨fun _ _ _ h => Instr.noConfusion h, by decide +kernel⟩
theorem test_witness_ToneShaperChannelsIndependent :
    nextIs (exec (.tsReset 1) (demo 0 0)) (fun t => t == demo 0 0) = true ∧ nextIs (exec (.tsReset 2) (demo 0 0)) (fun t => t == demo 0 0) = true := by
  decide +kernel
theorem test_witness_BothChannelsInOrder :
    cfgErrorWhen (.tsReset 3) (demo 0 0) = false ∧ nextIs (exec (.tsReset 1) (demo 0 0)) (fun t => t == demo 0 0) = true := by decide +kernel
theorem test_witness_StepKeepsFieldsLegal :
    fieldsLegal (demo 0 0) ∧ step (demo 0 0) = .next (demo 0 0) := by
  refine ⟨?_, rfl⟩
  unfold fieldsLegal modeLegal
  decide +kernel
theorem test_witness_StepKeepsParamsLegal :
    paramsLegal (demo 0 0) ∧ step (demo 0 0) = .next (demo 0 0) := by
  refine ⟨?_, rfl⟩
  unfold paramsLegal tsParamsLegal bcParamsLegal
  decide +kernel
theorem test_witness_StepKeepsDerivedAgree :
    derivedAgree (demo 0 0) ∧ step (demo 0 0) = .next (demo 0 0) := by
  refine ⟨?_, rfl⟩
  unfold derivedAgree tsDerived bcDerived
  decide +kernel
theorem test_witness_StepKeepsStateFinite :
    stateFinite (demo 0 0) ∧ step (demo 0 0) = .next (demo 0 0) := by
  refine ⟨?_, rfl⟩
  unfold stateFinite
  decide +kernel
theorem test_witness_StepKeepsMemoryForm :
    Memory.wf (demo 0 0).pram = true ∧ step (demo 0 0) = .next (demo 0 0) := ⟨rfl, rfl⟩
theorem test_witness_ResetRegisters : (inputs [.hardReset] (demo 0 0)).pending.head? = some .hardReset := rfl
theorem test_witness_AutoGainCorners :
    (flt tp.knee fOne = true ∧ ag fOne tp = 0x3F1DDDDE ∧ flt tp.knee tp.knee = false ∧ flt tp.knee 0x7FC00000 = false)
    ∧ (mag 0x80000000 = 0 ∧ flt tp.knee 0x80000000 = false ∧ isFinite tp.k1 = true ∧ isFinite tp.k2 = true)
    ∧ (mag 0 = 0 ∧ flt { tp with knee := 0x80000000 }.knee 0 = false)
    ∧ (mag { tp with k3 := 0 }.k3 = 0 ∧ isFinite (fsub fOne tp.knee) = true ∧ flt tp.knee fOne = true) := by
  decide +kernel
theorem test_witness_NopResult : (0x100#32).extractLsb' 0 8 = 0 ∧ 0x100#32 ≠ 0 := by decide
theorem test_witness_SetRateResult :
    (1 : BitVec 2) ≠ 0 ∧ (demo 0xFFFFFFFF 0).a0 ≠ 0 ∧ (demo 1 0).a0 ≠ 0 ∧ (demo 0 0).a0 = 0
    ∧ (1 ≤ 44100 ∧ 44100 ≤ 44100) ∧ (44101 ≤ 44101 ∧ 88200 ≤ 88200) := by decide
theorem test_witness_SetModeResult :
    (3 : BitVec 2) ≠ 0 ∧ ((2 : BitVec 2).toNat ≤ 2 ∧ (4 : BitVec 3).toNat ≤ 4)
    ∧ ((3 : BitVec 2) = 3 ∨ 4 < (0 : BitVec 3).toNat) ∧ ((0 : BitVec 2) = 3 ∨ 4 < (5 : BitVec 3).toNat) := by decide
theorem test_witness_SetProcResult :
    (2 : BitVec 2) ≠ 0 ∧ (fle 0 fOne && fle fOne fOne) = true ∧ (fle 0 0 && fle 0 fOne) = true
    ∧ (fle 0 0x80000001 && fle 0x80000001 fOne) = false ∧ (fle 0 0x3F800001 && fle 0x3F800001 fOne) = false := by
  decide +kernel
theorem test_witness_TsResetResult :
    (1 : BitVec 2) ≠ 0 ∧ nextIs (exec (.tsReset 1) (demo 0 0)) (fun t => t == demo 0 0) = true := by decide +kernel
theorem test_witness_TsProcessResult : (1 : BitVec 2) ≠ 0 ∧ (2 : BitVec 2) ≠ 0 ∧ (3 : BitVec 2) ≠ 0 := by decide
theorem test_witness_SatEvalResult :
    (1 : BitVec 2) ≠ 0 ∧ nextIs (exec (.tsSatEval 1) (demo 0x40000000 0)) (fun t => t.r0 == 0x3F3425ED) = true := by
  decide +kernel
theorem test_witness_TrimResults :
    isFinite (demo 0x7F7FFFFF 0).a0 = true ∧ isFinite (demo 0x7F800000 0).a0 = false := by decide
theorem test_witness_MidSideResults :
    nextIs (exec .msDecode (demo 0x7FC00000 0)) (fun t => t.err == ⟨0, 0, 0, 0⟩) = true := by decide +kernel
theorem test_witness_PrepareResult :
    ((demo 1 1).a0 ≠ 0 ∧ (demo 1 1).a1 ≠ 0 ∧ ((1 : BitVec 2) = 1 ∨ (1 : BitVec 2) = 2))
    ∧ ((demo 0 1).a0 = 0 ∨ (demo 0 1).a1 = 0 ∨ (1 : BitVec 2) = 0 ∨ (1 : BitVec 2) = 3)
    ∧ ((demo 1 0).a0 = 0 ∨ (demo 1 0).a1 = 0 ∨ (1 : BitVec 2) = 0 ∨ (1 : BitVec 2) = 3)
    ∧ nextIs (exec (.bcPrepare 1) (demo 1 1)) (fun t => t.bc.rate == 1) = true := by decide +kernel
theorem test_witness_PlainSetterResults :
    isFinite (demo 0 0).a0 = true ∧ isFinite (demo 0xFF800000 0).a0 = false
    ∧ fle fOne (demo fOne 0).a0 = true ∧ fle fOne (demo 0x3F7FFFFF 0).a0 = false
    ∧ (fle 0 (demo 0 0).a0 && fle (demo 0 0).a0 fOne) = true
    ∧ (fle 0 (demo 0x80000001 0).a0 && fle (demo 0x80000001 0).a0 fOne) = false
    ∧ (fle 0 (demo 0 0).a0 && flt (demo 0 0).a0 fOne) = true
    ∧ (fle 0 (demo fOne 0).a0 && flt (demo fOne 0).a0 fOne) = false
    ∧ (isFinite (demo 0 0).a0 && fle 0 (demo 0 0).a0) = true
    ∧ (isFinite (demo 0x80000001 0).a0 && fle 0 (demo 0x80000001 0).a0) = false
    ∧ ((demo 1 0).a0 != 0) = true ∧ ((demo 0 0).a0 != 0) = false := by decide +kernel
theorem test_witness_DerivedSetterResults :
    (isFinite (demo 0 0).a0 && fle 0 (demo 0 0).a0) = true
    ∧ (isFinite (demo 0x7F800000 0).a0 && fle 0 (demo 0x7F800000 0).a0) = false
    ∧ (isFinite (demo 1 0).a0 && flt 0 (demo 1 0).a0) = true
    ∧ (isFinite (demo 0 0).a0 && flt 0 (demo 0 0).a0) = false := by decide +kernel
theorem test_witness_DetectorClearAndLatch :
    nextIs (exec .bcReset (demo 0 0)) (fun t => t == demo 0 0) = true ∧ nextIs (exec .bcBlockEnd (demo 0 0)) (fun t => t == demo 0 0) = true := by decide +kernel
theorem test_witness_FrameResult :
    (({ plainBc with nch := 1, flags := 2 } : BcRegs).flags.getLsbD 1 = true
      ∧ ({ plainBc with nch := 1, flags := 2 } : BcRegs).nch = 1)
    ∧ ¬ (plainBc.flags.getLsbD 1 = true ∧ plainBc.nch = 1)
    ∧ ¬ (({ plainBc with flags := 2 } : BcRegs).flags.getLsbD 1 = true ∧ ({ plainBc with flags := 2 } : BcRegs).nch = 1) := by
  decide
theorem test_witness_BusSaturationFormula :
    isNaN 0x7F800001 = true ∧ inHalfOpenUnit plainBc.knee = true ∧ inHalfOpenUnit 0 = true
    ∧ isNaN (busSat plainBc 0x3F4CCCCE) = false := by decide +kernel
theorem test_witness_ZeroProcessingPassesDry :
    let t := { goldTs with proc := 0 }
    mag t.proc = 0 ∧ flagPS t.acb.flags = false ∧ isFinite fHalf = true ∧ mag fHalf ≠ 0 ∧ isFinite t.acb.kpd = true
    ∧ isFinite t.acb.postGain = true
    ∧ isFinite (fsub (tsDatapath t fHalf).2.s (fmul fHalf t.acb.otrim)) = true := by decide +kernel
theorem test_witness_NonFiniteInputIsRepaired :
    isFinite (demo 0x7F800000 0x7F800001).a0 = false ∧ isNaN (demo 0x7F800001 0).a0 = true
    ∧ isFinite (fmul goldTs.env goldTs.acb.envDecay) = true ∧ isFinite (demo 0x7F800000 0x7F800001).a1 = false := by
  decide +kernel
theorem test_witness_UnityTrimsAreTransparent :
    (demo 0 0).cp.inGain = 0x3F800000 ∧ (demo 0 0).cp.outGain = 0x3F800000 := by decide
theorem test_witness_WaveshaperFamilies : (2 : BitVec 2) ≠ 3 := by decide
theorem test_witness_TransparentFamilyClips :
    fle fOne fOne = true ∧ fle fOne 0x7F800000 = true ∧ fle 0xBF800000 0xBF800000 = true
    ∧ isNaN (fsub fOne tp.ht) = false ∧ mag (fsub fOne tp.ht) ≠ 0 ∧ isNaN 0xFF800001 = true := by decide +kernel
theorem test_witness_MidSideCorners : isFinite 0x80000000 = true ∧ isNaN 0x7FC00000 = true := by decide
theorem test_witness_EnvelopeReachesAndKeepsTarget :
    ((if flt 0xC0400000 plainBc.env then plainBc.alphaA else plainBc.alphaR) = 0 ∧ isFinite plainBc.env = true
      ∧ isFinite 0xC0400000 = true ∧ isFinite (fsub plainBc.env 0xC0400000) = true ∧ (0xC0400000#32) ≠ 0x80000000)
    ∧ (isFinite plainBc.env = true ∧ plainBc.env ≠ 0x80000000 ∧ isFinite plainBc.alphaR = true) := by
  decide +kernel
theorem test_witness_ComparisonsAreQuiet :
    isNaN 0xFFC00001 = true ∧ isNaN 0x7F800001 = true ∧ isNaN 0x7F800000 = false ∧ isNaN 0xFF800000 = false
    ∧ isNaN 0 = false ∧ isFinite 0x7F7FFFFF = true ∧ isFinite 0x7F800000 = false := by decide
/-- The detection value is 1.0, where LOG10 is exactly 0. -/
theorem test_witness_QuietFramePassesThrough :
    let s := { demo fOne fOne with bc := { plainBc with knee := fOne } }
    s.bc.nch = 2 ∧ msEnabled s.bc.flags = false ∧ s.bc.env = 0 ∧ s.bc.makeup = 0 ∧ isFinite s.bc.alphaR = true
    ∧ s.bc.dcOff = 0 ∧ fadd fOne (fmul s.bc.drive s.bc.boost) = fOne
    ∧ targetGr s.bc.thresh s.bc.ratio
        (if hpfEnabled s.bc.flags then sidechainOut s.bc (detect s.bc.link s.a0 s.a1 2) else detect s.bc.link s.a0 s.a1 2)
        = 0
    ∧ isFinite s.a0 = true ∧ mag s.a0 ≠ 0 ∧ fle (fabs s.a0) s.bc.knee = true
    ∧ isFinite s.a1 = true ∧ mag s.a1 ≠ 0 ∧ fle (fabs s.a1) s.bc.knee = true := by decide +kernel
theorem test_witness_UnityRatioNeverReduces :
    isFinite (fsub 0xC1200000 (fmul 0x41A00000 (fLog10 (fabs 0xC1200000)))) = true := by decide +kernel
theorem test_witness_GeneratorIsBijective : (1#32) ≠ 0 ∧ xorshift32 1 = xorshift32 1 := by decide
theorem test_witness_OffsetStaysWithinAmplitude :
    finiteNonNegative 0 = true ∧ finiteNonNegative 0x80000000 = true ∧ finiteNonNegative 0x7F7FFFFF = true
    ∧ mag 0x80000000 = 0 := by decide +kernel
theorem test_witness_FunctionUnitsAreAdmissible :
    fle 0x80000000 0 = true ∧ fle 0xFF800000 0x7F800000 = true ∧ flt 0 1 = true ∧ isNaN 0x7F800001 = true
    ∧ isNaN 0 = false ∧ 10 ≤ 10 ∧ 1 ≤ 1 ∧ isFinite 0xC2349E36 = true ∧ isFinite 0xC2349E35 = true := by decide +kernel
theorem test_witness_RoundingIsExactAndSymmetric :
    (isFinite 1 = true ∧ isFinite 0x7F7FFFFF = true ∧ isFinite 0x80000000 = true)
    ∧ (binary32Value 1 ≠ 0 ∧ binary32Value 0 = 0 ∧ binary32Value fOne + binary32Value fNegOne = 0
      ∧ binary32Value fOne - binary32Value fOne = 0)
    ∧ (0 < 2 ^ 32 ∧ 4294967295 < 2 ^ 32) ∧ isNaN 0x7F800001 = true
    ∧ isInf 0xFF800000 = true ∧ isInf 0x7F800000 = true
    ∧ isNaN (fadd 1 1) = false ∧ mag (fadd 1 1) ≠ 0 ∧ isFinite 1 = true ∧ mag 1 ≠ 0 := by decide +kernel

end Sys2Proof.Machine.Tests
end

section
/-! PROOFS. R14 against the numbers of R10: the fields of a pattern say whether it is a NaN, and its place in the order of
the comparisons (`orderKey`) rises strictly with the number it stands for. -/

namespace Sys2Proof.Machine

/-- R10: bits 30:23 are the magnitude bits above the fraction. -/
theorem toNat_exponentField (x : F32) : (x.extractLsb' 23 8).toNat = mag x / 2 ^ 23 := by
  simp only [BitVec.extractLsb'_toNat, Nat.shiftRight_eq_div_pow, mag]; omega

/-- R10: bits 22:0 are the low magnitude bits. -/
theorem toNat_fractionField (x : F32) : (x.extractLsb' 0 23).toNat = mag x % 2 ^ 23 := by
  simp only [BitVec.extractLsb'_toNat, Nat.shiftRight_eq_div_pow, mag]; omega

theorem exponentField_eq_255_iff (x : F32) : x.extractLsb' 23 8 = 255 ↔ 0x7F800000 ≤ mag x := by
  have hm := mag_lt x
  rw [← BitVec.toNat_inj, toNat_exponentField, show (255 : BitVec 8).toNat = 255 from rfl]
  omega

theorem isFinite_iff_exponentField (x : F32) : isFinite x = true ↔ x.extractLsb' 23 8 ≠ 255 := by
  rw [isFinite_iff, ne_eq, exponentField_eq_255_iff, not_le]

theorem isNaN_iff_fields (x : F32) :
    isNaN x = true ↔ x.extractLsb' 23 8 = 255 ∧ x.extractLsb' 0 23 ≠ 0 := by
  have hm := mag_lt x
  rw [isNaN_iff, exponentField_eq_255_iff, ne_eq, ← BitVec.toNat_inj, toNat_fractionField,
    show (0 : BitVec 23).toNat = 0 from rfl]
  omega

/-- `units` as a function of the magnitude bits alone; an infinity's place is that of 2^128. -/
def magUnits (m : Nat) : Nat :=
  if m / 2 ^ 23 = 0 then m % 2 ^ 23 else (2 ^ 23 + m % 2 ^ 23) * 2 ^ (m / 2 ^ 23 - 1)

theorem units_eq_magUnits (x : F32) : units x = magUnits (mag x) := rfl

theorem magUnits_subnormal {f : Nat} (hf : f < 2 ^ 23) : magUnits f = f := by
  rw [magUnits, if_pos (Nat.div_eq_of_lt hf), Nat.mod_eq_of_lt hf]

theorem magUnits_normal (e : Nat) {f : Nat} (hf : f < 2 ^ 23) :
    magUnits ((e + 1) * 2 ^ 23 + f) = (2 ^ 23 + f) * 2 ^ e := by
  have he : ((e + 1) * 2 ^ 23 + f) / 2 ^ 23 = e + 1 := by omega
  have hm : ((e + 1) * 2 ^ 23 + f) % 2 ^ 23 = f := by omega
  rw [magUnits, he, hm, if_neg (Nat.succ_ne_zero e), Nat.add_sub_cancel]

/-- The next magnitude stands for a larger number: one quantum more within a binade, and where the fraction carries into
the exponent, the first number of the next binade. -/
theorem magUnits_strictMono : StrictMono magUnits := by
  refine strictMono_nat_of_lt_succ fun m => ?_
  obtain ⟨e, f, hf, rfl⟩ : ∃ e f, f < 2 ^ 23 ∧ m = e * 2 ^ 23 + f :=
    ⟨m / 2 ^ 23, m % 2 ^ 23, Nat.mod_lt _ (by decide), (Nat.div_add_mod' m _).symm⟩
  by_cases hcarry : f + 1 < 2 ^ 23
  · cases e with
    | zero => rw [Nat.zero_mul, Nat.zero_add, magUnits_subnormal hf, magUnits_subnormal hcarry]; omega
    | succ e =>
      rw [Nat.add_assoc, magUnits_normal e hf, magUnits_normal e hcarry]
      exact Nat.mul_lt_mul_of_pos_right (by omega) (by positivity)
  · have hnext : e * 2 ^ 23 + f + 1 = (e + 1) * 2 ^ 23 + 0 := by omega
    rw [hnext, magUnits_normal e (by decide)]
    cases e with
    | zero => rw [Nat.zero_mul, Nat.zero_add, magUnits_subnormal hf]; omega
    | succ e =>
      rw [magUnits_normal e hf]
      calc (2 ^ 23 + f) * 2 ^ e < 2 ^ 24 * 2 ^ e := Nat.mul_lt_mul_of_pos_right (by omega) (by positivity)
        _ = (2 ^ 23 + 0) * 2 ^ (e + 1) := by ring

/-- The signed number of units at a place in the order of R14. -/
def keyUnits (k : ℤ) : ℤ := k.sign * magUnits k.natAbs

theorem keyUnits_neg (k : ℤ) : keyUnits (-k) = -keyUnits k := by
  rw [keyUnits, keyUnits, Int.sign_neg, Int.natAbs_neg, neg_mul]

theorem keyUnits_natCast (m : Nat) : keyUnits m = magUnits m := by
  cases m with
  | zero => rfl
  | succ m => rw [keyUnits, Int.sign_eq_one_of_pos (by positivity), Int.natAbs_natCast, one_mul]

theorem keyUnits_strictMono : StrictMono keyUnits := by
  refine strictMono_of_odd_strictMonoOn_nonneg keyUnits_neg fun a ha b hb hab => ?_
  lift a to ℕ using ha
  lift b to ℕ using hb
  rw [keyUnits_natCast, keyUnits_natCast]
  exact_mod_cast magUnits_strictMono (Int.ofNat_lt.1 hab)

theorem binary32Value_eq_keyUnits (x : F32) : binary32Value x = (keyUnits (orderKey x) : ℚ) / 2 ^ 149 := by
  rw [binary32Value_eq, orderKey_eq, units_eq_magUnits]
  congr 1
  cases signOf x with
  | false => simp [keyUnits_natCast]
  | true => simp [keyUnits_neg, keyUnits_natCast]

theorem binary32Value_lt_iff (x y : F32) : binary32Value x < binary32Value y ↔ orderKey x < orderKey y := by
  rw [binary32Value_eq_keyUnits, binary32Value_eq_keyUnits, div_lt_div_iff_of_pos_right (by positivity), Int.cast_lt,
    keyUnits_strictMono.lt_iff_lt]

theorem binary32Value_le_iff (x y : F32) : binary32Value x ≤ binary32Value y ↔ orderKey x ≤ orderKey y := by
  rw [← not_lt, binary32Value_lt_iff, not_lt]

theorem binary32Value_eq_iff (x y : F32) : binary32Value x = binary32Value y ↔ orderKey x = orderKey y := by
  rw [le_antisymm_iff, binary32Value_le_iff, binary32Value_le_iff, ← le_antisymm_iff]

/-- R14: a NaN operand makes every comparison false. -/
theorem comparisons_of_isNaN {x y : F32} (h : isNaN x = true ∨ isNaN y = true) :
    flt x y = false ∧ fle x y = false ∧ feq x y = false := by
  rcases h with h | h <;> simp [flt, fle, feq, h]

/-- Settles O53: without a NaN the comparisons compare order keys, which order the patterns as their numbers do. -/
theorem comparisonsAreQuiet : Obligations.ComparisonsAreQuiet := by
  intro x y
  refine ⟨isNaN_iff_fields x, isFinite_iff_exponentField x, comparisons_of_isNaN,
    fun hx hy => ⟨?lt, ?le, ?eq⟩, by decide⟩
  case lt => rw [flt_iff hx hy, binary32Value_lt_iff]
  case le => rw [fle_iff hx hy, binary32Value_le_iff]
  case eq => rw [feq_iff hx hy, binary32Value_eq_iff]

end Sys2Proof.Machine
end

section
/-! PROOFS. The decoder against the three conditions of R451: the opcode map of R204 has the opcodes of `knownOpcodes`, and
what a row's mask compares beside the opcode are the bits its format reserves in R202. -/

namespace Sys2Proof.Machine

/-- The bit tables of R202: whether a format reserves bit i of the command word. -/
def reservedIn (format : Format) (i : Nat) : Bool :=
  match format with
  | .n => decide (8 ≤ i)
  | .c => decide (10 ≤ i)
  | .m => decide (15 ≤ i)
  | .p => decide (11 ≤ i)
  | .q => decide (10 ≤ i)
  | .f => decide (12 ≤ i) || (decide (8 ≤ i) && decide (i < 10))

/-- R201: no format reserves a bit of the opcode. -/
theorem le_of_reservedIn {format : Format} {i : Nat} (h : reservedIn format i = true) : 8 ≤ i := by
  cases format <;> simp only [reservedIn, decide_eq_true_eq, Bool.or_eq_true, Bool.and_eq_true] at h <;> omega

theorem ushiftRight_eq_zero_iff (w : Word) (k : Nat) : w >>> k = 0#32 ↔ ∀ i, k ≤ i → w.getLsbD i = false := by
  simp only [BitVec.zero_iff_eq_false, BitVec.getLsbD_ushiftRight]
  exact ⟨fun h i hi => Nat.add_sub_cancel' hi ▸ h (i - k), fun h i => h _ (Nat.le_add_right k i)⟩

theorem extractLsb'_eq_zero_iff (w : Word) (start len : Nat) :
    w.extractLsb' start len = 0#len ↔ ∀ i, start ≤ i → i < start + len → w.getLsbD i = false := by
  simp only [BitVec.zero_iff_eq_false, BitVec.getLsbD_extractLsb', Bool.and_eq_false_imp, decide_eq_true_eq]
  exact ⟨fun h i hi hlt => Nat.add_sub_cancel' hi ▸ h (i - start) (by omega),
    fun h i hi => h _ (by omega) (by omega)⟩

/-! ## The rows of the opcode map -/

theorem map_opcode_opTable : opTable.map (fun r => opcode r.matchWord) = knownOpcodes := by decide

/-- R204: a row's match is its opcode with every other bit zero. -/
theorem matchWord_of_mem : ∀ r ∈ opTable, r.matchWord = (opcode r.matchWord).setWidth 32 := by decide

/-- R204: a row's mask compares the opcode and the reserved bits of the row's format. -/
theorem getLsbD_mask_of_mem :
    ∀ r ∈ opTable, ∀ i < 32, r.mask.getLsbD i = (decide (i < 8) || reservedIn r.format i) := by decide +kernel

/-- R202: formats C and Q have one field, bits 9:8, and so one table of reserved bits. -/
theorem formatCOrQ_of_mem : ∀ r ∈ opTable,
    [0x10#8, 0x12#8, 0x13#8, 0x15#8, 0x30#8].contains (opcode r.matchWord) = (r.format == .c || r.format == .q) := by
  decide

theorem formatM_of_mem : ∀ r ∈ opTable, (opcode r.matchWord == 0x11#8) = (r.format == .m) := by decide

theorem formatP_of_mem : ∀ r ∈ opTable, (opcode r.matchWord == 0x14#8) = (r.format == .p) := by decide

theorem formatF_of_mem : ∀ r ∈ opTable, (opcode r.matchWord == 0x36#8) = (r.format == .f) := by decide

theorem hasChannelMask_of_mem : ∀ r ∈ opTable,
    [0x10#8, 0x11#8, 0x12#8, 0x13#8, 0x14#8, 0x15#8].contains (opcode r.matchWord) = r.format.hasChannelMask := by decide

/-! ## The row of a word -/

/-- R201, R205: a word has a row exactly where its opcode is one of R204. -/
theorem isSome_rowOf (w : Word) : (rowOf w).isSome = knownOpcodes.contains (w.extractLsb' 0 8) := by
  rw [Bool.eq_iff_iff, rowOf, List.find?_isSome, ← map_opcode_opTable]
  simp [opcode]

section
variable {w : Word} {r : OpRow} (h : rowOf w = some r)
include h

theorem mem_of_rowOf : r ∈ opTable := List.mem_of_find?_eq_some h

theorem opcode_of_rowOf : w.extractLsb' 0 8 = opcode r.matchWord := by
  have hop := List.find?_some h
  exact (eq_of_beq hop).symm

/-- R206 (a): a word with a row breaks no reservation exactly where every bit its row's format reserves is 0. -/
theorem reservedBitSet_eq_false_iff :
    reservedBitSet w = false ↔ ∀ i, reservedIn r.format i = true → w.getLsbD i = false := by
  have hr := mem_of_rowOf h
  rw [reservedBitSet, opcode_of_rowOf h, formatCOrQ_of_mem r hr, formatM_of_mem r hr, formatP_of_mem r hr,
    formatF_of_mem r hr]
  cases r.format <;> simp [reservedIn, ushiftRight_eq_zero_iff, extractLsb'_eq_zero_iff, or_imp, forall_and]

/-- R250: the decoder's comparison with the row succeeds exactly where no reserved bit is 1. -/
theorem masked_eq_matchWord_iff : w &&& r.mask = r.matchWord ↔ reservedBitSet w = false := by
  have hr := mem_of_rowOf h
  rw [reservedBitSet_eq_false_iff h, matchWord_of_mem r hr, ← opcode_of_rowOf h, BitVec.eq_of_getLsbD_eq_iff]
  refine forall_congr' fun i => ?_
  by_cases hi : i < 32
  · rw [BitVec.getLsbD_and, getLsbD_mask_of_mem r hr i hi, BitVec.getLsbD_setWidth, BitVec.getLsbD_extractLsb',
      Nat.zero_add]
    cases hres : reservedIn r.format i with
    | false => simp [hi, Bool.and_comm]
    | true => simp [hi, Nat.not_lt.2 (le_of_reservedIn hres)]
  · simp [hi, BitVec.getLsbD_of_ge w i (Nat.not_lt.1 hi)]

/-- R206 (b): the decoder's check of the channel mask is that of the opcodes of formats C, M and P. -/
theorem emptyMask_of_rowOf : (r.format.hasChannelMask && (field98 w == 0#2)) = channelMaskEmpty w := by
  rw [channelMaskEmpty, opcode_of_rowOf h, hasChannelMask_of_mem r (mem_of_rowOf h), field98]

/-- R250: decoding a word whose opcode is known, by the conditions of R206. -/
theorem decode_of_rowOf : decode w =
    if reservedBitSet w then .error .reservedBits
    else if channelMaskEmpty w then .error .emptyMask
    else .ok (r.build w) := by
  simp only [decode, h, ne_eq, masked_eq_matchWord_iff h, emptyMask_of_rowOf h, Bool.not_eq_false]

end

/-- R451: each reason of the decoder by its condition, and every word without one decodes. -/
theorem decode_reasons (w : Word) :
    (decode w = .error .unknownOpcode ↔ knownOpcodes.contains (w.extractLsb' 0 8) = false)
    ∧ (decode w = .error .reservedBits ↔ knownOpcodes.contains (w.extractLsb' 0 8) = true ∧ reservedBitSet w = true)
    ∧ (decode w = .error .emptyMask ↔ knownOpcodes.contains (w.extractLsb' 0 8) = true ∧ reservedBitSet w = false
        ∧ channelMaskEmpty w = true)
    ∧ ((∃ i, decode w = .ok i) ↔ illegalWhen w = false) := by
  rw [illegalWhen, ← isSome_rowOf]
  cases h : rowOf w with
  | none => simp [decode, h]
  | some r =>
    rw [decode_of_rowOf h]
    cases hres : reservedBitSet w with
    | true => simp
    | false => cases hmask : channelMaskEmpty w <;> simp

/-! ## Words that are executed -/

/-- R205, R451: executing an illegal word records it and does nothing else. -/
theorem execute_of_illegalWhen {w : Word} (s : State) (h : illegalWhen w = true) :
    execute w s = .next (record (.illegal w) s) := by
  cases hd : decode w with
  | error e => rw [execute, hd]
  | ok i =>
    obtain ⟨_, _, _, hlegal⟩ := decode_reasons w
    exact absurd (hlegal.1 ⟨i, hd⟩) (by rw [h]; decide)

theorem execute_of_decode {w : Word} {i : Instr} (s : State) (h : decode w = .ok i) : execute w s = exec i s := by
  rw [execute, h]

/-- R206: with a channel selected, every CHAR and MODEL decodes. -/
theorem decode_encode_tsSetMode : ∀ (chm char : BitVec 2) (model : BitVec 3), chm ≠ 0 →
    decode (encode (.tsSetMode chm char model)) = .ok (.tsSetMode chm char model) := by decide +kernel

/-- R206: every NCH decodes. -/
theorem decode_encode_bcPrepare : ∀ nch : BitVec 2, decode (encode (.bcPrepare nch)) = .ok (.bcPrepare nch) := by
  decide +kernel

theorem record_cfgError (w : Word) (s : State) : record (.cfgError w) s = refused w s := rfl

/-- R271: TS_SET_MODE refuses the CHAR and MODEL values that name no character and no model. -/
theorem exec_tsSetMode_refused (chm : BitVec 2) {char : BitVec 2} {model : BitVec 3} (s : State)
    (h : char = 3 ∨ 4 < model.toNat) :
    exec (.tsSetMode chm char model) s = .next (refused (encode (.tsSetMode chm char model)) s) := by
  have hcheck : (decide (char.toNat ≤ 2) && decide (model.toNat ≤ 4)) = false := by
    rcases h with rfl | hmodel
    · rfl
    · simp [Nat.not_le.2 hmodel]
  change execTsSetMode chm char model s = _
  rw [execTsSetMode, hcheck, guarded_false, record_cfgError]

/-- R371: BC_PREPARE refuses a channel count that is not 1 or 2. -/
theorem exec_bcPrepare_refused {nch : BitVec 2} (s : State) (h : nch = 0 ∨ nch = 3) :
    exec (.bcPrepare nch) s = .next (refused (encode (.bcPrepare nch)) s) := by
  have hcheck : (nch == 1#2 || nch == 2#2) = false := by rcases h with rfl | rfl <;> rfl
  change execBcPrepare nch s = _
  rw [execBcPrepare, hcheck, Bool.and_false, guardedBc, guarded_false, record_cfgError]

/-- Settles O3: the reasons from the checks of the decoder on the word's row, the effects from RECORD and the operand
checks. -/
theorem illegalWordsExactly : Obligations.IllegalWordsExactly := by
  intro w s
  obtain ⟨hunknown, hreserved, hmask, hlegal⟩ := decode_reasons w
  refine ⟨hunknown, hreserved, hmask, hlegal, execute_of_illegalWhen s, ?mode, ?prepare⟩
  case mode =>
    intro chm char model hchm h
    rw [execute_of_decode s (decode_encode_tsSetMode chm char model hchm), exec_tsSetMode_refused chm s h]
  case prepare =>
    intro nch h
    rw [execute_of_decode s (decode_encode_bcPrepare nch), exec_bcPrepare_refused s h]

end Sys2Proof.Machine
end

section
/-! PROOFS. The NOP of R252: a format N row compares all 32 bits, so that its one word is the row's match. -/

namespace Sys2Proof.Machine

/-- R202, R204: format N has no field, so its rows compare every bit. -/
theorem mask_of_formatN : ∀ r ∈ opTable, r.format = .n → r.mask = BitVec.allOnes 32 := by decide

/-- R206 (a): a word on a row of format N breaks a reservation unless it is the row's match. -/
theorem reservedBitSet_eq_true_iff_of_formatN {w : Word} {r : OpRow} (h : rowOf w = some r) (hn : r.format = .n) :
    reservedBitSet w = true ↔ w ≠ r.matchWord := by
  have hmasked := masked_eq_matchWord_iff h
  rw [mask_of_formatN r (mem_of_rowOf h) hn, BitVec.and_allOnes] at hmasked
  rw [ne_eq, hmasked, Bool.not_eq_false]

/-- R204: opcode 0 is NOP's. -/
theorem rowOf_of_opcode_zero {w : Word} (h : w.extractLsb' 0 8 = 0) :
    rowOf w = some ⟨"NOP", .n, 0x00000000, 0xFFFFFFFF, fun _ => .nop⟩ := by
  rw [rowOf, opcode, h]; rfl

theorem exec_nop (s : State) : exec .nop s = .next s := rfl

/-- Settles O28: NOP's row compares every bit of the word, and its meaning is the state it is given. -/
theorem nopResult : Obligations.NopResult := by
  refine ⟨exec_nop, rfl, fun w hop hw => ?_⟩
  have hrow := rowOf_of_opcode_zero hop
  have hreserved : reservedBitSet w = true := (reservedBitSet_eq_true_iff_of_formatN hrow rfl).2 hw
  rw [decode_of_rowOf hrow, hreserved, if_pos rfl]

end Sys2Proof.Machine
end

section
/-! PROOFS. The ToneShaper commands of 41_toneshaper.md. A command's parts for the two channels touch disjoint registers,
so its next state is one update of both channels at once; TS_PROCESS adds the result registers and the NonFinite
events. -/

namespace Sys2Proof.Machine

/-! ## The selected channels -/

/-- The state with the registers of every selected channel replaced by their image under f. -/
def updateSelected (chm : BitVec 2) (f : TsRegs → TsRegs) (s : State) : State :=
  { s with
    ts0 := if selectsLeft chm then f s.ts0 else s.ts0
    ts1 := if selectsRight chm then f s.ts1 else s.ts1 }

/-- R253: parts that rewrite their own channel's registers, by values that channel 0's part leaves unchanged, do so on
both channels at once. -/
theorem forSelected_setChannel (chm : BitVec 2) (f : State → TsRegs → TsRegs) (s : State)
    (hf : ∀ t, f (setChannel .left t s) = f s) :
    forSelected chm (fun c s => setChannel c (f s (channel c s)) s) s = updateSelected chm (f s) s := by
  rcases forSelected_cases chm (fun c s => setChannel c (f s (channel c s)) s) s with
    ⟨rfl, h⟩ | ⟨rfl, h⟩ | ⟨rfl, h⟩ | ⟨rfl, h⟩
  case inr.inr.inr => rw [h, hf]; rfl
  all_goals exact h

theorem updateSelected_idem {f : TsRegs → TsRegs} (hf : ∀ t, f (f t) = f t) (chm : BitVec 2) (s : State) :
    updateSelected chm f (updateSelected chm f s) = updateSelected chm f s := by
  simp only [updateSelected]
  congr 1 <;> split <;> simp only [hf]

/-! ## Command words -/

/-- R202: the word of a format C command is its opcode with the channel mask in bits 9:8. -/
theorem formatC_eq_wordC (op : Byte) (chm : BitVec 2) : 0#22 ++ chm ++ op = wordC (op.setWidth 32) chm := by
  revert op chm; decide +kernel

/-- R202: format M adds CHAR in bits 11:10 and MODEL in bits 14:12. -/
theorem encode_tsSetMode (chm char : BitVec 2) (model : BitVec 3) :
    encode (.tsSetMode chm char model) =
      wordC 0x11 chm ||| (char.setWidth 32 <<< 10) ||| (model.setWidth 32 <<< 12) := by
  revert chm char model; decide +kernel

/-- R202: format P adds T in bit 10. -/
theorem encode_tsProcess (chm : BitVec 2) (trim : Bool) :
    encode (.tsProcess chm trim) = wordC 0x14 chm ||| (if trim then 0x400 else 0) := by
  revert chm trim; decide +kernel

/-! ## TS_SET_RATE -/

theorem exec_tsSetRate (chm : BitVec 2) {s : State} (h : s.a0 ≠ 0) :
    exec (.tsSetRate chm) s = .next (updateSelected chm (setRateOf s.a0) s) := by
  change execTsSetRate chm s = _
  rw [execTsSetRate, bne_iff_ne.2 h, guarded_true, forSelected_setChannel chm (fun s => setRateOf s.a0) s fun _ => rfl]

theorem exec_tsSetRate_refused (chm : BitVec 2) {s : State} (h : s.a0 = 0) :
    exec (.tsSetRate chm) s = .next (refused (wordC 0x10 chm) s) := by
  have hcheck : (s.a0 != 0) = false := by rw [h]; rfl
  change execTsSetRate chm s = _
  rw [execTsSetRate, hcheck, guarded_false, record_cfgError, encode, formatC_eq_wordC]
  rfl

/-- R270: the multiple k of 44100 Hz covers the rates above (k - 1) * 44100 up to k * 44100. -/
theorem rateMultiple_eq {r k : Nat} (hlo : k * 44100 < r) (hhi : r ≤ (k + 1) * 44100) : rateMultiple r = k + 1 := by
  rw [rateMultiple, fsRef]; omega

theorem rateScale_single {r : Nat} (hlo : 1 ≤ r) (hhi : r ≤ 44100) : rateScale r = 0x3F800000 := by
  rw [rateScale, rateMultiple_eq (k := 0) (by omega) (by omega)]; decide +kernel

theorem rateScale_double {r : Nat} (hlo : 44101 ≤ r) (hhi : r ≤ 88200) : rateScale r = 0x3F000000 := by
  rw [rateScale, rateMultiple_eq (k := 1) (by omega) (by omega)]; decide +kernel

/-- Settles O29: both channels take the rate at once, and the two corner ranges have the multiples 1 and 2. -/
theorem setRateResult : Obligations.SetRateResult := by
  intro chm s _
  exact ⟨formatC_eq_wordC 0x10 chm, exec_tsSetRate chm, exec_tsSetRate_refused chm, fun _ => rateScale_single,
    fun _ => rateScale_double⟩

/-! ## TS_SET_MODE -/

/-- R62: the two fields of TS_MODE as a number. -/
theorem modeWord_eq_ofNat (char : BitVec 2) (model : BitVec 3) :
    modeWord char model = BitVec.ofNat 32 (16 * model.toNat + char.toNat) := by
  revert char model; decide +kernel

theorem exec_tsSetMode (chm : BitVec 2) {char : BitVec 2} {model : BitVec 3} (s : State) (hchar : char.toNat ≤ 2)
    (hmodel : model.toNat ≤ 4) :
    exec (.tsSetMode chm char model) s = .next (updateSelected chm
      (setModeOf (BitVec.ofNat 32 (16 * model.toNat + char.toNat))
        (recordAt s.pram (recordIndex char.toNat model.toNat))) s) := by
  change execTsSetMode chm char model s = _
  rw [execTsSetMode, decide_eq_true hchar, decide_eq_true hmodel, Bool.and_self, guarded_true,
    forSelected_setChannel chm
      (fun s => setModeOf (modeWord char model) (recordAt s.pram (recordIndex char.toNat model.toNat))) s fun _ => rfl,
    modeWord_eq_ofNat]

/-- Settles O30: no channel's part writes the preset RAM, so both channels take the same record. -/
theorem setModeResult : Obligations.SetModeResult := by
  intro chm char model s _
  exact ⟨encode_tsSetMode chm char model, exec_tsSetMode chm s, exec_tsSetMode_refused chm s⟩

/-! ## TS_SET_PROC -/

theorem exec_tsSetProc (chm : BitVec 2) {s : State} (h : inUnitInterval s.a0 = true) :
    exec (.tsSetProc chm) s = .next (updateSelected chm (setProcOf s.a0) s) := by
  change execTsSetProc chm s = _
  rw [execTsSetProc, h, guarded_true, forSelected_setChannel chm (fun s => setProcOf s.a0) s fun _ => rfl]

theorem exec_tsSetProc_refused (chm : BitVec 2) {s : State} (h : inUnitInterval s.a0 = false) :
    exec (.tsSetProc chm) s = .next (refused (wordC 0x12 chm) s) := by
  change execTsSetProc chm s = _
  rw [execTsSetProc, h, guarded_false, record_cfgError, encode, formatC_eq_wordC]
  rfl

/-- Settles O31: the operand check is the range [0, 1] of R452, evaluated at -0.0, the least subnormal and 50.0. -/
theorem setProcResult : Obligations.SetProcResult := by
  intro chm s _
  exact ⟨formatC_eq_wordC 0x12 chm, exec_tsSetProc chm, exec_tsSetProc_refused chm, by decide, by decide, by decide⟩

/-! ## TS_RESET -/

theorem exec_tsReset (chm : BitVec 2) (s : State) : exec (.tsReset chm) s = .next (updateSelected chm clearTs s) := by
  change execTsReset chm s = _
  rw [execTsReset, forSelected_setChannel chm (fun _ => clearTs) s fun _ => rfl]

/-- Settles O32: clearing a cleared channel changes nothing. -/
theorem tsResetResult : Obligations.TsResetResult := by
  intro chm s _
  refine ⟨formatC_eq_wordC 0x13 chm, exec_tsReset chm s, fun t ht => ?_⟩
  obtain rfl : updateSelected chm clearTs s = t := Host.Outcome.next.inj ((exec_tsReset chm s).symm.trans ht)
  rw [exec_tsReset, updateSelected_idem (f := clearTs) fun _ => rfl]

/-! ## The datapath of one sample -/

/-- Settles O34: the model's datapath is the pseudocode operation by operation, once the names it gives to TS_MODE.CHAR,
to the bits of FLAGS and to the envelope follower of R282 are written out. -/
theorem tsStepFormula : Obligations.TsStepFormula := by
  intro t x
  unfold tsDatapath followEnvelope modeChar flagG0 flagSP flagPS
  rfl

/-! ## TS_PROCESS -/

/-- R274: a channel's input sample, trimmed when T is 1. -/
def processInput (trim : Bool) (c : Chan) (s : State) : F32 :=
  if trim then fmul (operand c s) s.cp.inGain else operand c s

/-- R450, R454: the fault registers after channel c's non-finite check. -/
def errAfterTs (c : Chan) (bad : Bool) (e : ErrRegs) : ErrRegs :=
  if bad then { e with status := statusAfter e.status (.nonFiniteTs c), cause := causeCode (.nonFiniteTs c) } else e

/-- R283: channel 1's check comes last, so that its cause stands. -/
theorem errAfterTs_both (bad0 bad1 : Bool) (e : ErrRegs) :
    errAfterTs .right bad1 (errAfterTs .left bad0 e) = { e with
      status := e.status ||| (if bad0 then 8 else 0) ||| (if bad1 then 16 else 0)
      cause := if bad1 then 5 else if bad0 then 4 else e.cause } := by
  cases bad0 <;> cases bad1 <;> simp [errAfterTs, statusAfter, statusBit, causeCode]

/-- R274, R283: one channel's part of TS_PROCESS writes its result register, its repaired registers and, where there was
something to repair, the fault registers. -/
theorem processPart_eq (trim : Bool) (c : Chan) (s : State) :
    let d := tsDatapath (channel c s) (processInput trim c s)
    processPart trim c s =
      setResult c (if trim then fmul d.1 s.cp.outGain else d.1)
        (setChannel c (repairTs d.2) { s with err := errAfterTs c (!tsStateFinite d.2) s.err }) := by
  intro d
  change setResult c _ (tsStep c (processInput trim c s) s).2 = _
  congr 1
  rcases tsStep_cases c (processInput trim c s) s with ⟨hfin, hs⟩ | ⟨hfin, hs⟩
  · rw [hs, repairTs_of_finite hfin, hfin]; rfl
  · rw [hs, hfin]; cases c <;> rfl

/-- R274: the parts of the two channels read and write disjoint registers, but for the fault registers. -/
theorem exec_tsProcess (chm : BitVec 2) (trim : Bool) (s : State) :
    let d0 := tsDatapath s.ts0 (processInput trim .left s)
    let d1 := tsDatapath s.ts1 (processInput trim .right s)
    exec (.tsProcess chm trim) s = .next { s with
      r0 := if selectsLeft chm then (if trim then fmul d0.1 s.cp.outGain else d0.1) else s.r0
      r1 := if selectsRight chm then (if trim then fmul d1.1 s.cp.outGain else d1.1) else s.r1
      ts0 := if selectsLeft chm then repairTs d0.2 else s.ts0
      ts1 := if selectsRight chm then repairTs d1.2 else s.ts1
      err := errAfterTs .right (selectsRight chm && !tsStateFinite d1.2)
        (errAfterTs .left (selectsLeft chm && !tsStateFinite d0.2) s.err) } := by
  intro d0 d1
  change execTsProcess chm trim s = _
  rw [execTsProcess]
  rcases forSelected_cases chm (processPart trim) s with ⟨rfl, h⟩ | ⟨rfl, h⟩ | ⟨rfl, h⟩ | ⟨rfl, h⟩ <;>
    simp only [h, processPart_eq] <;> rfl

/-- Settles O33: the fault registers after both channels' checks are those of the two events in order. -/
theorem tsProcessResult : Obligations.TsProcessResult := by
  intro chm trim s _ clean x0 x1 d0 d1 bad0 bad1
  refine ⟨encode_tsProcess chm trim, ?_⟩
  rw [exec_tsProcess, errAfterTs_both]
  rfl

end Sys2Proof.Machine
end

section
/-! PROOFS. TS_SAT_EVAL, the waveshaper without the datapath around it (R326): a part reads nothing that either part
writes, so the command is one write of both result registers, and repeating it writes the same again. -/

namespace Sys2Proof.Machine

/-- The state with the result register of every selected channel replaced by its value under v. -/
def updateResults (chm : BitVec 2) (v : Chan → F32) (s : State) : State :=
  { s with
    r0 := if selectsLeft chm then v .left else s.r0
    r1 := if selectsRight chm then v .right else s.r1 }

/-- R253: parts that write their own channel's result register, by values that channel 0's part leaves unchanged, do so
on both channels at once. -/
theorem forSelected_setResult (chm : BitVec 2) (f : Chan → State → F32) (s : State)
    (hf : ∀ y, f .right (setResult .left y s) = f .right s) :
    forSelected chm (fun c s => setResult c (f c s) s) s = updateResults chm (f · s) s := by
  rcases forSelected_cases chm (fun c s => setResult c (f c s) s) s with
    ⟨rfl, h⟩ | ⟨rfl, h⟩ | ⟨rfl, h⟩ | ⟨rfl, h⟩
  case inr.inr.inr => rw [h, hf]; rfl
  all_goals exact h

theorem updateResults_idem (chm : BitVec 2) (v : Chan → F32) (s : State) :
    updateResults chm v (updateResults chm v s) = updateResults chm v s := by
  simp only [updateResults]
  congr 1 <;> split <;> rfl

/-- R326: the waveshaper of a channel reads no result register. -/
theorem satOperand_updateResults (c : Chan) (chm : BitVec 2) (v : Chan → F32) (s : State) :
    satOperand c (updateResults chm v s) = satOperand c s := by
  cases c <;> rfl

theorem exec_tsSatEval (chm : BitVec 2) (s : State) :
    exec (.tsSatEval chm) s = .next (updateResults chm (satOperand · s) s) := by
  change execTsSatEval chm s = _
  rw [execTsSatEval, forSelected_setResult chm satOperand s fun _ => rfl]

/-- Settles O35: the second command evaluates the same waveshapers, for they read no register that the first wrote. -/
theorem satEvalResult : Obligations.SatEvalResult := by
  intro chm s _
  refine ⟨formatC_eq_wordC 0x15 chm, exec_tsSatEval chm s, fun t ht => ?_⟩
  obtain rfl : updateResults chm (satOperand · s) s = t := Host.Outcome.next.inj ((exec_tsSatEval chm s).symm.trans ht)
  simp only [exec_tsSatEval, satOperand_updateResults, updateResults_idem]

end Sys2Proof.Machine
end

section
/-! PROOFS. The bus saturation of R395. Its soft clip copies the sign of its operand, so it is odd whatever the knee; and
what is not finite stays so through the clip's sums and quotients, so beyond the knee the clip divides two such values. -/

namespace Sys2Proof.Machine

/-! ## Signs and magnitudes (R15) -/

@[simp] theorem mag_fabs (x : F32) : mag (fabs x) = mag x := by
  rw [mag, mag, fabs, BitVec.toNat_and, Nat.and_mod_two_pow]
  exact Nat.and_two_pow_sub_one_of_lt_two_pow (Nat.mod_lt _ (by decide))

@[simp] theorem isNaN_fabs (x : F32) : isNaN (fabs x) = isNaN x := by simp [isNaN]

@[simp] theorem isFinite_fabs (x : F32) : isFinite (fabs x) = isFinite x := by simp [isFinite]

@[simp] theorem mag_copysign (a b : F32) : mag (copysign a b) = mag a := by
  have hsign : mag (b &&& 0x80000000) = 0 := by
    rw [mag, BitVec.toNat_and, Nat.and_mod_two_pow]
    exact Nat.and_zero _
  rw [copysign, mag, BitVec.toNat_or, Nat.or_mod_two_pow, ← mag, ← mag, hsign, Nat.or_zero]
  exact mag_fabs a

@[simp] theorem signOf_copysign (a b : F32) : signOf (copysign a b) = signOf b := by
  rw [signOf, copysign, BitVec.msb_or, BitVec.msb_and, BitVec.msb_and, signOf]
  simp [BitVec.msb_eq_decide]

@[simp] theorem isNaN_copysign (a b : F32) : isNaN (copysign a b) = isNaN a := by simp [isNaN]

@[simp] theorem signOf_fabs (x : F32) : signOf (fabs x) = false := by
  rw [signOf, fabs, BitVec.msb_and]
  exact Bool.and_false _

theorem fabs_fneg (x : F32) : fabs (fneg x) = fabs x :=
  eq_of_sign_mag (by simp) (by simp)

theorem copysign_fneg (a b : F32) : copysign a (fneg b) = fneg (copysign a b) :=
  eq_of_sign_mag (by simp) (by simp)

/-! ## Operands that are not finite -/

theorem isNaN_or_isInf {x : F32} (h : isFinite x = false) : isNaN x = true ∨ isInf x = true := by
  rw [isFinite_eq] at h
  cases hn : isNaN x <;> simp_all

/-- R11: a sum with an operand that is not finite is not finite. -/
theorem isFinite_fadd_left {a : F32} (b : F32) (h : isFinite a = false) : isFinite (fadd a b) = false := by
  rcases isNaN_or_isInf h with hn | hi
  · rw [fadd_nan_left b hn]; decide
  · rw [fadd, hi, if_pos rfl]
    split_ifs
    · decide
    · decide
    · exact h

theorem isFinite_fadd_right (a : F32) {b : F32} (h : isFinite b = false) : isFinite (fadd a b) = false := by
  cases ha : isFinite a with
  | false => exact isFinite_fadd_left b ha
  | true =>
    rcases isNaN_or_isInf h with hn | hi
    · rw [fadd_nan_right a hn]; decide
    · rw [fadd, isInf_of_isFinite ha, hi, if_neg Bool.false_ne_true, if_pos rfl]
      split
      · decide
      · exact h

/-- R11: a quotient of an operand that is not finite is not finite. -/
theorem isFinite_fdiv_left {a : F32} (b : F32) (h : isFinite a = false) : isFinite (fdiv a b) = false := by
  rcases isNaN_or_isInf h with hn | hi
  · rw [fdiv_nan_left b hn]; decide
  · have hinf : ∀ neg, isFinite (withSign neg 0x7F800000) = false := by decide
    rw [fdiv, hi, if_pos rfl]
    split_ifs
    · decide
    · decide
    · exact hinf _

/-- R12: infinity over infinity is an invalid operation. -/
theorem isNaN_fdiv_of_not_finite {a b : F32} (ha : isFinite a = false) (hb : isFinite b = false) :
    isNaN (fdiv a b) = true := by
  rcases isNaN_or_isInf ha with hn | hai
  · rw [fdiv_nan_left b hn]; decide
  rcases isNaN_or_isInf hb with hn | hbi
  · rw [fdiv_nan_right a hn]; decide
  · rw [fdiv, hai, hbi, if_pos rfl, if_pos rfl, ite_self, isNaN_canonNaN]

/-! ## The clip and its boost -/

theorem softClip_fneg (knee v : F32) : softClip knee (fneg v) = fneg (softClip knee v) := by
  rw [softClip, softClip, fabs_fneg]
  simp only [copysign_fneg]
  split <;> rfl

/-- R395's corner cases: beyond the knee, the clip of a NaN or of an infinity is a NaN. -/
theorem isNaN_softClip_of_not_finite {knee v : F32} (hv : isFinite v = false) (hknee : fle (fabs v) knee = false) :
    isNaN (softClip knee v) = true := by
  have hexcess : isFinite (fsub (fabs v) knee) = false := isFinite_fadd_left _ (by rw [isFinite_fabs, hv])
  have hratio := isNaN_fdiv_of_not_finite hexcess (isFinite_fadd_right fOne (isFinite_fdiv_left (fsub fOne knee) hexcess))
  rw [softClip, hknee, if_neg Bool.false_ne_true, isNaN_copysign, fadd_nan_right knee hratio, isNaN_canonNaN]

theorem busSat_of_not_finite {b : BcRegs} {v : F32} (hv : isFinite v = false) (hknee : fle (fabs v) b.knee = false) :
    busSat b v = canonNaN :=
  fmul_nan_left _ (isNaN_softClip_of_not_finite hv hknee)

/-- R395: a knee in [0, 1) lies below +infinity. -/
theorem fle_posInf_of_inHalfOpenUnit {knee : F32} (h : inHalfOpenUnit knee = true) : fle posInf knee = false := by
  obtain ⟨-, hlt⟩ := Bool.and_eq_true_iff.1 h
  have hn : isNaN knee = false := by
    cases hn : isNaN knee with
    | false => rfl
    | true => exact absurd hlt (by simp [(comparisons_of_isNaN (.inl hn)).1])
  have hone : orderKey fOne < orderKey posInf := by decide
  have hkey : orderKey knee < orderKey fOne := (flt_iff hn (by decide)).1 hlt
  rw [← Bool.not_eq_true, fle_iff (by decide) hn]
  omega

/-- Settles O45: the corner cases are values beyond the knee that are not finite, and the odd symmetry is the clip's. -/
theorem busSaturationFormula : Obligations.BusSaturationFormula := by
  intro b v KN a dd w0
  refine ⟨rfl, fun hnan => ?nan, fun hknee => ?infinity, fun hnumber => ?odd⟩
  case nan =>
    have hv : isFinite v = false := by rw [isFinite_eq, hnan]; rfl
    exact busSat_of_not_finite hv (comparisons_of_isNaN (.inl (by rw [isNaN_fabs, hnan]))).2.1
  case infinity => exact busSat_of_not_finite (by decide) (fle_posInf_of_inHalfOpenUnit hknee)
  case odd =>
    rw [busSat, softClip_fneg]
    exact fmul_fneg_left hnumber

end Sys2Proof.Machine
end

section
/-! PROOFS. The BusCompressor's setters and block commands of 44_bus_compressor.md: a setter that passes its check replaces
BusCompressor registers only, one that fails records its own word (R251). -/

namespace Sys2Proof.Machine

/-! ## BC_PREPARE -/

/-- R202: format Q has the channel count where format C has the channel mask. -/
theorem encode_bcPrepare (nch : BitVec 2) : encode (.bcPrepare nch) = wordC 0x30 nch := formatC_eq_wordC 0x30 nch

theorem exec_bcPrepare {nch : BitVec 2} {s : State} (h0 : s.a0 ≠ 0) (h1 : s.a1 ≠ 0) (hnch : nch = 1 ∨ nch = 2) :
    exec (.bcPrepare nch) s = .next { s with bc := prepareBc s.a0 s.a1 (nch.setWidth 32) s.bc } := by
  have hcount : (nch == 1#2 || nch == 2#2) = true := by rcases hnch with rfl | rfl <;> rfl
  change execBcPrepare nch s = _
  rw [execBcPrepare, bne_iff_ne.2 h0, bne_iff_ne.2 h1, hcount]
  rfl

/-- R371: BC_PREPARE refuses a rate or a block size of zero. -/
theorem exec_bcPrepare_refused_of_zero (nch : BitVec 2) {s : State} (h : s.a0 = 0 ∨ s.a1 = 0) :
    exec (.bcPrepare nch) s = .next (refused (encode (.bcPrepare nch)) s) := by
  have hcheck : (s.a0 != 0 && s.a1 != 0) = false := by rcases h with h | h <;> simp [h]
  change execBcPrepare nch s = _
  rw [execBcPrepare, hcheck, Bool.false_and, guardedBc, guarded_false, record_cfgError]

/-- Settles O38: BC_PREPARE writes none of the operands and parameters it reads, so repeating it writes the same again. -/
theorem prepareResult : Obligations.PrepareResult := by
  intro nch s
  refine ⟨encode_bcPrepare nch, exec_bcPrepare, fun h => ?refusal, fun t h0 h1 hnch ht => ?again⟩
  case refusal =>
    rw [← encode_bcPrepare]
    rcases or_assoc.2 h with hzero | hcount
    · exact exec_bcPrepare_refused_of_zero nch hzero
    · exact exec_bcPrepare_refused s hcount
  case again =>
    obtain rfl := Host.Outcome.next.inj ((exec_bcPrepare h0 h1 hnch).symm.trans ht)
    rw [exec_bcPrepare (s := { s with bc := prepareBc s.a0 s.a1 (nch.setWidth 32) s.bc }) h0 h1 hnch]
    rfl

/-! ## The setters that store their operand -/

/-- R251: the two clauses of a checked setter whose command word is w. -/
theorem checkedSetter_and {i : Instr} {ok : Bool} {w : Word} {s t : State} {rest : Prop}
    (hexec : exec i s = .next (if ok then t else refused w s)) (hword : encode i = w) (hrest : rest) :
    (ok = true → exec i s = .next t) ∧ (ok = false → exec i s = .next (refused w s)) ∧ encode i = w ∧ rest := by
  refine ⟨fun h => ?accepted, fun h => ?refusal, hword, hrest⟩
  case accepted => rw [hexec, if_pos h]
  case refusal => rw [hexec, h, if_neg Bool.false_ne_true]

/-- Settles O39: every setter is one check, in the comparisons of R452, and one register. -/
theorem plainSetterResults : Obligations.PlainSetterResults := by
  intro s
  refine checkedSetter_and (i := .bcSetThresh) rfl rfl ?_
  refine checkedSetter_and (i := .bcSetRatio) rfl rfl ?_
  refine checkedSetter_and (i := .bcSetMakeup) rfl rfl ?_
  refine checkedSetter_and (i := .bcSetDrive) rfl rfl ?_
  refine checkedSetter_and (i := .bcSetLink) rfl rfl ?_
  refine checkedSetter_and (i := .bcSetSatKnee) rfl rfl ?_
  refine checkedSetter_and (i := .bcSetBoost) rfl rfl ?_
  refine checkedSetter_and (i := .bcSetDcAmp) rfl rfl ?_
  rw [← and_true (encode .bcSetDcSeed = 0x3D)]
  exact checkedSetter_and (i := .bcSetDcSeed) rfl rfl trivial

/-! ## BC_SET_FLAGS, BC_RESET and BC_BLOCK_END -/

/-- R202: format F has HPF in bit 10 and MS in bit 11. -/
theorem encode_bcSetFlags (hpf ms : Bool) :
    encode (.bcSetFlags hpf ms) = 0x36 ||| (if hpf then 0x400 else 0) ||| (if ms then 0x800 else 0) := by
  revert hpf ms; decide

/-- R64: the two fields of BC_FLAGS as a number. -/
theorem bcFlagsWord_eq_or (hpf ms : Bool) : bcFlagsWord hpf ms = (if hpf then 1 else 0) ||| (if ms then 2 else 0) := by
  revert hpf ms; decide

/-- Settles O41: BC_SET_FLAGS makes no check, and the bits of its word and of BC_FLAGS are those of its two fields. -/
theorem setFlagsResult : Obligations.SetFlagsResult := by
  intro hpf ms s
  refine ⟨encode_bcSetFlags hpf ms, ?_⟩
  rw [← bcFlagsWord_eq_or]
  rfl

theorem exec_bcReset (s : State) : exec .bcReset s = .next { s with bc := clearDetector s.bc } := rfl

theorem clearDetector_idem (b : BcRegs) : clearDetector (clearDetector b) = clearDetector b := rfl

theorem exec_bcBlockEnd (s : State) : exec .bcBlockEnd s = .next { s with bc := { s.bc with lastGr := s.bc.env } } := rfl

/-- Settles O42: a cleared detector is cleared again to itself, and latching leaves the envelope that it latches. -/
theorem detectorClearAndLatch : Obligations.DetectorClearAndLatch := by
  intro s
  refine ⟨exec_bcReset s, exec_bcBlockEnd s, rfl, rfl, fun i hi t ht => ?_⟩
  rcases List.mem_pair.1 hi with rfl | rfl
  · obtain rfl := Host.Outcome.next.inj ((exec_bcReset s).symm.trans ht)
    rw [exec_bcReset, clearDetector_idem]
  · obtain rfl := Host.Outcome.next.inj ((exec_bcBlockEnd s).symm.trans ht)
    rw [exec_bcBlockEnd]

end Sys2Proof.Machine
end

section
/-! PROOFS. BC_FRAME operation by operation (R389 to R396, R398): the frame as one write of the result registers, the
repaired detector and the fault registers, with the rotations of both ends as choices per channel. -/

namespace Sys2Proof.Machine

/-- R390: what each channel enters with. -/
theorem msIn_eq (b : BcRegs) (x y : F32) :
    msIn b x y = (if b.flags.getLsbD 1 then fmul (fadd x y) sqrtHalf else x,
      if b.flags.getLsbD 1 then fmul (fsub x y) sqrtHalf else y) := by
  rw [msIn, msEnabled]
  split <;> rfl

/-- R396: what each channel leaves with, before the offset. -/
theorem msOut_eq (b : BcRegs) (x y : F32) :
    msOut b x y = (if b.nch = 2 ∧ b.flags.getLsbD 1 = true then fmul (fadd x y) sqrtHalf else x,
      if b.nch = 2 ∧ b.flags.getLsbD 1 = true then fmul (fsub x y) sqrtHalf else y) := by
  simp only [msOut, msEnabled, Bool.and_eq_true, decide_eq_true_eq]
  split <;> rfl

/-- R398, R450: the fault registers after the BusCompressor's non-finite check. -/
def errAfterBus (finite : Bool) (e : ErrRegs) : ErrRegs :=
  if finite then e else { e with status := e.status ||| 32, cause := 6 }

theorem record_nonFiniteBus (s : State) : record .nonFiniteBus s = { s with err := errAfterBus false s.err } := rfl

/-- R389, R398: the frame as one write. -/
theorem frame_eq (s : State) :
    let b := detectorStep s.bc s.a0 s.a1
    let out := frameOutputs b s.a0 s.a1
    frame s = { s with
      r0 := out.1
      r1 := if b.nch = 2 then out.2 else s.r1
      bc := repairBc b
      err := errAfterBus (bcStateFinite b) s.err } := by
  intro b out
  rcases frame_cases s with ⟨hfin, h⟩ | ⟨hfin, h⟩
  · rw [h, hfin]; rfl
  · rw [h, hfin, record_nonFiniteBus]

theorem exec_bcFrame {s : State} (h : ¬ (s.bc.flags.getLsbD 1 = true ∧ s.bc.nch = 1)) :
    exec .bcFrame s = .next (frame s) := by
  have hcheck : (msEnabled s.bc.flags && s.bc.nch == 1) = false := by
    rw [← Bool.not_eq_true, Bool.and_eq_true, beq_iff_eq]; exact h
  change execBcFrame s = _
  rw [execBcFrame, hcheck, Bool.not_false, guarded_true]

/-- R389, R490: a frame is refused while mid-side is enabled on a mono bus. -/
theorem exec_bcFrame_refused {s : State} (hms : s.bc.flags.getLsbD 1 = true) (hnch : s.bc.nch = 1) :
    exec .bcFrame s = .next (refused 0x41 s) := by
  have hcheck : (msEnabled s.bc.flags && s.bc.nch == 1) = true := by
    rw [Bool.and_eq_true, beq_iff_eq]; exact ⟨hms, hnch⟩
  change execBcFrame s = _
  rw [execBcFrame, hcheck, Bool.not_true, guarded_false, record_cfgError]
  rfl

/-- Settles O44: the model's frame is the rules' pseudocode once both rotations are written out per channel. -/
theorem frameResult : Obligations.FrameResult := by
  intro s b ms clean p0 p1 pk d h m lvl target env g v0 v1 q0 q1
  refine ⟨rfl, exec_bcFrame_refused, fun hcheck => ?_⟩
  have hin : msIn s.bc s.a0 s.a1 = (p0, p1) := msIn_eq s.bc s.a0 s.a1
  have hdetector : detectorStep s.bc s.a0 s.a1 = { b with env := env, scx := d, scy := h } := by
    rw [detectorStep, hin]; rfl
  have hout : frameOutputs { b with env := env, scx := d, scy := h } s.a0 s.a1 =
      (fadd q0 b.dcOff, fadd q1 b.dcOff) := by
    rw [frameOutputs, show msIn { b with env := env, scx := d, scy := h } s.a0 s.a1 = (p0, p1) from hin, msOut_eq]
    rfl
  rw [exec_bcFrame hcheck, frame_eq, hdetector, hout]
  rfl

end Sys2Proof.Machine
end

section
/-! PROOFS. The mid-side codec of 45_midside.md: MS_ENCODE and MS_DECODE are one function of the state, the rotation of R430
from the operand registers into the result registers. -/

namespace Sys2Proof.Machine

/-- R430: the rotation is two rounded operations per result, and BC_FLAGS is not among its operands. -/
theorem rotateOperands_eq (s : State) :
    rotateOperands s =
      { s with r0 := fmul (fadd s.a0 s.a1) 0x3F3504F3, r1 := fmul (fsub s.a0 s.a1) 0x3F3504F3 } := rfl

/-- R431: the rotation makes no check and records nothing. -/
@[simp] theorem rotateOperands_err (s : State) : (rotateOperands s).err = s.err := rfl

theorem exec_msEncode (s : State) : exec .msEncode s = .next (rotateOperands s) := rfl

/-- R432: decoding computes the same function as encoding. -/
theorem exec_msDecode_eq_msEncode (s : State) : exec .msDecode s = exec .msEncode s := rfl

/-- Settles O37: both commands are the one rotation, which leaves the fault registers whatever its operands are. -/
theorem midSideResults : Obligations.MidSideResults := by
  intro s
  rw [exec_msDecode_eq_msEncode, exec_msEncode, ← rotateOperands_eq]
  refine ⟨rfl, rfl, rfl, rfl, fun t ht => ?faults⟩
  case faults =>
    obtain rfl := Host.Outcome.next.inj ht
    exact rotateOperands_err s

end Sys2Proof.Machine
end

section
/-! PROOFS. The list of R452, command by command. The check of a command's meaning is the list's entry negated, which for
a range of numbers is R14's order with its NaN cases; the word a refused command records is the one it was decoded from;
and a command that is not refused records at most NonFinite events, which have STATUS bits of their own. -/

namespace Sys2Proof.Machine

/-! ## The word of a decoded command -/

/-- R203: a field read from a word and put back at its place is the word's bits there. -/
theorem setWidth_extractLsb'_shiftLeft (w : Word) (start len : Nat) :
    (w.extractLsb' start len).setWidth 32 <<< start = w &&& ((BitVec.allOnes len).setWidth 32 <<< start) := by
  refine BitVec.eq_of_getLsbD_eq fun i hi => ?_
  simp only [BitVec.getLsbD_shiftLeft, BitVec.getLsbD_setWidth, BitVec.getLsbD_extractLsb', BitVec.getLsbD_and,
    BitVec.getLsbD_allOnes]
  by_cases hstart : i < start
  · simp [hstart]
  · simp [hstart, hi, Nat.add_sub_cancel' (Nat.not_lt.1 hstart), Bool.and_comm, show i - start < 32 by omega]

/-- R203: the same for a field of one bit, put back as a constant or zero. -/
theorem ite_getLsbD_eq_and (w : Word) (i : Nat) : (if w.getLsbD i then 1#32 <<< i else 0) = w &&& (1#32 <<< i) := by
  rw [← BitVec.twoPow_eq, BitVec.and_twoPow]; rfl

theorem wordC_field98 (op w : Word) : wordC op (field98 w) = op ||| (w &&& 0x300) := by
  rw [wordC, field98, setWidth_extractLsb'_shiftLeft]; rfl

theorem encode_tsSetMode_fields (w : Word) :
    encode (.tsSetMode (field98 w) (fieldChar w) (fieldModel w)) = 0x11 ||| (w &&& 0x7F00) := by
  rw [encode_tsSetMode, wordC_field98, fieldChar, fieldModel, setWidth_extractLsb'_shiftLeft,
    setWidth_extractLsb'_shiftLeft, BitVec.or_assoc, BitVec.or_assoc, ← BitVec.and_or_distrib_left,
    ← BitVec.and_or_distrib_left]
  rfl

theorem encode_tsProcess_fields (w : Word) :
    encode (.tsProcess (field98 w) (w.getLsbD 10)) = 0x14 ||| (w &&& 0x700) := by
  have htrim : (if w.getLsbD 10 then (0x400 : Word) else 0) = w &&& 0x400 := ite_getLsbD_eq_and w 10
  rw [encode_tsProcess, wordC_field98, htrim, BitVec.or_assoc, ← BitVec.and_or_distrib_left]
  rfl

theorem encode_bcSetFlags_fields (w : Word) :
    encode (.bcSetFlags (w.getLsbD 10) (w.getLsbD 11)) = 0x36 ||| (w &&& 0xC00) := by
  have hhpf : (if w.getLsbD 10 then (0x400 : Word) else 0) = w &&& 0x400 := ite_getLsbD_eq_and w 10
  have hms : (if w.getLsbD 11 then (0x800 : Word) else 0) = w &&& 0x800 := ite_getLsbD_eq_and w 11
  rw [encode_bcSetFlags, hhpf, hms, BitVec.or_assoc, ← BitVec.and_or_distrib_left]
  rfl

/-- R202: the encoder puts into a row's match the bits of the word that the row's mask leaves to fields. -/
theorem encode_build_of_mem (w : Word) :
    ∀ r ∈ opTable, encode (r.build w) = r.matchWord ||| (w &&& ~~~r.mask) := by
  simp only [opTable, List.forall_mem_cons, encode_tsSetMode_fields, encode_tsProcess_fields, encode_bcSetFlags_fields]
  simp [encode, formatC_eq_wordC, wordC_field98]

/-- R202, R207: every bit of a word that decodes is opcode, field or reserved zero, so the encoder gives it back. -/
theorem encode_of_decode {w : Word} {i : Instr} (h : decode w = .ok i) : encode i = w := by
  cases hrow : rowOf w with
  | none => simp [decode, hrow] at h
  | some r =>
    simp only [decode, hrow] at h
    split_ifs at h with hmatch hmask
    obtain rfl := Except.ok.inj h
    rw [encode_build_of_mem w r (mem_of_rowOf hrow), ← not_ne_iff.1 hmatch, ← BitVec.and_or_distrib_left,
      BitVec.or_not_self, BitVec.and_allOnes]

/-! ## The operand ranges -/

/-- R14: between numbers `<=` holds exactly where the reversed `<` fails. -/
theorem fle_eq_not (a b : F32) : fle a b = !(isNaN a || isNaN b || flt b a) := by
  cases ha : isNaN a with
  | true => simp [fle, ha]
  | false =>
    cases hb : isNaN b with
    | true => simp [fle, hb]
    | false =>
      rw [Bool.eq_iff_iff, fle_iff ha hb, Bool.false_or, Bool.false_or, Bool.not_eq_true', ← Bool.not_eq_true,
        flt_iff hb ha, not_lt]

/-- R14: between numbers `<` holds exactly where the reversed `<=` fails. -/
theorem flt_eq_not (a b : F32) : flt a b = !(isNaN a || isNaN b || fle b a) := by
  rw [fle_eq_not b a]
  cases ha : isNaN a <;> cases hb : isNaN b <;> simp [flt, ha, hb]

@[simp] theorem isNaN_posZero : isNaN posZero = false := isNaN_of_isFinite isFinite_posZero

@[simp] theorem isNaN_fOne : isNaN fOne = false := by decide

theorem isFinite_eq_not (v : F32) : isFinite v = !(isNaN v || isInf v) := by rw [isFinite_eq, Bool.not_or]

theorem atLeastOne_eq_not (v : F32) : atLeastOne v = !(isNaN v || flt v fOne) := by
  rw [atLeastOne, fle_eq_not, isNaN_fOne, Bool.false_or]

theorem inUnitInterval_eq_not (v : F32) : inUnitInterval v = !(isNaN v || flt v posZero || flt fOne v) := by
  rw [inUnitInterval, fle_eq_not posZero, fle_eq_not v fOne]
  cases isNaN v <;> simp

theorem inHalfOpenUnit_eq_not (v : F32) : inHalfOpenUnit v = !(isNaN v || flt v posZero || fle fOne v) := by
  rw [inHalfOpenUnit, fle_eq_not posZero, flt_eq_not v fOne]
  cases isNaN v <;> simp

theorem finiteNonNegative_eq_not (v : F32) : finiteNonNegative v = !(flt v posZero || isNaN v || isInf v) := by
  rw [finiteNonNegative, isFinite_eq, fle_eq_not posZero]
  cases isNaN v <;> simp [Bool.and_comm]

theorem finitePositive_eq_not (v : F32) : finitePositive v = !(fle v posZero || isNaN v || isInf v) := by
  rw [finitePositive, isFinite_eq, flt_eq_not posZero]
  cases isNaN v <;> simp [Bool.and_comm]

/-- R271: CHAR has two bits and MODEL three, so what lies outside the table is CHAR 3 and MODEL 5 to 7. -/
theorem modeInRange_eq_not (char : BitVec 2) (model : BitVec 3) :
    (decide (char.toNat ≤ 2) && decide (model.toNat ≤ 4)) = !(char == 3#2 || decide (4 < model.toNat)) := by
  revert char model; decide

theorem prepareCheck_eq_not (rate block : Word) (nch : BitVec 2) :
    (rate != 0 && block != 0 && (nch == 1#2 || nch == 2#2))
      = !(rate == 0 || block == 0 || nch == 0#2 || nch == 3#2) := by
  have hcount : (nch == 1#2 || nch == 2#2) = !(nch == 0#2 || nch == 3#2) := by revert nch; decide
  rw [hcount, bne, bne, ← Bool.not_or, ← Bool.not_or, Bool.or_assoc (rate == 0 || block == 0)]

/-! ## What a command that is not refused leaves of the fault registers -/

/-- The fault registers e' record the same refusals and the same bus errors as e. -/
def SameRefusals (e e' : ErrRegs) : Prop :=
  e'.status.getLsbD 1 = e.status.getLsbD 1 ∧ e'.cmd = e.cmd ∧ e'.addr = e.addr

theorem SameRefusals.of_eq {e e' : ErrRegs} (h : e' = e) : SameRefusals e e' := by
  rw [h]; exact ⟨rfl, rfl, rfl⟩

theorem SameRefusals.trans {e e' e'' : ErrRegs} (h : SameRefusals e e') (h' : SameRefusals e' e'') :
    SameRefusals e e'' := by
  obtain ⟨hstatus, hcmd, haddr⟩ := h
  obtain ⟨hstatus', hcmd', haddr'⟩ := h'
  exact ⟨hstatus'.trans hstatus, hcmd'.trans hcmd, haddr'.trans haddr⟩

/-- R454: a NonFinite event of a channel has a STATUS bit of its own and names no command. -/
theorem sameRefusals_errAfterTs (c : Chan) (bad : Bool) (e : ErrRegs) : SameRefusals e (errAfterTs c bad e) := by
  cases bad with
  | false => exact .of_eq rfl
  | true => cases c <;> simp [SameRefusals, errAfterTs, statusAfter, statusBit]

/-- R454: the same for the NonFinite event of the BusCompressor. -/
theorem sameRefusals_errAfterBus (finite : Bool) (e : ErrRegs) : SameRefusals e (errAfterBus finite e) := by
  cases finite with
  | true => exact .of_eq rfl
  | false => simp [SameRefusals, errAfterBus]

theorem forSelected_setChannel_err (chm : BitVec 2) (f : Chan → State → TsRegs) (s : State) :
    (forSelected chm (fun c s => setChannel c (f c s) s) s).err = s.err :=
  forSelected_keeps (p := fun t => t.err = s.err) rfl fun c t h => (setChannel_err c _ t).trans h

/-! ## Every command against the list -/

/-- R452 for one command: refused with its own word where the list says so, and completed everywhere else. -/
def RefusedAsListed (i : Instr) (s : State) : Prop :=
  (cfgErrorWhen i s = true → exec i s = .next (refused (encode i) s))
  ∧ (cfgErrorWhen i s = false → ∃ t, exec i s = .next t ∧ SameRefusals s.err t.err)

/-- R251: a checked command is refused as listed where its check is the list's entry negated. -/
theorem RefusedAsListed.of_guarded {i : Instr} {ok : Bool} {effect : State → State} {s : State}
    (hexec : exec i s = .next (guarded i ok effect s)) (hcheck : ok = !cfgErrorWhen i s)
    (herr : SameRefusals s.err (effect s).err) : RefusedAsListed i s := by
  rw [hcheck] at hexec
  refine ⟨fun h => ?refusal, fun h => ⟨effect s, ?completion, herr⟩⟩
  case refusal => rw [hexec, h, Bool.not_true, guarded_false, record_cfgError]
  case completion => rw [hexec, h, Bool.not_false, guarded_true]

/-- R452: a command that is not on the list makes no check. -/
theorem RefusedAsListed.of_unlisted {i : Instr} {s t : State} (hexec : exec i s = .next t)
    (hlist : cfgErrorWhen i s = false) (herr : SameRefusals s.err t.err) : RefusedAsListed i s :=
  ⟨fun h => Bool.noConfusion (hlist.symm.trans h), fun _ => ⟨t, hexec, herr⟩⟩

theorem frame_err (s : State) : (frame s).err = errAfterBus (bcStateFinite (detectorStep s.bc s.a0 s.a1)) s.err := by
  rw [frame_eq]

/-- R452: the table row by row; only TS_PROCESS and BC_FRAME have an effect on the fault registers. -/
theorem refusedAsListed (i : Instr) (s : State) : RefusedAsListed i s := by
  cases i with
  | nop | msEncode | msDecode | bcSetFlags hpf ms | bcReset | bcBlockBegin | bcBlockEnd =>
    exact .of_unlisted rfl rfl (.of_eq rfl)
  | tsReset chm => exact .of_unlisted (exec_tsReset chm s) rfl (.of_eq rfl)
  | tsSatEval chm => exact .of_unlisted (exec_tsSatEval chm s) rfl (.of_eq rfl)
  | tsProcess chm trim =>
    exact .of_unlisted (exec_tsProcess chm trim s) rfl
      ((sameRefusals_errAfterTs .left _ _).trans (sameRefusals_errAfterTs .right _ _))
  | tsSetRate chm => exact .of_guarded rfl rfl (.of_eq (forSelected_setChannel_err chm _ s))
  | tsSetMode chm char model =>
    exact .of_guarded rfl (modeInRange_eq_not char model) (.of_eq (forSelected_setChannel_err chm _ s))
  | tsSetProc chm =>
    exact .of_guarded rfl (inUnitInterval_eq_not s.a0) (.of_eq (forSelected_setChannel_err chm _ s))
  | bcPrepare nch => exact .of_guarded rfl (prepareCheck_eq_not s.a0 s.a1 nch) (.of_eq rfl)
  | cpSetInTrim | cpSetOutTrim | bcSetThresh | bcSetMakeup | bcSetBoost =>
    exact .of_guarded rfl (isFinite_eq_not s.a0) (.of_eq rfl)
  | bcSetRatio => exact .of_guarded rfl (atLeastOne_eq_not s.a0) (.of_eq rfl)
  | bcSetAttack | bcSetRelease | bcSetDcAmp => exact .of_guarded rfl (finiteNonNegative_eq_not s.a0) (.of_eq rfl)
  | bcSetDrive | bcSetLink => exact .of_guarded rfl (inUnitInterval_eq_not s.a0) (.of_eq rfl)
  | bcSetSatKnee => exact .of_guarded rfl (inHalfOpenUnit_eq_not s.a0) (.of_eq rfl)
  | bcSetScFreq => exact .of_guarded rfl (finitePositive_eq_not s.a0) (.of_eq rfl)
  | bcSetDcSeed => exact .of_guarded rfl rfl (.of_eq rfl)
  | bcFrame =>
    refine .of_guarded rfl rfl ?_
    rw [frame_err]
    exact sameRefusals_errAfterBus _ s.err

/-- Settles O15: the meaning of every command agrees with the list, and the word that a refused command records is the
word it was decoded from. -/
theorem cfgErrorExactly : Obligations.CfgErrorExactly := by
  intro w i s hdecode
  obtain ⟨hrefused, hcompletes⟩ := refusedAsListed i s
  rw [execute_of_decode s hdecode]
  refine ⟨fun h => ?refusal, hcompletes⟩
  case refusal => rw [hrefused h, encode_of_decode hdecode, refused]

end Sys2Proof.Machine
end

section
/-! PROOFS. Hardware reset of 70_reset_and_hazards.md (R480): a step that takes the reset input leaves the reset state, both
channels hold the same registers, an empty preset RAM reads as DEFAULT_PRESET, and the auto-gain of a processing amount of
zero below no knee is exactly 1.0. -/

namespace Sys2Proof.Machine

/-! ## The state after hardware reset -/

/-- R481: the reset input is performed as one step, whatever the block was doing. -/
theorem step_hardReset {s : State} {rest : List HostInput} (h : s.pending = .hardReset :: rest) :
    step s = .next (hardReset { s with pending := rest }) := by
  simp only [step, stepOnce, h, perform]

@[simp] theorem channel_hardReset (c : Chan) (s : State) : channel c (hardReset s) = resetTs := by cases c <;> rfl

/-- R71: a record's words are the ones it was made from. -/
theorem recordWord_recordOfWords (f : Nat → Word) (i : Fin 32) : recordWord (recordOfWords f) i = f i := by
  fin_cases i <;> rfl

/-! ## The derived registers -/

/-- R275: a factor `1 + P*K` of the auto-gain is exactly 1.0 for a P of zero. -/
theorem fadd_fOne_fmul_zero {p k : F32} (hp : mag p = 0) (hk : isFinite k = true) : fadd fOne (fmul p k) = fOne := by
  have hprod : mag (fmul p k) = 0 := by rw [(fmul_zero_of_finite hk hp).2, mag_withSign _ _ (by decide)]
  exact (fadd_zero_of_nonzero (by decide) (by decide) hprod).1

/-- R275, R480 item 4: with P zero and not above the knee, AG is 1.0 over the product of two factors of 1.0. -/
theorem ag_eq_fOne {p : F32} {c : Record} (hp : mag p = 0) (hknee : flt c.knee p = false) (hk1 : isFinite c.k1 = true)
    (hk2 : isFinite c.k2 = true) : ag p c = fOne := by
  have hunit : fdiv fOne (fmul fOne fOne) = fOne := by decide +kernel
  simp only [ag, hknee, fadd_fOne_fmul_zero hp hk1, fadd_fOne_fmul_zero hp hk2, hunit, Bool.false_eq_true, if_false]

/-- R480 item 5: the sidechain coefficient of 150.0 Hz at 44100 Hz, a number because R377 uses no function unit. -/
theorem scAlpha_reset : scAlpha 0x43160000 44100 = 0x3F7AA4B6 := by decide +kernel

/-- Settles O26: the reset state read register by register; only the mirrors of the bundles, the auto-gain, BC_ALPHA_SC and
the preset RAM are more than a field of it. -/
theorem resetRegisters : Obligations.ResetRegisters := by
  intro s hs
  obtain ⟨rest, hpending⟩ := List.head?_eq_some_iff.1 hs
  refine ⟨_, step_hardReset hpending, ?globals, fun c => ?toneShaper, ?busCompressor, fun i => ?presetRam⟩
  case globals => exact ⟨rfl, rfl, rfl, rfl, rfl, rfl, rfl, rfl, rfl, rfl, rfl, rfl, rfl, rfl⟩
  case toneShaper =>
    simp only [peek, channel_hardReset]
    have hautoGain := ag_eq_fOne (p := posZero) (c := resetTs.acb) (by decide)
    exact ⟨rfl, rfl, rfl, rfl, rfl, rfl, rfl, rfl, recordWord_recordOfWords Config.defaultPreset, hautoGain⟩
  case busCompressor =>
    exact ⟨rfl, rfl, rfl, rfl, rfl, rfl, rfl, rfl, rfl, rfl, rfl, rfl, rfl, rfl, rfl, rfl, rfl, rfl, rfl, rfl,
      scAlpha_reset, rfl, rfl, rfl, rfl⟩
  case presetRam => exact pramWord_nil i

end Sys2Proof.Machine
end

section
/-! PROOFS. The round trip of the encoder and the decoder (30_encoding.md). Every field is a few bits wide, so that a
command's words are finitely many; that no two words decode to one command follows from the row of the opcode map. -/

namespace Sys2Proof.Machine

/-- R206, R207: what decoding the word of a command gives: the command, or the empty mask. -/
def RoundTrips (i : Instr) : Prop := decode (encode i) = if i.wellFormed then .ok i else .error .emptyMask

/-- R202, R203: the encoder and the decoder row by row, for every value of the row's fields. -/
theorem roundTrips (i : Instr) : RoundTrips i := by
  unfold RoundTrips
  cases i with
  | tsSetRate chm | tsSetProc chm | tsReset chm | tsSatEval chm => revert chm; decide +kernel
  | tsSetMode chm char model => revert chm char model; decide +kernel
  | tsProcess chm trim => revert chm trim; decide +kernel
  | bcPrepare nch => revert nch; decide +kernel
  | bcSetFlags hpf ms => revert hpf ms; decide +kernel
  | nop | cpSetInTrim | cpSetOutTrim | msEncode | msDecode | bcSetThresh | bcSetRatio | bcSetAttack | bcSetRelease
  | bcSetMakeup | bcSetDrive | bcSetLink | bcSetSatKnee | bcSetBoost | bcSetScFreq | bcSetDcAmp | bcSetDcSeed | bcReset
  | bcBlockBegin | bcFrame | bcBlockEnd => decide +kernel

theorem decode_encode {i : Instr} (h : i.wellFormed = true) : decode (encode i) = .ok i := by
  rw [roundTrips i, h, if_pos rfl]

theorem decode_encode_emptyMask {i : Instr} (h : i.wellFormed = false) : decode (encode i) = .error .emptyMask := by
  rw [roundTrips i, h, if_neg Bool.false_ne_true]

/-- Settles O1: every command, with every value of its fields, makes the round trip. -/
theorem decodeOfEncode : Obligations.DecodeOfEncode := fun _ => ⟨decode_encode, decode_encode_emptyMask⟩

/-- Settles O2: the encoder gives the word back, and the word of a command without a channel does not decode. -/
theorem encodeOfDecode : Obligations.EncodeOfDecode := by
  intro w i hdecode
  have hword : encode i = w := encode_of_decode hdecode
  refine ⟨hword, ?wellFormed⟩
  case wellFormed =>
    by_contra hempty
    have herror := decode_encode_emptyMask (Bool.eq_false_of_not_eq_true hempty)
    rw [hword, hdecode] at herror
    cases herror

/-- Settles O4: the decoder evaluated at the eight words. -/
theorem sampleWordsDecode : Obligations.SampleWordsDecode := by
  unfold Obligations.SampleWordsDecode; decide +kernel

end Sys2Proof.Machine
end

section
/-! PROOFS. Everything a command can do to the state, said once: a chain of elementary writes, each to one group of registers
and with the check it passed. An invariant of a register group is then proved over the writes to that group. -/

namespace Sys2Proof.Machine

/-! ## The elementary writes -/

/-- What a command may do to the registers of one ToneShaper channel (R270 to R273, R280, R283). -/
inductive TsWrite (t : TsRegs) : TsRegs → Prop
  | rate (r : Word) (h : r ≠ 0) : TsWrite t (setRateOf r t)
  | mode (char : BitVec 2) (model : BitVec 3) (acb : Record) (hchar : char.toNat ≤ 2) (hmodel : model.toNat ≤ 4) :
      TsWrite t (setModeOf (modeWord char model) acb t)
  | proc (p : F32) (h : inUnitInterval p = true) : TsWrite t (setProcOf p t)
  | clear : TsWrite t (clearTs t)
  | sample (x : F32) : TsWrite t (repairTs (tsDatapath t x).2)

/-- What a command may do to the BusCompressor's registers (R371 to R389, R399). -/
inductive BusWrite (b : BcRegs) : BcRegs → Prop
  | prepare (rate block : Word) (nch : BitVec 2) (hrate : rate ≠ 0) (hblock : block ≠ 0) (hnch : nch = 1 ∨ nch = 2) :
      BusWrite b (prepareBc rate block (nch.setWidth 32) b)
  | thresh (v : F32) (h : isFinite v = true) : BusWrite b { b with thresh := v }
  | ratio (v : F32) (h : atLeastOne v = true) : BusWrite b { b with ratio := v }
  | attack (v : F32) (h : finiteNonNegative v = true) :
      BusWrite b { b with attack := v, alphaA := alpha v b.rate.toNat }
  | release (v : F32) (h : finiteNonNegative v = true) :
      BusWrite b { b with release := v, alphaR := alpha v b.rate.toNat }
  | makeup (v : F32) (h : isFinite v = true) : BusWrite b { b with makeup := v }
  | flags (hpf ms : Bool) : BusWrite b { b with flags := bcFlagsWord hpf ms }
  | drive (v : F32) (h : inUnitInterval v = true) : BusWrite b { b with drive := v }
  | link (v : F32) (h : inUnitInterval v = true) : BusWrite b { b with link := v }
  | knee (v : F32) (h : inHalfOpenUnit v = true) : BusWrite b { b with knee := v }
  | boost (v : F32) (h : isFinite v = true) : BusWrite b { b with boost := v }
  | scFreq (v : F32) (h : finitePositive v = true) :
      BusWrite b { b with scFreq := v, alphaSc := scAlpha v b.rate.toNat }
  | dcAmp (v : F32) (h : finiteNonNegative v = true) : BusWrite b { b with dcAmp := v }
  | seed (v : Word) (h : v ≠ 0) : BusWrite b { b with lfsr := v }
  | clear : BusWrite b (clearDetector b)
  | advance : BusWrite b { b with lfsr := xorshift32 b.lfsr, dcOff := dcOffset b.dcAmp (xorshift32 b.lfsr) }
  | frame (x y : F32) : BusWrite b (repairBc (detectorStep b x y))
  | latch : BusWrite b { b with lastGr := b.env }

/-- What a command may do to the ChannelPair trims (R350, R351). -/
inductive TrimWrite (c : CpRegs) : CpRegs → Prop
  | input (v : F32) (h : isFinite v = true) : TrimWrite c { c with inDb := v, inGain := db2lin v }
  | output (v : F32) (h : isFinite v = true) : TrimWrite c { c with outDb := v, outGain := db2lin v }

/-- One write of a command: to one group of registers, or a fault or event recorded. -/
inductive Write (s : State) : State → Prop
  | fault (e : Event) : Write s (record e s)
  | result (c : Chan) (v : Word) : Write s (setResult c v s)
  | trim {cp : CpRegs} (h : TrimWrite s.cp cp) : Write s { s with cp := cp }
  | tone (c : Chan) {t : TsRegs} (h : TsWrite (channel c s) t) : Write s (setChannel c t s)
  | bus {b : BcRegs} (h : BusWrite s.bc b) : Write s { s with bc := b }

/-- The writes of a command, one after the other. -/
abbrev Writes : State → State → Prop := Relation.ReflTransGen Write

theorem forSelected_writes {part : Chan → State → State} (chm : BitVec 2) (s : State)
    (h : ∀ c s, Writes s (part c s)) : Writes s (forSelected chm part s) :=
  forSelected_keeps (p := Writes s) .refl fun c t ht => ht.trans (h c t)

theorem guarded_writes (i : Instr) {ok : Bool} {f : State → State} {s : State} (h : ok = true → Writes s (f s)) :
    Writes s (guarded i ok f s) := by
  rcases guarded_cases i ok f s with ⟨hok, heq⟩ | ⟨-, heq⟩ <;> rw [heq]
  · exact h hok
  · exact .single (.fault _)

theorem guardedBc_writes (i : Instr) {ok : Bool} {f : BcRegs → BcRegs} {s : State}
    (h : ok = true → BusWrite s.bc (f s.bc)) : Writes s (guardedBc i ok f s) :=
  guarded_writes i fun hok => .single (.bus (h hok))

/-- R274, R283: one sample writes its channel, perhaps a NonFinite event, and its result register. -/
theorem processPart_writes (trim : Bool) (c : Chan) (s : State) : Writes s (processPart trim c s) := by
  have hsample : ∀ x, Writes s (tsStep c x s).2 := by
    intro x
    have hchannel : Writes s (setChannel c (repairTs (tsDatapath (channel c s) x).2) s) := .single (.tone c (.sample x))
    unfold tsStep
    simp only
    split
    · exact hchannel
    · exact hchannel.tail (.fault _)
  exact (hsample _).tail (.result c _)

/-- R253: parts that rewrite their own channel, by values that channel 0's part leaves unchanged. -/
theorem forSelected_tone_writes (chm : BitVec 2) (f : State → TsRegs → TsRegs) (s : State)
    (hf : ∀ t, f (setChannel .left t s) = f s) (h : ∀ t, TsWrite t (f s t)) :
    Writes s (forSelected chm (fun c s => setChannel c (f s (channel c s)) s) s) := by
  rw [forSelected_setChannel chm f s hf, ← forSelected_setChannel chm (fun _ => f s) s fun _ => rfl]
  exact forSelected_writes chm s fun c _ => .single (.tone c (h _))

/-- R431, R432: the rotation writes both result registers. -/
theorem rotateOperands_writes (s : State) : Writes s (rotateOperands s) :=
  (Relation.ReflTransGen.single (.result .left (msRot s.a0 s.a1).1)).tail (.result .right (msRot s.a0 s.a1).2)

/-- R389, R398: one frame writes the result registers, the detector and perhaps a NonFinite event. -/
theorem frame_writes (s : State) : Writes s (frame s) := by
  set out := frameOutputs (detectorStep s.bc s.a0 s.a1) s.a0 s.a1 with hout
  have hleft : Writes s (setResult .left out.1 s) := .single (.result .left _)
  have hresults : Writes s { s with r0 := out.1, r1 := if s.bc.nch = 2 then out.2 else s.r1 } := by
    by_cases hnch : s.bc.nch = 2
    · rw [if_pos hnch]; exact hleft.tail (.result .right out.2)
    · rw [if_neg hnch]; exact hleft
  have hbus := hresults.tail (.bus (.frame s.a0 s.a1))
  rcases frame_cases s with ⟨-, heq⟩ | ⟨-, heq⟩ <;> rw [heq]
  · exact hbus
  · exact hbus.tail (.fault _)

/-- Every command completes, and what it does is a chain of elementary writes (R204, R450, R456). -/
theorem exec_writes (i : Instr) (s : State) : ∃ t, exec i s = .next t ∧ Writes s t := by
  cases i with
  | nop => exact ⟨s, rfl, .refl⟩
  | tsSetRate chm =>
    exact ⟨_, rfl, guarded_writes _ fun h =>
      forSelected_tone_writes chm (fun s => setRateOf s.a0) s (fun _ => rfl) fun _ => .rate _ (bne_iff_ne.1 h)⟩
  | tsSetMode chm char model =>
    refine ⟨_, rfl, guarded_writes _ fun h => ?_⟩
    obtain ⟨hchar, hmodel⟩ := Bool.and_eq_true_iff.1 h
    exact forSelected_tone_writes chm
      (fun s => setModeOf (modeWord char model) (recordAt s.pram (recordIndex char.toNat model.toNat))) s (fun _ => rfl)
      fun _ => .mode char model _ (of_decide_eq_true hchar) (of_decide_eq_true hmodel)
  | tsSetProc chm =>
    exact ⟨_, rfl, guarded_writes _ fun h =>
      forSelected_tone_writes chm (fun s => setProcOf s.a0) s (fun _ => rfl) fun _ => .proc _ h⟩
  | tsReset chm => exact ⟨_, rfl, forSelected_writes chm s fun c _ => .single (.tone c .clear)⟩
  | tsProcess chm trim => exact ⟨_, rfl, forSelected_writes chm s (processPart_writes trim)⟩
  | tsSatEval chm => exact ⟨_, rfl, forSelected_writes chm s fun c _ => .single (.result c _)⟩
  | cpSetInTrim => exact ⟨_, rfl, guarded_writes _ fun h => .single (.trim (.input _ h))⟩
  | cpSetOutTrim => exact ⟨_, rfl, guarded_writes _ fun h => .single (.trim (.output _ h))⟩
  | msEncode | msDecode => exact ⟨_, rfl, rotateOperands_writes s⟩
  | bcPrepare nch =>
    refine ⟨_, rfl, guardedBc_writes _ fun h => ?_⟩
    simp only [Bool.and_eq_true, Bool.or_eq_true, bne_iff_ne, beq_iff_eq] at h
    obtain ⟨⟨hrate, hblock⟩, hnch⟩ := h
    exact .prepare _ _ nch hrate hblock hnch
  | bcSetThresh => exact ⟨_, rfl, guardedBc_writes _ (.thresh _)⟩
  | bcSetRatio => exact ⟨_, rfl, guardedBc_writes _ (.ratio _)⟩
  | bcSetAttack => exact ⟨_, rfl, guardedBc_writes _ (.attack _)⟩
  | bcSetRelease => exact ⟨_, rfl, guardedBc_writes _ (.release _)⟩
  | bcSetMakeup => exact ⟨_, rfl, guardedBc_writes _ (.makeup _)⟩
  | bcSetFlags hpf ms => exact ⟨_, rfl, .single (.bus (.flags hpf ms))⟩
  | bcSetDrive => exact ⟨_, rfl, guardedBc_writes _ (.drive _)⟩
  | bcSetLink => exact ⟨_, rfl, guardedBc_writes _ (.link _)⟩
  | bcSetSatKnee => exact ⟨_, rfl, guardedBc_writes _ (.knee _)⟩
  | bcSetBoost => exact ⟨_, rfl, guardedBc_writes _ (.boost _)⟩
  | bcSetScFreq => exact ⟨_, rfl, guardedBc_writes _ (.scFreq _)⟩
  | bcSetDcAmp => exact ⟨_, rfl, guardedBc_writes _ (.dcAmp _)⟩
  | bcSetDcSeed => exact ⟨_, rfl, guardedBc_writes _ fun h => .seed _ (bne_iff_ne.1 h)⟩
  | bcReset => exact ⟨_, rfl, .single (.bus .clear)⟩
  | bcBlockBegin => exact ⟨_, rfl, .single (.bus .advance)⟩
  | bcFrame => exact ⟨_, rfl, guarded_writes _ fun _ => frame_writes s⟩
  | bcBlockEnd => exact ⟨_, rfl, .single (.bus .latch)⟩

/-- A property that every elementary write keeps is kept by every command. -/
theorem exec_keeps {I : State → Prop} (hw : ∀ s t, Write s t → I s → I t) {i : Instr} {s t : State} (hi : I s)
    (h : exec i s = .next t) : I t := by
  obtain ⟨t', ht', hwrites⟩ := exec_writes i s
  obtain rfl : t' = t := Host.Outcome.next.inj (ht'.symm.trans h)
  clear h ht'
  induction hwrites with
  | refl => exact hi
  | tail _ hlast ih => exact hw _ _ hlast ih

/-- A stored word goes to an operand register or to the preset RAM (R152). -/
theorem storeReg_cases (r : Reg) (v : Word) (s : State) :
    storeReg r v s = s ∨ storeReg r v s = { s with a0 := v } ∨ storeReg r v s = { s with a1 := v }
      ∨ ∃ i < 480, storeReg r v s = { s with pram := Memory.writeWord s.pram (pramOffset i) v } := by
  cases r with
  | a0 => exact .inr (.inl rfl)
  | a1 => exact .inr (.inr (.inl rfl))
  | pram i => exact .inr (.inr (.inr ⟨i, i.isLt, rfl⟩))
  | _ => exact .inl rfl

/-! ## Invariants of the register groups -/

/-- A property of each register group: the fault registers, the trims, both channels and the BusCompressor. -/
structure GroupsHold (E : ErrRegs → Prop) (C : CpRegs → Prop) (T : TsRegs → Prop) (B : BcRegs → Prop) (s : State) :
    Prop where
  err : E s.err
  cp : C s.cp
  ts0 : T s.ts0
  ts1 : T s.ts1
  bc : B s.bc

/-- An invariant of the register groups is kept by every step if the writes to each group keep that group's part, and
the reset state meets it. -/
theorem groupsHold_of_step {E : ErrRegs → Prop} {C : CpRegs → Prop} {T : TsRegs → Prop} {B : BcRegs → Prop}
    (hfault : ∀ e s, E s.err → E (record e s).err) (htrim : ∀ c c', TrimWrite c c' → C c → C c')
    (htone : ∀ t t', TsWrite t t' → T t → T t') (hbus : ∀ b b', BusWrite b b' → B b → B b')
    (hreset : GroupsHold E C T B State.reset) {s t : State} (hs : GroupsHold E C T B s)
    (h : step s = .next t) : GroupsHold E C T B t := by
  have hrecord : ∀ e s, GroupsHold E C T B s → GroupsHold E C T B (record e s) := by
    rintro e s ⟨herr, hcp, hts0, hts1, hbc⟩
    exact ⟨hfault e s herr, by rwa [record_cp], by rwa [record_ts0], by rwa [record_ts1], by rwa [record_bc]⟩
  have hwrite : ∀ s t, Write s t → GroupsHold E C T B s → GroupsHold E C T B t := by
    rintro s t hw hs
    cases hw with
    | fault e => exact hrecord e s hs
    | result c v => cases c <;> exact ⟨hs.err, hs.cp, hs.ts0, hs.ts1, hs.bc⟩
    | trim h => exact ⟨hs.err, htrim _ _ h hs.cp, hs.ts0, hs.ts1, hs.bc⟩
    | tone c h =>
      cases c with
      | left => exact ⟨hs.err, hs.cp, htone _ _ h hs.ts0, hs.ts1, hs.bc⟩
      | right => exact ⟨hs.err, hs.cp, hs.ts0, htone _ _ h hs.ts1, hs.bc⟩
    | bus h => exact ⟨hs.err, hs.cp, hs.ts0, hs.ts1, hbus _ _ h hs.bc⟩
  refine step_keeps (fun s _ _ hs => ⟨hs.err, hs.cp, hs.ts0, hs.ts1, hs.bc⟩) hrecord (fun r v s hs => ?stored)
    (fun i s t => exec_keeps hwrite) hreset hs h
  case stored =>
    rcases storeReg_cases r v s with heq | heq | heq | ⟨i, -, heq⟩ <;> rw [heq]
    · exact hs
    all_goals exact ⟨hs.err, hs.cp, hs.ts0, hs.ts1, hs.bc⟩

end Sys2Proof.Machine
end

section
/-! PROOFS. The DC generator of R397: each of its three steps adds a shifted copy of the word to the word, which loses
nothing, because the bits at the end the shift leaves alone determine the next ones. -/

namespace Sys2Proof.Machine

/-- A word is determined by the sum with its own left shift: bit i of it is bit i of the sum, but for bit i - k. -/
theorem xor_shiftLeft_injective {k : Nat} (hk : 0 < k) : Function.Injective fun x : Word => x ^^^ x <<< k := by
  intro x y h
  have hbit : ∀ i, x.getLsbD i = y.getLsbD i := by
    intro i
    induction i using Nat.strong_induction_on with
    | _ i ih =>
      have hi := congrArg (fun w : Word => w.getLsbD i) h
      simp only [BitVec.getLsbD_xor, BitVec.getLsbD_shiftLeft] at hi
      by_cases hlow : i < k
      · simpa [hlow] using hi
      · rw [ih (i - k) (by omega)] at hi
        simpa using hi
  exact BitVec.eq_of_getLsbD_eq fun i _ => hbit i

/-- The same for the right shift, from the high bits down. -/
theorem xor_ushiftRight_injective {k : Nat} (hk : 0 < k) : Function.Injective fun x : Word => x ^^^ x >>> k := by
  intro x y h
  have hbit : ∀ n i, 32 ≤ i + n → x.getLsbD i = y.getLsbD i := by
    intro n
    induction n with
    | zero => intro i hi; rw [BitVec.getLsbD_of_ge x i hi, BitVec.getLsbD_of_ge y i hi]
    | succ n ih =>
      intro i hi
      have hsum := congrArg (fun w : Word => w.getLsbD i) h
      simp only [BitVec.getLsbD_xor, BitVec.getLsbD_ushiftRight] at hsum
      rw [ih (k + i) (by omega)] at hsum
      simpa using hsum
  exact BitVec.eq_of_getLsbD_eq fun i _ => hbit 32 i (by omega)

theorem xorshift32_injective : Function.Injective xorshift32 :=
  (xor_shiftLeft_injective (k := 5) (by decide)).comp
    ((xor_ushiftRight_injective (k := 17) (by decide)).comp (xor_shiftLeft_injective (k := 13) (by decide)))

theorem xorshift32_zero : xorshift32 0 = 0 := by decide

/-- R68: the generator never reaches zero. -/
theorem xorshift32_ne_zero {x : Word} (h : x ≠ 0) : xorshift32 x ≠ 0 := fun hx =>
  h (xorshift32_injective (hx.trans xorshift32_zero.symm))

/-- Settles O56: an injective function of the finitely many words is onto. -/
theorem generatorIsBijective : Obligations.GeneratorIsBijective :=
  ⟨fun _ _ h => xorshift32_injective h, Finite.surjective_of_injective xorshift32_injective, xorshift32_zero,
    fun _ => xorshift32_ne_zero⟩

end Sys2Proof.Machine
end

section
/-! PROOFS. What every step keeps (10_state.md section 2, 60_exceptions.md section 1): legal fields, legal parameters,
derived coefficients, finite persistent state and the preset RAM's form, each over the elementary writes of the commands. -/

namespace Sys2Proof.Machine

/-! ## Legal fields -/

/-- R54, R450: what the fault registers may hold. -/
def errLegal (e : ErrRegs) : Prop := e.status.toNat < 2 ^ 6 ∧ e.cause.toNat ≤ 6

/-- R64, R65, R68: what the BusCompressor's fields may hold. -/
def bcFieldsLegal (b : BcRegs) : Prop := b.flags.toNat < 2 ^ 2 ∧ (b.nch = 1 ∨ b.nch = 2) ∧ b.lfsr ≠ 0

theorem fieldsLegal_iff (s : State) :
    fieldsLegal s ↔ GroupsHold errLegal (fun _ => True) (fun t => modeLegal t.mode) bcFieldsLegal s := by
  constructor
  · rintro ⟨hstatus, hcause, hts0, hts1, hbc⟩
    exact ⟨⟨hstatus, hcause⟩, trivial, hts0, hts1, hbc⟩
  · rintro ⟨⟨hstatus, hcause⟩, -, hts0, hts1, hbc⟩
    exact ⟨hstatus, hcause, hts0, hts1, hbc⟩

theorem statusBit_lt (e : Event) : statusBit e < 6 := by
  cases e with
  | nonFiniteTs c => cases c <;> decide
  | _ => simp [statusBit]

theorem causeCode_le (e : Event) : (causeCode e).toNat ≤ 6 := by
  cases e with
  | nonFiniteTs c => cases c <;> decide
  | _ => simp [causeCode]

theorem errLegal_record (e : Event) (s : State) (h : errLegal s.err) : errLegal (record e s).err := by
  obtain ⟨hstatus, -⟩ := h
  refine ⟨?_, by rw [record_cause]; exact causeCode_le e⟩
  have hbit : (1#32 <<< statusBit e).toNat < 2 ^ 6 := by
    have hlt := statusBit_lt e
    generalize statusBit e = k at *
    interval_cases k <;> decide
  rw [record_status, statusAfter, BitVec.toNat_or]
  exact Nat.or_lt_two_pow hstatus hbit

theorem modeLegal_modeWord {char : BitVec 2} {model : BitVec 3} (hchar : char.toNat ≤ 2) (hmodel : model.toNat ≤ 4) :
    modeLegal (modeWord char model) := by
  have hfields : modeChar (modeWord char model) = char ∧ modeModel (modeWord char model) = model := by
    clear hchar hmodel
    revert char model
    decide +kernel
  rw [modeLegal, hfields.1, hfields.2]
  exact ⟨hchar, hmodel, rfl⟩

theorem modeLegal_of_tsWrite {t t' : TsRegs} (h : TsWrite t t') (ht : modeLegal t.mode) : modeLegal t'.mode := by
  cases h with
  | mode char model acb hchar hmodel => exact modeLegal_modeWord hchar hmodel
  | _ => exact ht

theorem bcFlagsWord_lt : ∀ hpf ms : Bool, (bcFlagsWord hpf ms).toNat < 2 ^ 2 := by decide

theorem bcFieldsLegal_of_busWrite {b b' : BcRegs} (h : BusWrite b b') (hb : bcFieldsLegal b) : bcFieldsLegal b' := by
  obtain ⟨hflags, hcount, hlfsr⟩ := hb
  cases h with
  | prepare rate block nch _ _ hnch =>
    refine ⟨hflags, ?_, hlfsr⟩
    rcases hnch with rfl | rfl
    · exact .inl rfl
    · exact .inr rfl
  | flags hpf ms => exact ⟨bcFlagsWord_lt hpf ms, hcount, hlfsr⟩
  | seed v hv => exact ⟨hflags, hcount, hv⟩
  | advance => exact ⟨hflags, hcount, xorshift32_ne_zero hlfsr⟩
  | _ => exact ⟨hflags, hcount, hlfsr⟩

theorem fieldsLegal_reset : fieldsLegal State.reset := by
  unfold fieldsLegal modeLegal
  decide +kernel

/-- Settles O20: STATUS bits and causes are those of RECORD's table, the modes are TS_SET_MODE's, and the generator never
reaches zero. -/
theorem stepKeepsFieldsLegal : Obligations.StepKeepsFieldsLegal := by
  intro s t hs h
  rw [fieldsLegal_iff] at hs ⊢
  exact groupsHold_of_step errLegal_record (fun _ _ _ _ => trivial) (fun _ _ => modeLegal_of_tsWrite)
    (fun _ _ => bcFieldsLegal_of_busWrite) ((fieldsLegal_iff _).1 fieldsLegal_reset) hs h

/-! ## Legal parameters -/

theorem paramsLegal_iff (s : State) :
    paramsLegal s ↔ GroupsHold (fun _ => True) (fun c => isFinite c.inDb = true ∧ isFinite c.outDb = true) tsParamsLegal
      bcParamsLegal s := by
  constructor
  · rintro ⟨hin, hout, hts0, hts1, hbc⟩
    exact ⟨trivial, ⟨hin, hout⟩, hts0, hts1, hbc⟩
  · rintro ⟨-, ⟨hin, hout⟩, hts0, hts1, hbc⟩
    exact ⟨hin, hout, hts0, hts1, hbc⟩

theorem trimsFinite_of_trimWrite {c c' : CpRegs} (h : TrimWrite c c')
    (hc : isFinite c.inDb = true ∧ isFinite c.outDb = true) : isFinite c'.inDb = true ∧ isFinite c'.outDb = true := by
  obtain ⟨hin, hout⟩ := hc
  cases h with
  | input v hv => exact ⟨hv, hout⟩
  | output v hv => exact ⟨hin, hv⟩

theorem tsParamsLegal_of_tsWrite {t t' : TsRegs} (h : TsWrite t t') (ht : tsParamsLegal t) : tsParamsLegal t' := by
  obtain ⟨hrate, hproc⟩ := ht
  cases h with
  | rate r hr => exact ⟨hr, hproc⟩
  | proc p hp => exact ⟨hrate, hp⟩
  | _ => exact ⟨hrate, hproc⟩

/-- R371 to R385: a setter's check is the range its register must lie in. -/
theorem bcParamsLegal_of_busWrite {b b' : BcRegs} (h : BusWrite b b') (hb : bcParamsLegal b) : bcParamsLegal b' := by
  obtain ⟨hrate, hblock, hthresh, hratio, hattack, hrelease, hmakeup, hdrive, hlink, hknee, hboost, hscFreq, hdcAmp⟩ := hb
  cases h with
  | prepare rate block nch hr hbl =>
    exact ⟨hr, hbl, hthresh, hratio, hattack, hrelease, hmakeup, hdrive, hlink, hknee, hboost, hscFreq, hdcAmp⟩
  | thresh v h =>
    exact ⟨hrate, hblock, h, hratio, hattack, hrelease, hmakeup, hdrive, hlink, hknee, hboost, hscFreq, hdcAmp⟩
  | ratio v h =>
    exact ⟨hrate, hblock, hthresh, h, hattack, hrelease, hmakeup, hdrive, hlink, hknee, hboost, hscFreq, hdcAmp⟩
  | attack v h =>
    exact ⟨hrate, hblock, hthresh, hratio, h, hrelease, hmakeup, hdrive, hlink, hknee, hboost, hscFreq, hdcAmp⟩
  | release v h =>
    exact ⟨hrate, hblock, hthresh, hratio, hattack, h, hmakeup, hdrive, hlink, hknee, hboost, hscFreq, hdcAmp⟩
  | makeup v h =>
    exact ⟨hrate, hblock, hthresh, hratio, hattack, hrelease, h, hdrive, hlink, hknee, hboost, hscFreq, hdcAmp⟩
  | drive v h =>
    exact ⟨hrate, hblock, hthresh, hratio, hattack, hrelease, hmakeup, h, hlink, hknee, hboost, hscFreq, hdcAmp⟩
  | link v h =>
    exact ⟨hrate, hblock, hthresh, hratio, hattack, hrelease, hmakeup, hdrive, h, hknee, hboost, hscFreq, hdcAmp⟩
  | knee v h =>
    exact ⟨hrate, hblock, hthresh, hratio, hattack, hrelease, hmakeup, hdrive, hlink, h, hboost, hscFreq, hdcAmp⟩
  | boost v h =>
    exact ⟨hrate, hblock, hthresh, hratio, hattack, hrelease, hmakeup, hdrive, hlink, hknee, h, hscFreq, hdcAmp⟩
  | scFreq v h =>
    exact ⟨hrate, hblock, hthresh, hratio, hattack, hrelease, hmakeup, hdrive, hlink, hknee, hboost, h, hdcAmp⟩
  | dcAmp v h =>
    exact ⟨hrate, hblock, hthresh, hratio, hattack, hrelease, hmakeup, hdrive, hlink, hknee, hboost, hscFreq, h⟩
  | flags | seed | clear | advance | frame | latch =>
    exact ⟨hrate, hblock, hthresh, hratio, hattack, hrelease, hmakeup, hdrive, hlink, hknee, hboost, hscFreq, hdcAmp⟩

theorem paramsLegal_reset : paramsLegal State.reset := by
  unfold paramsLegal tsParamsLegal bcParamsLegal
  decide +kernel

/-- Settles O21: a parameter register is written only with a value that passed its setter's check. -/
theorem stepKeepsParamsLegal : Obligations.StepKeepsParamsLegal := by
  intro s t hs h
  rw [paramsLegal_iff] at hs ⊢
  exact groupsHold_of_step (fun _ _ _ => trivial) (fun _ _ => trimsFinite_of_trimWrite) (fun _ _ => tsParamsLegal_of_tsWrite)
    (fun _ _ => bcParamsLegal_of_busWrite) ((paramsLegal_iff _).1 paramsLegal_reset) hs h

/-! ## Derived registers -/

theorem derivedAgree_iff (s : State) :
    derivedAgree s ↔ GroupsHold (fun _ => True)
      (fun c => c.inGain = db2lin c.inDb ∧ c.outGain = db2lin c.outDb) tsDerived bcDerived s := by
  constructor
  · rintro ⟨hin, hout, hts0, hts1, hbc⟩
    exact ⟨trivial, ⟨hin, hout⟩, hts0, hts1, hbc⟩
  · rintro ⟨-, ⟨hin, hout⟩, hts0, hts1, hbc⟩
    exact ⟨hin, hout, hts0, hts1, hbc⟩

theorem gainsDerived_of_trimWrite {c c' : CpRegs} (h : TrimWrite c c')
    (hc : c.inGain = db2lin c.inDb ∧ c.outGain = db2lin c.outDb) :
    c'.inGain = db2lin c'.inDb ∧ c'.outGain = db2lin c'.outDb := by
  obtain ⟨hin, hout⟩ := hc
  cases h with
  | input => exact ⟨rfl, hout⟩
  | output => exact ⟨hin, rfl⟩

theorem tsDerived_of_tsWrite {t t' : TsRegs} (h : TsWrite t t') (ht : tsDerived t) : tsDerived t' := by
  obtain ⟨hscale, hautoGain⟩ := ht
  cases h with
  | rate => exact ⟨rfl, hautoGain⟩
  | mode | proc => exact ⟨hscale, rfl⟩
  | clear | sample => exact ⟨hscale, hautoGain⟩

theorem bcDerived_of_busWrite {b b' : BcRegs} (h : BusWrite b b') (hb : bcDerived b) : bcDerived b' := by
  obtain ⟨hattack, hrelease, hsc⟩ := hb
  cases h with
  | prepare => exact ⟨rfl, rfl, rfl⟩
  | attack => exact ⟨rfl, hrelease, hsc⟩
  | release => exact ⟨hattack, rfl, hsc⟩
  | scFreq => exact ⟨hattack, hrelease, rfl⟩
  | _ => exact ⟨hattack, hrelease, hsc⟩

/-- R17, R350: a trim of 0 dB has the gain 1.0. -/
theorem db2lin_posZero : db2lin posZero = fOne := by decide +kernel

theorem derivedAgree_reset : derivedAgree State.reset :=
  ⟨db2lin_posZero.symm, db2lin_posZero.symm, ⟨(rateScale_single (by decide) (by decide)).symm, rfl⟩,
    ⟨(rateScale_single (by decide) (by decide)).symm, rfl⟩, rfl, rfl, rfl⟩

/-- Settles O22: whatever writes a register that a coefficient is derived from writes the coefficient with it. -/
theorem stepKeepsDerivedAgree : Obligations.StepKeepsDerivedAgree := by
  intro s t hs h
  rw [derivedAgree_iff] at hs ⊢
  exact groupsHold_of_step (fun _ _ _ => trivial) (fun _ _ => gainsDerived_of_trimWrite) (fun _ _ => tsDerived_of_tsWrite)
    (fun _ _ => bcDerived_of_busWrite) ((derivedAgree_iff _).1 derivedAgree_reset) hs h

/-! ## Finite persistent state -/

/-- R398, R399: the detector state and the meter latched from it are finite. -/
def bcPersistentFinite (b : BcRegs) : Prop := bcStateFinite b = true ∧ isFinite b.lastGr = true

theorem stateFinite_iff (s : State) :
    stateFinite s ↔ GroupsHold (fun _ => True) (fun _ => True) (fun t => tsStateFinite t = true) bcPersistentFinite s := by
  constructor
  · rintro ⟨hts0, hts1, hbc⟩
    exact ⟨trivial, trivial, hts0, hts1, hbc⟩
  · rintro ⟨-, -, hts0, hts1, hbc⟩
    exact ⟨hts0, hts1, hbc⟩

theorem tsStateFinite_of_tsWrite {t t' : TsRegs} (h : TsWrite t t') (ht : tsStateFinite t = true) :
    tsStateFinite t' = true := by
  cases h with
  | clear => rfl
  | sample x => exact tsStateFinite_repairTs _
  | rate | mode | proc => exact ht

theorem bcPersistentFinite_of_busWrite {b b' : BcRegs} (h : BusWrite b b') (hb : bcPersistentFinite b) :
    bcPersistentFinite b' := by
  obtain ⟨hstate, hmeter⟩ := hb
  cases h with
  | prepare | clear => exact ⟨rfl, rfl⟩
  | frame x y => exact ⟨bcStateFinite_repairBc _, hmeter⟩
  | latch =>
    obtain ⟨henvScx, -⟩ := Bool.and_eq_true_iff.1 hstate
    exact ⟨hstate, (Bool.and_eq_true_iff.1 henvScx).1⟩
  | _ => exact ⟨hstate, hmeter⟩

theorem stateFinite_reset : stateFinite State.reset := ⟨rfl, rfl, rfl, rfl⟩

/-- Settles O23: the repairs of R283 and R398 follow every sample and every frame, and the meter latches a finite
envelope. -/
theorem stepKeepsStateFinite : Obligations.StepKeepsStateFinite := by
  intro s t hs h
  rw [stateFinite_iff] at hs ⊢
  exact groupsHold_of_step (fun _ _ _ => trivial) (fun _ _ _ _ => trivial) (fun _ _ => tsStateFinite_of_tsWrite)
    (fun _ _ => bcPersistentFinite_of_busWrite) ((stateFinite_iff _).1 stateFinite_reset) hs h

/-! ## The preset RAM and the host's side of the state -/

/-- R75, R152: no command writes the preset RAM, the operand registers or the model's own fields. -/
theorem Write.frame {s t : State} (h : Write s t) :
    t.pram = s.pram ∧ t.a0 = s.a0 ∧ t.a1 = s.a1 ∧ t.pending = s.pending ∧ t.resp = s.resp := by
  cases h with
  | fault e => simp
  | result c v => simp
  | tone c h => simp
  | trim | bus => exact ⟨rfl, rfl, rfl, rfl, rfl⟩

theorem wf_storeReg (r : Reg) (v : Word) (s : State) (h : Memory.wf s.pram = true) :
    Memory.wf (storeReg r v s).pram = true := by
  rcases storeReg_cases r v s with heq | heq | heq | ⟨i, hi, heq⟩ <;> rw [heq]
  case inr.inr.inr => exact wf_writeWord _ _ _ h (Nat.le_add_right _ _) (by simp only [pramOffset, pramBase, pramEnd]; omega)
  all_goals exact h

/-- Settles O24: only a host's write to the preset RAM changes its cells, and it stays inside the window of the RAM. -/
theorem stepKeepsMemoryForm : Obligations.StepKeepsMemoryForm := by
  intro s t hs h
  refine step_keeps (I := fun s => Memory.wf s.pram = true) (fun _ _ _ h => h) (fun e s h => ?fault) wf_storeReg
    (fun i s t => exec_keeps (I := fun s => Memory.wf s.pram = true) fun s t hw hs => ?command) wf_nil hs h
  case fault => rwa [record_pram]
  case command => rwa [hw.frame.1]

/-- Settles O25: the reset state meets the five invariants. -/
theorem resetMeetsInvariants : Obligations.ResetMeetsInvariants :=
  ⟨fieldsLegal_reset, paramsLegal_reset, derivedAgree_reset, stateFinite_reset, wf_nil⟩

/-! ## Steps complete and STATUS is sticky -/

/-- Settles O7: every case of the port and of the dispatch ends in a next state. -/
theorem everyStepCompletes : Obligations.EveryStepCompletes := by
  intro s
  have hexecute : ∀ w s, ∃ t, execute w s = .next t := by
    intro w s
    unfold execute
    split
    · next i _ =>
      obtain ⟨t, ht, -⟩ := exec_writes i s
      exact ⟨t, ht⟩
    · exact ⟨_, rfl⟩
  unfold step stepOnce
  split
  · exact ⟨_, rfl⟩
  · next i rest _ =>
    cases i with
    | read | hardReset => exact ⟨_, rfl⟩
    | write a n v =>
      simp only [perform, memWrite]
      split
      · exact ⟨_, rfl⟩
      · split
        · exact ⟨_, rfl⟩
        · exact hexecute _ _
        · exact ⟨_, rfl⟩

/-- Every STATUS bit of w is set. -/
def StatusKept (w : Word) (s : State) : Prop := w &&& s.err.status = w

theorem statusKept_record {w : Word} (e : Event) (s : State) (h : StatusKept w s) : StatusKept w (record e s) := by
  refine BitVec.eq_of_getLsbD_eq fun i hi => ?_
  have hbit := congrArg (fun x : Word => x.getLsbD i) h
  simp only [BitVec.getLsbD_and] at hbit
  rw [record_status, statusAfter, BitVec.getLsbD_and, BitVec.getLsbD_or, Bool.and_or_distrib_left, hbit]
  cases w.getLsbD i <;> simp

theorem statusKept_of_write {w : Word} {s t : State} (h : Write s t) (hs : StatusKept w s) : StatusKept w t := by
  cases h with
  | fault e => exact statusKept_record e s hs
  | result c v => rwa [StatusKept, setResult_err]
  | tone c h => rwa [StatusKept, setChannel_err]
  | trim | bus => exact hs

theorem statusKept_storeReg {w : Word} (r : Reg) (v : Word) (s : State) (h : StatusKept w s) :
    StatusKept w (storeReg r v s) := by
  rcases storeReg_cases r v s with heq | heq | heq | ⟨i, -, heq⟩ <;> rw [heq] <;> exact h

/-- R54: a transaction of the host clears no STATUS bit. -/
theorem statusKept_of_step {s t : State} (h : step s = .next t) (hreset : s.pending.head? ≠ some .hardReset) :
    StatusKept s.err.status t := by
  have hs : ∀ p r, StatusKept s.err.status { s with pending := p, resp := r } := fun _ _ => BitVec.and_self
  rcases step_cases h with ⟨-, rfl⟩ | ⟨a, n, rest, -, rfl⟩ | ⟨a, n, v, rest, -, hw⟩ | ⟨rest, hp, -⟩
  · exact hs _ _
  · rcases memRead_cases a n { s with pending := rest } with ⟨-, heq⟩ | ⟨r, -, heq⟩ <;> rw [heq]
    · exact statusKept_record _ _ (hs _ _)
    · exact hs _ _
  · rcases memWrite_cases hw with rfl | ⟨r, -, -, rfl⟩ | ⟨i, -, hexec⟩ | ⟨e, -, rfl⟩
    · exact statusKept_record _ _ (hs _ _)
    · exact statusKept_storeReg _ _ _ (hs _ _)
    · exact exec_keeps (fun _ _ => statusKept_of_write) (hs _ _) hexec
    · exact statusKept_record _ _ (hs _ _)
  · exact absurd (by rw [hp]; rfl) hreset

/-- Settles O14: RECORD only sets bits and nothing else but hardware reset writes STATUS. -/
theorem statusBitsAreSticky : Obligations.StatusBitsAreSticky := by
  intro s t h
  refine ⟨statusKept_of_step h, fun hreset => ?reset⟩
  case reset =>
    obtain ⟨rest, hpending⟩ := List.head?_eq_some_iff.1 hreset
    obtain rfl := Host.Outcome.next.inj ((step_hardReset hpending).symm.trans h)
    rfl

end Sys2Proof.Machine
end

section
/-! PROOFS. The host port of 20_memory.md: which register an offset names (R153), what a read returns, which accesses are a
BusError (R453), and that the window shows the whole state (10_state.md section 4). -/

namespace Sys2Proof.Machine

/-! ## The register at an offset -/

theorem accessed_word (a : Addr) : accessed a 4 = regAt a.toNat := by
  rw [accessed, if_neg (by decide)]
  split
  · next h => rw [regAt, if_pos h]
  · rfl

theorem accessed_of_ne_word (a : Addr) {n : Nat} (h : n ≠ 4) : accessed a n = none := by rw [accessed, if_pos h]

theorem regAt_pram {i : Nat} (h : i < 480) : regAt (0x1000 + 4 * i) = some (.pram ⟨i, h⟩) := by
  rw [regAt, if_neg (by omega), dif_pos ⟨by omega, by omega⟩]
  congr 3; omega

theorem regAt_acb_left {f : Nat} (h : f < 32) : regAt (0x0200 + 4 * f) = some (.acb .left ⟨f, h⟩) := by
  rw [regAt, if_neg (by omega), dif_neg (by omega), dif_pos ⟨by omega, by omega⟩]
  congr 3; omega

theorem regAt_acb_right {f : Nat} (h : f < 32) : regAt (0x0280 + 4 * f) = some (.acb .right ⟨f, h⟩) := by
  rw [regAt, if_neg (by omega), dif_neg (by omega), dif_neg (by omega), dif_pos ⟨by omega, by omega⟩]
  congr 3; omega

theorem toNat_ofNat_addr {n : Nat} (h : n < 2 ^ 16) : (BitVec.ofNat 16 n).toNat = n := by
  rw [BitVec.toNat_ofNat, Nat.mod_eq_of_lt h]

theorem regAt_of_mem_namedRegs : ∀ q ∈ namedRegs, regAt (BitVec.ofNat 16 q.1).toNat = some q.2 := by decide +kernel

theorem lt_of_mem_namedRegs : ∀ q ∈ namedRegs, q.1 < 0x360 := by decide

/-- R153: from the end of the BusCompressor's registers on, an offset names a word of the preset RAM or nothing. -/
theorem regAt_high {n : Nat} (h : 0x360 ≤ n) :
    (n % 4 = 0 ∧ 0x1000 ≤ n ∧ n < 0x1780 ∧ ∃ i, regAt n = some (.pram i))
      ∨ (¬ (n % 4 = 0 ∧ 0x1000 ≤ n ∧ n < 0x1780) ∧ regAt n = none) := by
  by_cases hram : n % 4 = 0 ∧ 0x1000 ≤ n ∧ n < 0x1780
  · obtain ⟨halign, hlo, hhi⟩ := hram
    refine .inl ⟨halign, hlo, hhi, ⟨(n - 0x1000) / 4, by omega⟩, ?_⟩
    rw [← regAt_pram]
    congr 1; omega
  · refine .inr ⟨hram, ?_⟩
    unfold regAt
    split
    · rfl
    · have hnamed : namedRegs.find? (fun p => p.1 == n) = none := by
        rw [List.find?_eq_none]
        intro q hq
        have hlt := lt_of_mem_namedRegs q hq
        simp only [beq_iff_eq]
        omega
      rw [dif_neg (by omega), dif_neg (by omega), dif_neg (by omega), hnamed]
      rfl

/-- What an access may do at an offset: reach a register at all, and reach one that is not RO. -/
def AccessAsMapped (a : Addr) : Prop :=
  (regAt a.toNat).isSome = mappedOffset a ∧ (regAt a.toNat).any (fun r => accessOf r != .ro) = writableOffset a

theorem accessAsMapped_low : ∀ n < 0x360, AccessAsMapped (BitVec.ofNat 16 n) := by
  unfold AccessAsMapped; decide +kernel

/-- R51, R153: the address map has a register exactly at the mapped offsets, and one that is not RO exactly at the
writable ones. -/
theorem accessAsMapped (a : Addr) : AccessAsMapped a := by
  rcases Nat.lt_or_ge a.toNat 0x360 with hlow | hhigh
  · have h := accessAsMapped_low a.toNat hlow
    rwa [BitVec.ofNat_toNat, BitVec.setWidth_eq] at h
  · have hne : ∀ b : Addr, b.toNat < 0x360 → (a == b) = false := by
      intro b hb
      rw [beq_eq_false_iff_ne]
      rintro rfl
      omega
    have hmapped : mappedOffset a = decide (a.toNat % 4 = 0 ∧ 0x1000 ≤ a.toNat ∧ a.toNat < 0x1780) := by
      rw [Bool.eq_iff_iff, mappedOffset]
      simp only [Bool.and_eq_true, Bool.or_eq_true, decide_eq_true_eq, beq_iff_eq]
      omega
    have hwritable : writableOffset a = mappedOffset a := by
      rw [writableOffset, hne 0x18 (by decide), hne 0x20 (by decide), hne 0x24 (by decide), hmapped, Bool.eq_iff_iff]
      simp only [Bool.and_eq_true, Bool.or_eq_true, decide_eq_true_eq]
      tauto
    rw [AccessAsMapped, hwritable, hmapped]
    rcases regAt_high hhigh with ⟨halign, hlo, hhi, i, hreg⟩ | ⟨hram, hreg⟩ <;> rw [hreg]
    · rw [decide_eq_true ⟨halign, hlo, hhi⟩]; exact ⟨rfl, rfl⟩
    · rw [decide_eq_false hram]; exact ⟨rfl, rfl⟩

/-! ## Reads -/

theorem memRead_of_accessed {a : Addr} {n : Nat} {r : Reg} (s : State) (h : accessed a n = some r) :
    memRead a n s = { s with resp := .readData (peek r s) false } := by
  rw [memRead, h]

theorem memRead_of_not_accessed {a : Addr} {n : Nat} (s : State) (h : accessed a n = none) :
    memRead a n s = record (.busError a) { s with resp := .readData 0 true } := by
  rw [memRead, h]

theorem memRead_of_regAt {n : Nat} {r : Reg} (s : State) (hn : n < 2 ^ 16) (h : regAt n = some r) :
    memRead (BitVec.ofNat 16 n) 4 s = { s with resp := .readData (peek r s) false } :=
  memRead_of_accessed s (by rw [accessed_word, toNat_ofNat_addr hn, h])

/-- R51: the register map is the model's named registers, each with what a host reads there. -/
theorem registerMap_eq : registerMap = namedRegs.map fun q => (BitVec.ofNat 16 q.1, fun s => peek q.2 s) := rfl

/-- Settles O8: the named registers against the address map, the two ACB mirrors and the preset RAM by their ranges. -/
theorem registerMapReads : Obligations.RegisterMapReads := by
  intro s
  refine ⟨?named, fun f hf => ?left, fun f hf => ?right, fun i hi => ?presetRam⟩
  case named =>
    rw [registerMap_eq, List.forall_mem_map]
    intro q hq
    exact memRead_of_accessed s ((accessed_word _).trans (regAt_of_mem_namedRegs q hq))
  case left => exact memRead_of_regAt s (by omega) (regAt_acb_left hf)
  case right => exact memRead_of_regAt s (by omega) (regAt_acb_right hf)
  case presetRam => exact memRead_of_regAt s (by omega) (regAt_pram hi)

/-! ## Bus errors -/

/-- R152, R251: no command writes the preset RAM, the operand registers or the model's own fields. -/
theorem exec_frame {i : Instr} {s t : State} (h : exec i s = .next t) :
    t.pram = s.pram ∧ t.a0 = s.a0 ∧ t.a1 = s.a1 ∧ t.pending = s.pending ∧ t.resp = s.resp := by
  refine exec_keeps (I := fun u =>
    u.pram = s.pram ∧ u.a0 = s.a0 ∧ u.a1 = s.a1 ∧ u.pending = s.pending ∧ u.resp = s.resp) ?_ ⟨rfl, rfl, rfl, rfl, rfl⟩ h
  intro u v hw hu
  obtain ⟨hpram, ha0, ha1, hpending, hresp⟩ := hw.frame
  rwa [hpram, ha0, ha1, hpending, hresp]

/-- R453: no command records a BusError. -/
theorem exec_errAddr {i : Instr} {s t : State} (h : exec i s = .next t) : t.err.addr = s.err.addr := by
  obtain ⟨hrefused, hcompletes⟩ := refusedAsListed i s
  cases hlist : cfgErrorWhen i s with
  | true =>
    obtain rfl := Host.Outcome.next.inj ((hrefused hlist).symm.trans h)
    rfl
  | false =>
    obtain ⟨t', ht', -, -, haddr⟩ := hcompletes hlist
    obtain rfl := Host.Outcome.next.inj (ht'.symm.trans h)
    exact haddr

theorem execute_resp_errAddr {w : Word} {s t : State} (h : execute w s = .next t) :
    t.resp = s.resp ∧ t.err.addr = s.err.addr := by
  unfold execute at h
  split at h
  · obtain ⟨-, -, -, -, hresp⟩ := exec_frame h
    exact ⟨hresp, exec_errAddr h⟩
  · obtain rfl := Host.Outcome.next.inj h
    exact ⟨rfl, rfl⟩

/-- R151, R153: a host access reaches a register exactly when it is 32 bits wide at a mapped offset. -/
theorem isSome_accessed (a : Addr) (n : Nat) : (accessed a n).isSome = true ↔ n = 4 ∧ mappedOffset a = true := by
  by_cases hn : n = 4
  · rw [hn, accessed_word, (accessAsMapped a).1]; simp
  · simp [accessed_of_ne_word a hn, hn]

/-- R152: it reaches one that is not RO exactly when the offset is a writable one. -/
theorem any_accessed (a : Addr) (n : Nat) :
    (accessed a n).any (fun r => accessOf r != .ro) = true ↔ n = 4 ∧ writableOffset a = true := by
  by_cases hn : n = 4
  · rw [hn, accessed_word, (accessAsMapped a).2]; simp
  · simp [accessed_of_ne_word a hn, hn]

/-- R152: a write to no register or to one that is RO is a BusError. -/
theorem memWrite_busError {a : Addr} {n : Nat} (v : Word) (s : State)
    (h : (accessed a n).any (fun r => accessOf r != .ro) = false) :
    memWrite a n v s = .next (record (.busError a) { s with resp := .writeDone true }) := by
  unfold memWrite
  cases hr : accessed a n with
  | none => rfl
  | some r =>
    rw [hr, Option.any_some, bne_eq_false_iff_eq] at h
    simp only [h]

/-- R152: a write to any other register ends without an error. -/
theorem memWrite_completes {a : Addr} {n : Nat} {v : Word} {s t : State}
    (h : (accessed a n).any (fun r => accessOf r != .ro) = true) (ht : memWrite a n v s = .next t) :
    t.resp = .writeDone false ∧ t.err.addr = s.err.addr := by
  unfold memWrite at ht
  cases hr : accessed a n with
  | none => simp [hr] at h
  | some r =>
    simp only [hr] at ht
    cases hacc : accessOf r with
    | ro => simp [hr, hacc] at h
    | wo => rw [hacc] at ht; exact execute_resp_errAddr ht
    | rw =>
      rw [hacc] at ht
      obtain rfl := Host.Outcome.next.inj ht
      rcases storeReg_cases r v { s with resp := .writeDone false } with heq | heq | heq | ⟨i, -, heq⟩ <;> rw [heq] <;>
        exact ⟨rfl, rfl⟩

/-- Settles O9: the access reaches a register as the ranges of R153 say, and RECORD writes the offset. -/
theorem busErrorsExactly : Obligations.BusErrorsExactly := by
  intro s a n v
  rw [← isSome_accessed, ← any_accessed]
  refine ⟨fun h => ?readError, fun h => ?readOk, fun h => ?writeError, fun h t ht => memWrite_completes h ht⟩
  case readError => rw [memRead_of_not_accessed s (Option.not_isSome_iff_eq_none.1 h)]; rfl
  case readOk =>
    obtain ⟨r, hr⟩ := Option.isSome_iff_exists.1 h
    exact ⟨peek r s, memRead_of_accessed s hr⟩
  case writeError => rw [memWrite_busError v s (Bool.eq_false_of_not_eq_true h)]; rfl

/-! ## Writes -/

/-- Settles O10: the offsets of A0 and A1 are RW registers. -/
theorem operandWrites : Obligations.OperandWrites := fun _ _ => ⟨rfl, rfl⟩

theorem memWrite_pram {i : Nat} (hi : i < 480) (v : Word) (s : State) :
    memWrite (BitVec.ofNat 16 (0x1000 + 4 * i)) 4 v s =
      .next { s with resp := .writeDone false, pram := Memory.writeWord s.pram (pramOffset i) v } := by
  have hr : accessed (BitVec.ofNat 16 (0x1000 + 4 * i)) 4 = some (.pram ⟨i, hi⟩) := by
    rw [accessed_word, toNat_ofNat_addr (by omega), regAt_pram hi]
  unfold memWrite
  simp only [hr]
  rfl

/-- Settles O11: the four bytes of the word, by what a byte reads as after a word is written. -/
theorem presetRamWrite : Obligations.PresetRamWrite := by
  intro s i v hrising hi
  refine ⟨_, memWrite_pram hi v s, readWord_writeWord_same _ _ v hrising, fun k hk => ?otherWord, fun j hj => ?lane,
    fun a ha => ?otherByte⟩
  case otherWord => exact readWord_writeWord_other _ _ _ v hrising (by simp only [pramOffset]; omega)
  case lane =>
    rw [readByte_writeWord _ _ _ _ hrising, pramOffset, pramBase]
    interval_cases j <;> simp [byteLane]
  case otherByte =>
    rw [readByte_writeWord _ _ _ _ hrising, pramOffset, pramBase]
    iterate 4 rw [if_neg (by omega)]

/-! ## A step -/

/-- Settles O6: the head of the inputs is taken and performed. -/
theorem stepPerformsNextInput : Obligations.StepPerformsNextInput := by
  intro s rest
  refine ⟨fun h => ?idle, fun a n h => ?read, fun a n v h => ?write, step_hardReset⟩
  all_goals simp only [step, stepOnce, h, perform]

/-- Settles O5: CMD is write only, so a write executes its word and a read gives 0. -/
theorem stepRunsDecodedCommand : Obligations.StepRunsDecodedCommand := by
  intro s rest w
  obtain ⟨-, hread, hwrite, -⟩ := stepPerformsNextInput s rest
  refine ⟨fun h => ?command, fun h => hread _ _ h⟩
  case command =>
    have hstep : step s = execute w { s with pending := rest, resp := .writeDone false } := hwrite _ _ _ h
    refine ⟨hstep, fun i hi => ?legal, fun hillegal => ?illegal⟩
    case legal => rw [hstep, execute_of_decode _ hi]
    case illegal => rw [hstep, execute_of_illegalWhen _ hillegal]; rfl

/-- Settles O13: the table of R450, row by row. -/
theorem faultRecording : Obligations.FaultRecording := fun _ _ _ => ⟨rfl, rfl, rfl, rfl, rfl, rfl⟩

/-! ## The whole state through the window -/

theorem append_injective {v w : Nat} {a c : BitVec v} {b d : BitVec w} (h : a ++ b = c ++ d) : a = c ∧ b = d := by
  have hhigh := congrArg (BitVec.extractLsb' w v) h
  have hlow := congrArg (BitVec.extractLsb' 0 w) h
  rw [BitVec.extractLsb'_append_eq_left, BitVec.extractLsb'_append_eq_left] at hhigh
  rw [BitVec.extractLsb'_append_eq_right, BitVec.extractLsb'_append_eq_right] at hlow
  exact ⟨hhigh, hlow⟩

/-- R155: a word determines its bytes. -/
theorem wordOfBytes_injective {b0 b1 b2 b3 c0 c1 c2 c3 : Byte}
    (h : wordOfBytes b0 b1 b2 b3 = wordOfBytes c0 c1 c2 c3) : b0 = c0 ∧ b1 = c1 ∧ b2 = c2 ∧ b3 = c3 := by
  obtain ⟨h321, h0⟩ := append_injective h
  obtain ⟨h32, h1⟩ := append_injective h321
  obtain ⟨h3, h2⟩ := append_injective h32
  exact ⟨h0, h1, h2, h3⟩

/-- R70: two preset RAMs with the same words have the same bytes. -/
theorem readByte_eq_of_pramWord_eq {m m' : Memory} (h : ∀ i : Fin 480, pramWord m i = pramWord m' i) {a : Nat}
    (hlo : pramBase ≤ a) (hhi : a < pramEnd) : Memory.readByte m a = Memory.readByte m' a := by
  simp only [pramBase, pramEnd] at hlo hhi
  obtain ⟨i, j, hi, hj, rfl⟩ : ∃ i j, i < 480 ∧ j < 4 ∧ a = pramOffset i + j :=
    ⟨(a - 0x1000) / 4, a % 4, by omega, by omega, by simp only [pramOffset, pramBase]; omega⟩
  obtain ⟨h0, h1, h2, h3⟩ := wordOfBytes_injective (h ⟨i, hi⟩)
  interval_cases j
  · exact h0
  · exact h1
  · exact h2
  · exact h3

theorem Memory.mem_of_find {m : Memory} {a : Nat} {b : Byte} (h : Memory.find m a = some b) : (a, b) ∈ m := by
  induction m with
  | nil => simp [Memory.find] at h
  | cons c rest ih =>
    obtain ⟨k, v⟩ := c
    simp only [Memory.find] at h
    split at h
    · next hk => rw [← hk, Option.some.inj h]; exact List.mem_cons_self
    · exact List.mem_cons_of_mem _ (ih h)

/-- Cells in rising order are determined by what they list at each offset. -/
theorem Memory.eq_of_find_eq {m m' : Memory} {lo lo' : Nat} (h : Memory.risesFrom lo m) (h' : Memory.risesFrom lo' m')
    (hfind : ∀ a, Memory.find m a = Memory.find m' a) : m = m' := by
  induction m generalizing m' lo lo' with
  | nil =>
    cases m' with
    | nil => rfl
    | cons c rest => have hc := hfind c.1; simp [Memory.find] at hc
  | cons c rest ih =>
    cases m' with
    | nil => have hc := hfind c.1; simp [Memory.find] at hc
    | cons c' rest' =>
      obtain ⟨k, b⟩ := c
      obtain ⟨k', b'⟩ := c'
      obtain ⟨-, hrest⟩ := h
      obtain ⟨-, hrest'⟩ := h'
      have hk := hfind k
      have hk' := hfind k'
      simp only [Memory.find, if_true] at hk hk'
      have hkk : k' = k := by
        by_contra hne
        rw [if_neg hne] at hk
        rw [if_neg (Ne.symm hne)] at hk'
        rcases Nat.lt_or_ge k k' with hlt | hge
        · rw [Memory.find_none_of_risesFrom hrest' (by omega)] at hk
          cases hk
        · rw [Memory.find_none_of_risesFrom hrest (by omega)] at hk'
          cases hk'
      subst hkk
      rw [if_pos rfl] at hk
      obtain rfl := Option.some.inj hk
      rw [ih hrest hrest' fun a => ?_]
      by_cases ha : k' = a
      · rw [← ha, Memory.find_none_of_risesFrom hrest (Nat.lt_succ_self _),
          Memory.find_none_of_risesFrom hrest' (Nat.lt_succ_self _)]
      · simpa only [Memory.find, if_neg ha] using hfind a

/-- What a canonical RAM lists at an offset: the byte read there, where it is not the byte of DEFAULT_PRESET. -/
theorem Memory.find_of_wf {m : Memory} (h : Memory.wf m = true) (a : Nat) :
    Memory.find m a = if pramBase ≤ a ∧ a < pramEnd ∧ Memory.readByte m a ≠ defaultByte a then some (Memory.readByte m a)
      else none := by
  obtain ⟨-, hcells⟩ := (wf_iff m).1 h
  unfold Memory.readByte
  cases hf : Memory.find m a with
  | none => simp
  | some b => exact (if_pos (hcells _ (Memory.mem_of_find hf))).symm

theorem pram_eq_of_words {m m' : Memory} (hm : Memory.wf m = true) (hm' : Memory.wf m' = true)
    (h : ∀ i : Fin 480, pramWord m i = pramWord m' i) : m = m' := by
  refine Memory.eq_of_find_eq ((wf_iff m).1 hm).1 ((wf_iff m').1 hm').1 fun a => ?_
  rw [Memory.find_of_wf hm, Memory.find_of_wf hm']
  by_cases ha : pramBase ≤ a ∧ a < pramEnd
  · obtain ⟨hlo, hhi⟩ := ha
    rw [readByte_eq_of_pramWord_eq h hlo hhi]
  · rw [if_neg fun hc => ha ⟨hc.1, hc.2.1⟩, if_neg fun hc => ha ⟨hc.1, hc.2.1⟩]

/-- R71: a record is determined by its 32 words. -/
theorem record_eq_of_words {c d : Record} (h : ∀ f : Fin 32, recordWord c f = recordWord d f) : c = d := by
  change recordOfWords (recordWord c) = recordOfWords (recordWord d)
  simp only [recordOfWords, Record.mk.injEq]
  refine ⟨h 0, h 1, h 2, h 3, h 4, h 5, h 6, h 7, h 8, h 9, h 10, h 11, h 12, h 13, h 14, h 15, h 16, h 17, h 18, h 19,
    h 20, h 21, h 22, h 23, h 24, h 25, h 26, h 27, h 28, h 29, h 30, h 31⟩

section
variable {s t : State} (h : ∀ r : Reg, peek r s = peek r t)
include h

theorem err_eq_of_peek : s.err = t.err :=
  (ErrRegs.mk.injEq ..).mpr ⟨h .status, h .errCause, h .errCmd, h .errAddr⟩

theorem cp_eq_of_peek : s.cp = t.cp :=
  (CpRegs.mk.injEq ..).mpr ⟨h .cpInDb, h .cpInGain, h .cpOutDb, h .cpOutGain⟩

theorem channel_eq_of_peek (c : Chan) : channel c s = channel c t :=
  (TsRegs.mk.injEq ..).mpr ⟨h (.tsRate c), h (.tsScale c), h (.tsMode c), h (.tsProc c), h (.tsAutoGain c), h (.tsS c),
    h (.tsPrev c), h (.tsEnv c), record_eq_of_words fun f => h (.acb c f)⟩

theorem bc_eq_of_peek : s.bc = t.bc :=
  (BcRegs.mk.injEq ..).mpr ⟨h .bcRate, h .bcBlock, h .bcNch, h .bcThresh, h .bcRatio, h .bcAttack, h .bcRelease,
    h .bcMakeup, h .bcFlags, h .bcDrive, h .bcLink, h .bcKnee, h .bcBoost, h .bcScFreq, h .bcDcAmp, h .bcLfsr, h .bcDcOff,
    h .bcAlphaA, h .bcAlphaR, h .bcAlphaSc, h .bcEnv, h .bcScx, h .bcScy, h .bcLastGr⟩

end

/-- Settles O12: every field of every register group is a register of the window, and a canonical RAM is determined by
its words. -/
theorem wholeStateIsReadable : Obligations.WholeStateIsReadable := by
  intro s t hs ht hpending hresp h
  exact (State.mk.injEq ..).mpr ⟨err_eq_of_peek h, h .a0, h .a1, h .r0, h .r1, cp_eq_of_peek h,
    channel_eq_of_peek h .left, channel_eq_of_peek h .right, bc_eq_of_peek h,
    pram_eq_of_words hs ht fun i => h (.pram i), hpending, hresp⟩

end Sys2Proof.Machine
end

section
/-! PROOFS. What a command leaves alone: the registers its row of the opcode map does not list (30_encoding.md section 3), the
preset RAM it does not read (R75), and the other ToneShaper channel (R253). -/

namespace Sys2Proof.Machine

/-! ## The registers a command does not write -/

/-- The fault registers that a command may write beside those of its row (R450). -/
def isFaultReg : Reg → Bool
  | .status | .errCause | .errCmd => true
  | _ => false

/-- Every register reads the same in both states, but for those of p and the fault registers. -/
def SameBut (p : Reg → Bool) (s t : State) : Prop := ∀ r, p r = false → isFaultReg r = false → peek r t = peek r s

/-- R251: a refused command writes fault registers only. -/
theorem SameBut.guarded {p : Reg → Bool} {i : Instr} {ok : Bool} {f : State → State} {s : State} (h : SameBut p s (f s)) :
    SameBut p s (guarded i ok f s) := by
  cases ok with
  | true => exact h
  | false =>
    intro r _ hfault
    cases r with
    | status | errCause | errCmd => cases hfault
    | _ => rfl

/-! ### The ToneShaper registers -/

/-- A register of a ToneShaper channel, as a field of that channel's registers (R51, R75). -/
def toneView : Reg → Option (Chan × (TsRegs → Word))
  | .tsRate c => some (c, TsRegs.rate)
  | .tsScale c => some (c, TsRegs.scale)
  | .tsMode c => some (c, TsRegs.mode)
  | .tsProc c => some (c, TsRegs.proc)
  | .tsAutoGain c => some (c, TsRegs.autoGain)
  | .tsS c => some (c, TsRegs.s)
  | .tsPrev c => some (c, TsRegs.prev)
  | .tsEnv c => some (c, TsRegs.env)
  | .acb c f => some (c, fun t => recordWord t.acb f)
  | _ => none

theorem peek_of_toneView {r : Reg} {c : Chan} {g : TsRegs → Word} (h : toneView r = some (c, g)) (s : State) :
    peek r s = g (channel c s) := by
  cases r with
  | tsRate | tsScale | tsMode | tsProc | tsAutoGain | tsS | tsPrev | tsEnv | acb => cases h; rfl
  | _ => cases h

theorem sameBut_of_views {p : Reg → Bool} {s t : State}
    (htone : ∀ r c g, toneView r = some (c, g) → p r = false → g (channel c t) = g (channel c s))
    (hother : ∀ r, toneView r = none → p r = false → isFaultReg r = false → peek r t = peek r s) : SameBut p s t := by
  intro r hr hfault
  cases hview : toneView r with
  | none => exact hother r hview hr hfault
  | some v => rw [peek_of_toneView hview, peek_of_toneView hview]; exact htone r v.1 v.2 hview hr

theorem channel_updateSelected (chm : BitVec 2) (f : TsRegs → TsRegs) (c : Chan) (s : State) :
    channel c (updateSelected chm f s) = if selects chm c then f (channel c s) else channel c s := by
  cases c <;> rfl

/-- R253: an update of the selected channels leaves every field it does not write, and the channels not selected. -/
theorem sameBut_updateSelected {p : Reg → Bool} {chm : BitVec 2} {f : TsRegs → TsRegs} (s : State)
    (h : ∀ r c g, toneView r = some (c, g) → p r = false → selects chm c = false ∨ ∀ t, g (f t) = g t) :
    SameBut p s (updateSelected chm f s) := by
  refine sameBut_of_views (fun r c g hview hr => ?tone) (fun r hview _ _ => ?other)
  case tone =>
    rw [channel_updateSelected]
    rcases h r c g hview hr with hsel | hkept
    · rw [hsel, if_neg Bool.false_ne_true]
    · split
      · exact hkept _
      · rfl
  case other =>
    cases r with
    | tsRate | tsScale | tsMode | tsProc | tsAutoGain | tsS | tsPrev | tsEnv | acb => cases hview
    | _ => rfl

theorem sameBut_setRateOf (chm : BitVec 2) (v : Word) (s : State) :
    SameBut (tableWrites (.tsSetRate chm)) s (updateSelected chm (setRateOf v) s) := by
  refine sameBut_updateSelected s fun r c g hview hr => ?_
  cases r with
  | tsRate | tsScale => cases hview; exact .inl hr
  | tsMode | tsProc | tsAutoGain | tsS | tsPrev | tsEnv | acb => cases hview; exact .inr fun _ => rfl
  | _ => cases hview

theorem sameBut_setModeOf (chm char : BitVec 2) (model : BitVec 3) (mode : Word) (acb : Record) (s : State) :
    SameBut (tableWrites (.tsSetMode chm char model)) s (updateSelected chm (setModeOf mode acb) s) := by
  refine sameBut_updateSelected s fun r c g hview hr => ?_
  cases r with
  | tsMode | tsAutoGain | acb => cases hview; exact .inl hr
  | tsRate | tsScale | tsProc | tsS | tsPrev | tsEnv => cases hview; exact .inr fun _ => rfl
  | _ => cases hview

theorem sameBut_setProcOf (chm : BitVec 2) (v : F32) (s : State) :
    SameBut (tableWrites (.tsSetProc chm)) s (updateSelected chm (setProcOf v) s) := by
  refine sameBut_updateSelected s fun r c g hview hr => ?_
  cases r with
  | tsProc | tsAutoGain => cases hview; exact .inl hr
  | tsRate | tsScale | tsMode | tsS | tsPrev | tsEnv | acb => cases hview; exact .inr fun _ => rfl
  | _ => cases hview

theorem sameBut_clearTs (chm : BitVec 2) (s : State) :
    SameBut (tableWrites (.tsReset chm)) s (updateSelected chm clearTs s) := by
  refine sameBut_updateSelected s fun r c g hview hr => ?_
  cases r with
  | tsS | tsPrev | tsEnv => cases hview; exact .inl hr
  | tsRate | tsScale | tsMode | tsProc | tsAutoGain | acb => cases hview; exact .inr fun _ => rfl
  | _ => cases hview

theorem errAfterTs_addr (c : Chan) (bad : Bool) (e : ErrRegs) : (errAfterTs c bad e).addr = e.addr := by
  cases bad <;> rfl

/-- R274: a sample writes its channel's result register, S, PREV and ENV. -/
theorem sameBut_tsProcess (chm : BitVec 2) (trim : Bool) {s t : State} (h : exec (.tsProcess chm trim) s = .next t) :
    SameBut (tableWrites (.tsProcess chm trim)) s t := by
  obtain rfl := Host.Outcome.next.inj ((exec_tsProcess chm trim s).symm.trans h)
  refine sameBut_of_views (fun r c g hview hr => ?tone) (fun r hview hr hfault => ?other)
  case tone =>
    cases r with
    | tsS | tsPrev | tsEnv =>
      cases hview
      have hsel : selects chm c = false := hr
      cases c <;> exact congrArg _ (if_neg (ne_true_of_eq_false hsel))
    | tsRate | tsScale | tsMode | tsProc | tsAutoGain | acb =>
      cases hview
      cases c <;> simp only [channel] <;> split <;> rfl
    | _ => cases hview
  case other =>
    cases r with
    | tsRate | tsScale | tsMode | tsProc | tsAutoGain | tsS | tsPrev | tsEnv | acb => cases hview
    | status | errCause | errCmd => cases hfault
    | errAddr => exact (errAfterTs_addr ..).trans (errAfterTs_addr ..)
    | r0 | r1 => exact if_neg (ne_true_of_eq_false hr)
    | _ => rfl

/-- R326: the waveshaper writes its channel's result register. -/
theorem sameBut_updateResults (chm : BitVec 2) (v : Chan → F32) (s : State) :
    SameBut (tableWrites (.tsSatEval chm)) s (updateResults chm v s) := by
  intro r hr _
  cases r with
  | r0 | r1 => exact if_neg (ne_true_of_eq_false hr)
  | _ => rfl

/-! ### Every command -/

theorem errAfterBus_addr (finite : Bool) (e : ErrRegs) : (errAfterBus finite e).addr = e.addr := by
  cases finite <;> rfl

theorem sameBut_frame (s : State) : SameBut (tableWrites .bcFrame) s (frame s) := by
  intro r hr hfault
  rw [frame_eq]
  cases r with
  | status | errCause | errCmd => cases hfault
  | errAddr => exact errAfterBus_addr _ _
  | r0 | r1 | bcEnv | bcScx | bcScy => exact absurd hr (by decide)
  | _ => rfl

/-- R204: a command writes the registers of its row and the fault registers; what is left is the field that its meaning
leaves as it is. -/
theorem exec_sameBut (i : Instr) (s : State) : ∃ t, exec i s = .next t ∧ SameBut (tableWrites i) s t := by
  cases i with
  | nop => exact ⟨s, rfl, fun _ _ _ => rfl⟩
  | tsSetRate chm =>
    refine ⟨_, rfl, .guarded ?_⟩
    rw [forSelected_setChannel chm (fun s => setRateOf s.a0) s fun _ => rfl]
    exact sameBut_setRateOf chm s.a0 s
  | tsSetMode chm char model =>
    refine ⟨_, rfl, .guarded ?_⟩
    rw [forSelected_setChannel chm
      (fun s => setModeOf (modeWord char model) (recordAt s.pram (recordIndex char.toNat model.toNat))) s fun _ => rfl]
    exact sameBut_setModeOf chm char model _ _ s
  | tsSetProc chm =>
    refine ⟨_, rfl, .guarded ?_⟩
    rw [forSelected_setChannel chm (fun s => setProcOf s.a0) s fun _ => rfl]
    exact sameBut_setProcOf chm s.a0 s
  | tsReset chm => exact ⟨_, exec_tsReset chm s, sameBut_clearTs chm s⟩
  | tsProcess chm trim => exact ⟨_, exec_tsProcess chm trim s, sameBut_tsProcess chm trim (exec_tsProcess chm trim s)⟩
  | tsSatEval chm => exact ⟨_, exec_tsSatEval chm s, sameBut_updateResults chm _ s⟩
  | bcFrame => exact ⟨_, rfl, .guarded (sameBut_frame s)⟩
  | msEncode | msDecode | bcSetFlags | bcReset | bcBlockBegin | bcBlockEnd =>
    exact ⟨_, rfl, fun r hr _ => by cases r <;> first | rfl | cases hr⟩
  | cpSetInTrim | cpSetOutTrim | bcPrepare | bcSetThresh | bcSetRatio | bcSetAttack | bcSetRelease | bcSetMakeup
  | bcSetDrive | bcSetLink | bcSetSatKnee | bcSetBoost | bcSetScFreq | bcSetDcAmp | bcSetDcSeed =>
    exact ⟨_, rfl, .guarded fun r hr _ => by cases r <;> first | rfl | cases hr⟩

/-- Settles O16: the rows of the opcode map against the meanings, and the chain of writes for the host's side. -/
theorem commandFrame : Obligations.CommandFrame := by
  intro i s t h
  obtain ⟨hpram, ha0, ha1, hpending, hresp⟩ := exec_frame h
  refine ⟨fun r hr hstatus hcause hcmd => ?registers, fun a => by rw [hpram], hpram, exec_errAddr h, ha0, ha1, hpending,
    hresp⟩
  case registers =>
    obtain ⟨t', ht', hsame⟩ := exec_sameBut i s
    obtain rfl := Host.Outcome.next.inj (ht'.symm.trans h)
    refine hsame r hr ?_
    unfold isFaultReg
    split <;> trivial

/-! ## The preset RAM -/

/-- The state with the whole preset RAM replaced. -/
def withPram (m : Memory) (s : State) : State := { s with pram := m }

theorem guarded_withPram {i : Instr} {ok : Bool} {f : State → State} {m : Memory} {s : State}
    (h : f (withPram m s) = withPram m (f s)) : guarded i ok f (withPram m s) = withPram m (guarded i ok f s) := by
  cases ok with
  | true => exact h
  | false => rfl

theorem guardedBc_withPram (i : Instr) (ok : Bool) (f : BcRegs → BcRegs) (m : Memory) (s : State) :
    guardedBc i ok f (withPram m s) = withPram m (guardedBc i ok f s) := by
  refine guarded_withPram ?_
  rfl

theorem forSelected_withPram {chm : BitVec 2} {part : Chan → State → State} {m : Memory} (s : State)
    (h : ∀ c s, part c (withPram m s) = withPram m (part c s)) :
    forSelected chm part (withPram m s) = withPram m (forSelected chm part s) := by
  unfold forSelected
  simp only
  split <;> split <;> simp only [h]

theorem processPart_withPram (trim : Bool) (c : Chan) (m : Memory) (s : State) :
    processPart trim c (withPram m s) = withPram m (processPart trim c s) := by
  simp only [processPart_eq]
  cases c <;> rfl

theorem frame_withPram (m : Memory) (s : State) : frame (withPram m s) = withPram m (frame s) := by
  simp only [frame_eq]; rfl

/-- R75: TS_SET_MODE apart, a command does the same whatever the preset RAM holds. -/
theorem exec_withPram {i : Instr} (m : Memory) (s : State) (hi : ∀ chm char model, i ≠ .tsSetMode chm char model) :
    ∃ t, exec i s = .next t ∧ exec i (withPram m s) = .next (withPram m t) := by
  cases i with
  | tsSetMode chm char model => exact absurd rfl (hi chm char model)
  | tsSetRate | tsSetProc =>
    exact ⟨_, rfl, congrArg _ (guarded_withPram (forSelected_withPram s fun c s => by cases c <;> rfl))⟩
  | tsReset | tsSatEval => exact ⟨_, rfl, congrArg _ (forSelected_withPram s fun c s => by cases c <;> rfl)⟩
  | tsProcess chm trim => exact ⟨_, rfl, congrArg _ (forSelected_withPram s fun c s => processPart_withPram trim c m s)⟩
  | bcFrame => exact ⟨_, rfl, congrArg _ (guarded_withPram (frame_withPram m s))⟩
  | nop | msEncode | msDecode | bcSetFlags | bcReset | bcBlockBegin | bcBlockEnd => exact ⟨_, rfl, rfl⟩
  | cpSetInTrim | cpSetOutTrim => refine ⟨_, rfl, congrArg Host.Outcome.next (guarded_withPram ?_)⟩; rfl
  | bcPrepare | bcSetThresh | bcSetRatio | bcSetAttack | bcSetRelease | bcSetMakeup | bcSetDrive | bcSetLink
  | bcSetSatKnee | bcSetBoost | bcSetScFreq | bcSetDcAmp | bcSetDcSeed =>
    exact ⟨_, rfl, congrArg Host.Outcome.next (guardedBc_withPram ..)⟩

/-- Settles O17: replacing the RAM commutes with every part of every other command. -/
theorem presetRamReachesOnlySetMode : Obligations.PresetRamReachesOnlySetMode := by
  intro i s t m hi h
  obtain ⟨t', ht', hm⟩ := exec_withPram m s hi
  obtain rfl := Host.Outcome.next.inj (ht'.symm.trans h)
  exact hm

/-! ## One channel -/

/-- The channel that is not c. -/
def otherChan : Chan → Chan
  | .left => .right
  | .right => .left

/-- The channel mask that selects channel c alone (R203). -/
def maskOf : Chan → BitVec 2
  | .left => 1
  | .right => 2

/-- R[c] (R59). -/
def resultOf (c : Chan) (s : State) : Word :=
  match c with
  | .left => s.r0
  | .right => s.r1

/-- F neither changes nor reads the other channel's registers, and leaves its result register. -/
structure LocalTo (c : Chan) (F : State → State) : Prop where
  keeps : ∀ s, channel (otherChan c) (F s) = channel (otherChan c) s
  result : ∀ s, resultOf (otherChan c) (F s) = resultOf (otherChan c) s
  blind : ∀ u s, F (setChannel (otherChan c) u s) = setChannel (otherChan c) u (F s)

/-- R251: a checked command whose check does not read the other channel. -/
theorem LocalTo.guarded {c : Chan} {i : Instr} {ok : State → Bool} {f : State → State} (hf : LocalTo c f)
    (hok : ∀ u s, ok (setChannel (otherChan c) u s) = ok s) : LocalTo c fun s => guarded i (ok s) f s where
  keeps s := by
    cases h : ok s with
    | true => exact hf.keeps s
    | false => exact channel_record _ (.cfgError (encode i)) s
  result s := by
    cases h : ok s with
    | true => exact hf.result s
    | false => cases c <;> rfl
  blind u s := by
    simp only [hok]
    cases h : ok s with
    | true => exact hf.blind u s
    | false => cases c <;> rfl

theorem forSelected_maskOf (c : Chan) (part : Chan → State → State) (s : State) :
    forSelected (maskOf c) part s = part c s := by
  cases c <;> rfl

/-- A part that rewrites its own channel's registers by values that do not depend on the other channel. -/
theorem LocalTo.tone (c : Chan) (g : State → TsRegs → TsRegs) (hg : ∀ u s, g (setChannel (otherChan c) u s) = g s) :
    LocalTo c (forSelected (maskOf c) fun c s => setChannel c (g s (channel c s)) s) where
  keeps s := by rw [forSelected_maskOf]; cases c <;> rfl
  result s := by rw [forSelected_maskOf]; cases c <;> rfl
  blind u s := by
    simp only [forSelected_maskOf, hg]
    cases c <;> rfl

theorem LocalTo.processPart (trim : Bool) (c : Chan) : LocalTo c (processPart trim c) where
  keeps s := by rw [processPart_eq]; cases c <;> rfl
  result s := by rw [processPart_eq]; cases c <;> rfl
  blind u s := by simp only [processPart_eq]; cases c <;> rfl

/-- R253: with one channel selected, a ToneShaper command is local to it. -/
theorem exec_localTo (c : Chan) (char : BitVec 2) (model : BitVec 3) (trim : Bool) :
    ∀ i ∈ [Instr.tsSetRate (maskOf c), .tsSetMode (maskOf c) char model, .tsSetProc (maskOf c), .tsReset (maskOf c),
      .tsProcess (maskOf c) trim, .tsSatEval (maskOf c)], ∃ F, (∀ s, exec i s = .next (F s)) ∧ LocalTo c F := by
  simp only [List.forall_mem_cons, List.not_mem_nil, false_implies, implies_true, and_true]
  refine ⟨?rate, ?mode, ?proc, ?reset, ?process, ?satEval⟩
  case rate =>
    exact ⟨_, fun s => rfl, .guarded (.tone c (fun s => setRateOf s.a0) fun u s => by rw [setChannel_a0]) fun u s => by
      rw [setChannel_a0]⟩
  case mode =>
    exact ⟨_, fun s => rfl, .guarded (.tone c
      (fun s => setModeOf (modeWord char model) (recordAt s.pram (recordIndex char.toNat model.toNat))) fun u s => by
      rw [setChannel_pram]) fun _ _ => rfl⟩
  case proc =>
    exact ⟨_, fun s => rfl, .guarded (.tone c (fun s => setProcOf s.a0) fun u s => by rw [setChannel_a0]) fun u s => by
      rw [setChannel_a0]⟩
  case reset => exact ⟨_, fun s => rfl, .tone c (fun _ => clearTs) fun _ _ => rfl⟩
  case process => exact ⟨_, fun s => by cases c <;> rfl, .processPart trim c⟩
  case satEval => refine ⟨_, fun s => rfl, ?_⟩; cases c <;> exact ⟨fun _ => rfl, fun _ => rfl, fun _ _ => rfl⟩

/-- Settles O18: both clauses are locality, to channel 0 and to channel 1. -/
theorem toneShaperChannelsIndependent : Obligations.ToneShaperChannelsIndependent := by
  intro s t u char model trim
  refine ⟨fun i hi h => ?left, fun i hi h => ?right⟩
  case left =>
    obtain ⟨F, hF, hlocal⟩ := exec_localTo .left char model trim i hi
    obtain rfl := Host.Outcome.next.inj ((hF s).symm.trans h)
    exact ⟨hlocal.keeps s, hlocal.result s, (hF _).trans (congrArg _ (hlocal.blind u s))⟩
  case right =>
    obtain ⟨F, hF, hlocal⟩ := exec_localTo .right char model trim i hi
    obtain rfl := Host.Outcome.next.inj ((hF s).symm.trans h)
    exact ⟨hlocal.keeps s, hlocal.result s, (hF _).trans (congrArg _ (hlocal.blind u s))⟩

/-! ## Both channels -/

/-- R253: the update of both channels is that of channel 0 and then that of channel 1. -/
theorem updateSelected_both (f : TsRegs → TsRegs) (s : State) :
    updateSelected 2 f (updateSelected 1 f s) = updateSelected 3 f s := rfl

/-- R253: "for each selected c" takes channel 0 first. -/
theorem forSelected_both (part : Chan → State → State) (s : State) :
    forSelected 2 part (forSelected 1 part s) = forSelected 3 part s := rfl

/-- Settles O19: the checks read neither channel, so that they pass again before channel 1's part. -/
theorem bothChannelsInOrder : Obligations.BothChannelsInOrder := by
  intro s t char model trim f hf hcheck h
  simp only [List.mem_cons, List.not_mem_nil, or_false] at hf
  rcases hf with rfl | rfl | rfl | rfl | rfl | rfl
  case inl =>
    have ha0 : s.a0 ≠ 0 := by simpa [cfgErrorWhen] using hcheck
    obtain rfl := Host.Outcome.next.inj ((exec_tsSetRate 1 ha0).symm.trans h)
    rw [exec_tsSetRate 3 ha0, exec_tsSetRate 2 (s := updateSelected 1 (setRateOf s.a0) s) ha0]
    exact congrArg _ (updateSelected_both _ s)
  case inr.inl =>
    have hrange := modeInRange_eq_not char model
    rw [show (char == 3#2 || decide (4 < model.toNat)) = false from hcheck] at hrange
    obtain ⟨hchar, hmodel⟩ := Bool.and_eq_true_iff.1 hrange
    replace hchar := of_decide_eq_true hchar
    replace hmodel := of_decide_eq_true hmodel
    obtain rfl := Host.Outcome.next.inj ((exec_tsSetMode 1 s hchar hmodel).symm.trans h)
    rw [exec_tsSetMode 3 s hchar hmodel, exec_tsSetMode 2 _ hchar hmodel]
    exact congrArg _ (updateSelected_both _ s)
  case inr.inr.inl =>
    have hunit : inUnitInterval s.a0 = true := by
      rw [inUnitInterval_eq_not, show (isNaN s.a0 || flt s.a0 posZero || flt fOne s.a0) = false from hcheck]; rfl
    obtain rfl := Host.Outcome.next.inj ((exec_tsSetProc 1 hunit).symm.trans h)
    rw [exec_tsSetProc 3 hunit, exec_tsSetProc 2 (s := updateSelected 1 (setProcOf s.a0) s) hunit]
    exact congrArg _ (updateSelected_both _ s)
  all_goals
    obtain rfl := Host.Outcome.next.inj h
    exact congrArg Host.Outcome.next (forSelected_both _ s)

end Sys2Proof.Machine
end

section
/-! PROOFS. The arithmetic of R11 to R13 and R16: each operation on finite operands is one rounding of its exact result, so that
R11's rounding, proved of `roundUnits`, is that of every operation; the operands that are not finite by the rules' cases. -/

namespace Sys2Proof.Machine

/-! ## The number of a pattern -/

@[simp] theorem binary32Value_fneg (x : F32) : binary32Value (fneg x) = -binary32Value x := by
  rw [binary32Value_eq, binary32Value_eq, signOf_fneg, units_fneg]
  cases signOf x <;> simp [neg_div]

theorem abs_binary32Value (x : F32) : |binary32Value x| = (units x : ℚ) / 2 ^ 149 := by
  rw [binary32Value_eq, abs_div, abs_of_pos (show (0 : ℚ) < 2 ^ 149 by positivity)]
  cases signOf x <;> simp

/-- R13: both zeros stand for 0, and nothing else does. -/
theorem binary32Value_eq_zero_iff (x : F32) : binary32Value x = 0 ↔ mag x = 0 := by
  rw [← abs_eq_zero, abs_binary32Value, div_eq_zero_iff, or_iff_left (by positivity), Nat.cast_eq_zero]
  exact ⟨mag_eq_zero_of_units, units_eq_zero_of_mag⟩

theorem abs_binary32Value_le_iff (x y : F32) : |binary32Value x| ≤ |binary32Value y| ↔ mag x ≤ mag y := by
  rw [abs_binary32Value, abs_binary32Value, div_le_div_iff_of_pos_right (by positivity), Nat.cast_le, units_eq_magUnits,
    units_eq_magUnits, magUnits_strictMono.le_iff_le]

/-! ## Rounding -/

/-- q with the sign of a pattern whose sign bit is `neg` (R10). -/
def signed (neg : Bool) (q : ℚ) : ℚ := if neg then -q else q

theorem binary32Value_eq_signed (x : F32) : binary32Value x = signed (signOf x) (units x) / 2 ^ 149 := binary32Value_eq x

@[simp] theorem signed_not (neg : Bool) (q : ℚ) : signed (!neg) q = -signed neg q := by cases neg <;> simp [signed]

theorem signed_add (neg : Bool) (p q : ℚ) : signed neg p + signed neg q = signed neg (p + q) := by
  cases neg <;> simp only [signed, Bool.false_eq_true, if_false, if_true]; ring

theorem signed_sub (neg : Bool) (p q : ℚ) : signed neg p - signed neg q = signed neg (p - q) := by
  cases neg <;> simp only [signed, Bool.false_eq_true, if_false, if_true]; ring

theorem signed_mul (neg neg' : Bool) (p q : ℚ) : signed neg p * signed neg' q = signed (neg != neg') (p * q) := by
  cases neg <;> cases neg' <;> simp [signed]

theorem signed_div (neg neg' : Bool) (p q : ℚ) : signed neg p / signed neg' q = signed (neg != neg') (p / q) := by
  cases neg <;> cases neg' <;> simp [signed, neg_div, div_neg]

theorem signed_mul_right (neg : Bool) (p c : ℚ) : signed neg (p * c) = signed neg p * c := by
  cases neg <;> simp [signed]

@[simp] theorem signOf_roundUnits (neg : Bool) (n d : Nat) : signOf (roundUnits neg n d) = neg := by
  obtain ⟨m, hm, h⟩ := roundUnits_eq_withSign n d
  rw [h, signOf_withSign _ _ (by omega)]

theorem signed_div_right (neg : Bool) (p c : ℚ) : signed neg (p / c) = signed neg p / c := by
  cases neg <;> simp [signed, neg_div]

theorem signed_scale (neg : Bool) (p : ℚ) : signed neg (p * 2 ^ 149) / 2 ^ 149 = signed neg p := by
  rw [signed_mul_right, mul_div_cancel_right₀ _ (by positivity)]

/-- R11: the rounding of a number that is given as its exact fraction of units. -/
theorem nearestEven_of_eq {v : ℚ} {neg : Bool} {n d : Nat} (hd : 0 < d)
    (hv : v = signed neg ((n : ℚ) / d) / 2 ^ 149) : nearestEven v (roundUnits neg n d) := by
  rw [hv]; exact nearestEven_roundUnits neg n hd

/-- The same for a whole number of units. -/
theorem nearestEven_units {v : ℚ} {neg : Bool} {n : Nat} (hv : v = signed neg n / 2 ^ 149) :
    nearestEven v (roundUnits neg n 1) :=
  nearestEven_of_eq one_pos (by rw [hv, Nat.cast_one, div_one])

theorem nearestEven_zero : nearestEven 0 posZero :=
  nearestEven_units (neg := false) (n := 0) (by simp [signed])

/-! ## Sums -/

section
variable {a b : F32} (ha : isFinite a = true) (hb : isFinite b = true)
include ha hb

theorem fadd_of_finite : fadd a b =
    if signOf a = signOf b then roundUnits (signOf a) (units a + units b) 1
    else if units b < units a then roundUnits (signOf a) (units a - units b) 1
    else if units a < units b then roundUnits (signOf b) (units b - units a) 1
    else posZero := by
  simp [fadd, isNaN_of_isFinite ha, isNaN_of_isFinite hb, isInf_of_isFinite ha, isInf_of_isFinite hb]

/-- R11: the sum is the exact sum rounded. -/
theorem nearestEven_fadd : nearestEven (binary32Value a + binary32Value b) (fadd a b) := by
  rw [fadd_of_finite ha hb, binary32Value_eq_signed, binary32Value_eq_signed, ← add_div]
  by_cases hsign : signOf a = signOf b
  · rw [if_pos hsign, ← hsign, signed_add]
    exact nearestEven_units (by push_cast; rfl)
  · have hb' : signOf b = !signOf a := by
      cases h : signOf a <;> cases h' : signOf b <;> simp_all
    rw [if_neg hsign, hb', signed_not, ← sub_eq_add_neg, signed_sub]
    rcases Nat.lt_trichotomy (units b) (units a) with hlt | heq | hgt
    · rw [if_pos hlt]
      exact nearestEven_units (by rw [Nat.cast_sub hlt.le])
    · rw [if_neg (by omega), if_neg (by omega), heq, sub_self]
      convert nearestEven_zero
      simp [signed]
    · rw [if_neg (by omega), if_pos hgt]
      refine nearestEven_units ?_
      rw [Nat.cast_sub hgt.le, signed_not, ← signed_sub, ← signed_sub, neg_sub]

/-- R13: an exact zero sum is -0 only when both addends are negative. -/
theorem signOf_fadd_of_zero (h : binary32Value a + binary32Value b = 0) :
    signOf (fadd a b) = (signOf a && signOf b) := by
  rw [binary32Value_eq_signed, binary32Value_eq_signed, ← add_div, div_eq_zero_iff, or_iff_left (by positivity)] at h
  rw [fadd_of_finite ha hb]
  by_cases hsign : signOf a = signOf b
  · rw [if_pos hsign, signOf_roundUnits, ← hsign, Bool.and_self]
  · have hb' : signOf b = !signOf a := by
      cases h : signOf a <;> cases h' : signOf b <;> simp_all
    have hunits : units a = units b := by
      rw [hb', signed_not, ← sub_eq_add_neg, signed_sub] at h
      have : (units a : ℚ) - units b = 0 := by
        cases hs : signOf a <;> rw [hs] at h
        · exact h
        · exact neg_eq_zero.1 h
      exact_mod_cast sub_eq_zero.1 this
    rw [if_neg hsign, if_neg (by omega), if_neg (by omega), hb', Bool.and_not_self]
    rfl

theorem nearestEven_fsub : nearestEven (binary32Value a - binary32Value b) (fsub a b) := by
  rw [sub_eq_add_neg, ← binary32Value_fneg]
  exact nearestEven_fadd ha (by rwa [isFinite_fneg])

theorem signOf_fsub_of_zero (h : binary32Value a - binary32Value b = 0) :
    signOf (fsub a b) = (signOf a && !signOf b) := by
  rw [sub_eq_add_neg, ← binary32Value_fneg] at h
  rw [fsub, signOf_fadd_of_zero ha (by rwa [isFinite_fneg]) h, signOf_fneg]

/-! ## Products and quotients -/

theorem fmul_of_finite : fmul a b = roundUnits (signOf a != signOf b) (units a * units b) (2 ^ 149) := by
  simp [fmul, isNaN_of_isFinite ha, isNaN_of_isFinite hb, isInf_of_isFinite ha, isInf_of_isFinite hb]

theorem nearestEven_fmul : nearestEven (binary32Value a * binary32Value b) (fmul a b) := by
  rw [fmul_of_finite ha hb, binary32Value_eq_signed, binary32Value_eq_signed, div_mul_div_comm, signed_mul]
  refine nearestEven_of_eq (by positivity) ?_
  rw [Nat.cast_mul, Nat.cast_pow, Nat.cast_ofNat, signed_div_right,
    div_div]

theorem signOf_fmul : signOf (fmul a b) = (signOf a != signOf b) := by
  rw [fmul_of_finite ha hb, signOf_roundUnits]

theorem fdiv_of_finite (h : binary32Value b ≠ 0) :
    fdiv a b = roundUnits (signOf a != signOf b) (units a * 2 ^ 149) (units b) := by
  have hmag : mag b ≠ 0 := fun hb0 => h ((binary32Value_eq_zero_iff b).2 hb0)
  simp [fdiv, isNaN_of_isFinite ha, isNaN_of_isFinite hb, isInf_of_isFinite ha, isInf_of_isFinite hb, hmag]

theorem nearestEven_fdiv (h : binary32Value b ≠ 0) : nearestEven (binary32Value a / binary32Value b) (fdiv a b) := by
  have hunits : 0 < units b := Nat.pos_of_ne_zero fun hu => h ((binary32Value_eq_zero_iff b).2 (mag_eq_zero_of_units hu))
  rw [fdiv_of_finite ha hb h, binary32Value_eq_signed, binary32Value_eq_signed,
    div_div_div_cancel_right₀ (by positivity), signed_div]
  refine nearestEven_of_eq hunits ?_
  rw [Nat.cast_mul, Nat.cast_pow, Nat.cast_ofNat, mul_div_right_comm, signed_scale]

theorem signOf_fdiv (h : binary32Value b ≠ 0) : signOf (fdiv a b) = (signOf a != signOf b) := by
  rw [fdiv_of_finite ha hb h, signOf_roundUnits]

/-- R12: division by a zero. -/
theorem fdiv_by_zero (h : binary32Value b = 0) :
    fdiv a b = if binary32Value a = 0 then canonNaN else withSign (signOf a != signOf b) 0x7F800000 := by
  rw [binary32Value_eq_zero_iff] at h
  simp [fdiv, isNaN_of_isFinite ha, isNaN_of_isFinite hb, isInf_of_isFinite ha, isInf_of_isFinite hb, h,
    binary32Value_eq_zero_iff]

end

/-! ## Conversions -/

/-- R16: an integer is rounded as the number it is. -/
theorem nearestEven_i2f (n : Nat) : nearestEven n (i2f n) :=
  nearestEven_units (by rw [Nat.cast_mul, Nat.cast_pow, Nat.cast_ofNat, signed_scale]; rfl)

theorem intCast_eq_signed (z : ℤ) : (z : ℚ) = signed (decide (z < 0)) z.natAbs := by
  rcases lt_or_ge z 0 with h | h
  · rw [decide_eq_true h, signed, if_pos rfl, Nat.cast_natAbs, abs_of_neg h]; push_cast; ring
  · rw [decide_eq_false (by omega), signed, if_neg Bool.false_ne_true, Nat.cast_natAbs, abs_of_nonneg h]

theorem nearestEven_s2f (w : Word) : nearestEven (w.toInt : ℚ) (s2f w) := by
  refine nearestEven_units ?_
  rw [Nat.cast_mul, Nat.cast_pow, Nat.cast_ofNat, signed_scale, intCast_eq_signed]

theorem signOf_s2f (w : Word) : signOf (s2f w) = w.msb := by
  rw [s2f, signOf_roundUnits, BitVec.msb_eq_toInt]

/-! ## Infinite operands -/

section
variable {a b : F32} (ha : isInf a = true)
include ha

theorem isNaN_of_isInf : isNaN a = false := by
  rw [isInf_iff] at ha
  simp [isNaN, ha]

theorem mag_ne_zero_of_isInf : mag a ≠ 0 := by
  rw [(isInf_iff a).1 ha]; decide

theorem fadd_inf_finite (hb : isFinite b = true) : fadd a b = a ∧ fadd b a = a := by
  simp [fadd, ha, isNaN_of_isInf ha, isNaN_of_isFinite hb, isInf_of_isFinite hb]

theorem fmul_inf_finite (hb : isFinite b = true) :
    fmul a b = if mag b = 0 then canonNaN else withSign (signOf a != signOf b) 0x7F800000 := by
  simp [fmul, ha, isNaN_of_isInf ha, isNaN_of_isFinite hb, mag_ne_zero_of_isInf ha]

theorem fdiv_inf_finite (hb : isFinite b = true) : fdiv a b = withSign (signOf a != signOf b) 0x7F800000 := by
  simp [fdiv, ha, isNaN_of_isInf ha, isNaN_of_isFinite hb, isInf_of_isFinite hb]

theorem fdiv_finite_inf (hb : isFinite b = true) : fdiv b a = withSign (signOf b != signOf a) 0 := by
  simp [fdiv, ha, isNaN_of_isInf ha, isNaN_of_isFinite hb, isInf_of_isFinite hb]

theorem fadd_inf_inf (hb : isInf b = true) : fadd a b = if signOf a = signOf b then a else canonNaN := by
  by_cases h : signOf a = signOf b <;> simp [fadd, ha, hb, isNaN_of_isInf ha, isNaN_of_isInf hb, h]

theorem fsub_inf_inf (hb : isInf b = true) : fsub a b = if signOf a = signOf b then canonNaN else a := by
  rw [fsub, fadd_inf_inf ha (by rwa [isInf_fneg]), signOf_fneg]
  cases signOf a <;> cases signOf b <;> rfl

theorem fmul_inf_inf (hb : isInf b = true) : fmul a b = withSign (signOf a != signOf b) 0x7F800000 := by
  simp [fmul, ha, isNaN_of_isInf ha, isNaN_of_isInf hb, mag_ne_zero_of_isInf ha, mag_ne_zero_of_isInf hb]

theorem fdiv_inf_inf (hb : isInf b = true) : fdiv a b = canonNaN := by
  simp [fdiv, ha, hb, isNaN_of_isInf ha, isNaN_of_isInf hb]

end

/-! ## Symmetries -/

/-- Every pattern is a NaN, an infinity or finite. -/
theorem isNaN_or_isInf_or_isFinite (x : F32) : isNaN x = true ∨ isInf x = true ∨ isFinite x = true := by
  cases h : isFinite x with
  | true => exact .inr (.inr rfl)
  | false => exact (isNaN_or_isInf h).imp id .inl

/-- Two infinities of one sign are the same pattern. -/
theorem eq_of_isInf {a b : F32} (ha : isInf a = true) (hb : isInf b = true) (h : signOf a = signOf b) : a = b :=
  eq_of_sign_mag h (((isInf_iff a).1 ha).trans ((isInf_iff b).1 hb).symm)

theorem fadd_comm (a b : F32) : fadd a b = fadd b a := by
  rcases isNaN_or_isInf_or_isFinite a with ha | ha | ha <;> rcases isNaN_or_isInf_or_isFinite b with hb | hb | hb
  case inr.inl.inr.inl =>
    rw [fadd_inf_inf ha hb, fadd_inf_inf hb ha]
    by_cases h : signOf a = signOf b
    · rw [if_pos h, if_pos h.symm, eq_of_isInf ha hb h]
    · rw [if_neg h, if_neg (Ne.symm h)]
  case inr.inl.inr.inr => rw [(fadd_inf_finite ha hb).1, (fadd_inf_finite ha hb).2]
  case inr.inr.inr.inl => rw [(fadd_inf_finite hb ha).1, (fadd_inf_finite hb ha).2]
  case inr.inr.inr.inr =>
    rw [fadd_of_finite ha hb, fadd_of_finite hb ha]
    by_cases h : signOf a = signOf b
    · rw [if_pos h, if_pos h.symm, h, Nat.add_comm]
    · rw [if_neg h, if_neg (Ne.symm h)]
      split_ifs <;> first | rfl | omega
  all_goals simp [ha, hb]

theorem fmul_comm (a b : F32) : fmul a b = fmul b a := by
  have hsign : (signOf a != signOf b) = (signOf b != signOf a) := bne_comm
  simp only [fmul, hsign, Bool.or_comm (isNaN a), Bool.or_comm (isInf a), Bool.or_comm (mag a == 0), Nat.mul_comm (units a)]

/-- R11: rounding is symmetric, so the sum of the negated addends is the negated sum, but for zeros and NaNs. -/
theorem fadd_fneg_fneg {a b : F32} (hn : isNaN (fadd a b) = false) (hz : mag (fadd a b) ≠ 0) :
    fadd (fneg a) (fneg b) = fneg (fadd a b) := by
  have hsign : (!signOf a) = (!signOf b) ↔ signOf a = signOf b := Bool.not_inj_iff
  rcases isNaN_or_isInf_or_isFinite a with ha | ha | ha <;> rcases isNaN_or_isInf_or_isFinite b with hb | hb | hb
  case inr.inl.inr.inl =>
    rw [fadd_inf_inf ha hb] at hn ⊢
    rw [fadd_inf_inf (by rwa [isInf_fneg]) (by rwa [isInf_fneg]), signOf_fneg, signOf_fneg]
    by_cases h : signOf a = signOf b
    · rw [if_pos (hsign.2 h), if_pos h]
    · rw [if_neg h, isNaN_canonNaN] at hn
      cases hn
  case inr.inl.inr.inr =>
    rw [(fadd_inf_finite ha hb).1, (fadd_inf_finite (a := fneg a) (by rwa [isInf_fneg]) (by rwa [isFinite_fneg])).1]
  case inr.inr.inr.inl =>
    rw [(fadd_inf_finite hb ha).2, (fadd_inf_finite (a := fneg b) (by rwa [isInf_fneg]) (by rwa [isFinite_fneg])).2]
  case inr.inr.inr.inr =>
    rw [fadd_of_finite ha hb] at hz ⊢
    rw [fadd_of_finite (by rwa [isFinite_fneg]) (by rwa [isFinite_fneg])]
    simp only [signOf_fneg, units_fneg, hsign]
    split_ifs at hz ⊢
    · rw [fneg_roundUnits]
    · rw [fneg_roundUnits]
    · rw [fneg_roundUnits]
    · exact absurd rfl hz
  all_goals simp [ha, hb] at hn

theorem fsub_self {x : F32} (h : isFinite x = true) : fsub x x = posZero := by
  have hsign : signOf x ≠ signOf (fneg x) := by rw [signOf_fneg]; cases signOf x <;> decide
  rw [fsub, fadd_of_finite h (by rwa [isFinite_fneg]), if_neg hsign, units_fneg, if_neg (lt_irrefl _),
    if_neg (lt_irrefl _)]

/-- Settles O59: one rounding per operation on finite operands; the other operands case by case. -/
theorem roundingIsExactAndSymmetric : Obligations.RoundingIsExactAndSymmetric := by
  refine ⟨fun a b ha hb => ?finite, fun n _ => ⟨nearestEven_i2f n, signOf_roundUnits _ _ _⟩,
    fun w => ⟨nearestEven_s2f w, signOf_s2f w⟩, fun a b h => ?nan, fun a b ha hb => ?infinite, fun a b ha hb => ?infinities,
    fun a b => ?symmetries⟩
  case finite =>
    exact ⟨nearestEven_fadd ha hb, nearestEven_fsub ha hb, nearestEven_fmul ha hb,
      fun h => ⟨nearestEven_fdiv ha hb h, signOf_fdiv ha hb h⟩, fdiv_by_zero ha hb, signOf_fmul ha hb,
      signOf_fadd_of_zero ha hb, signOf_fsub_of_zero ha hb⟩
  case nan =>
    rcases h with h | h
    · exact ⟨fadd_nan_left b h, fsub_nan_left b h, fmul_nan_left b h, fdiv_nan_left b h⟩
    · exact ⟨fadd_nan_right a h, fsub_nan_right a h, fmul_nan_right a h, fdiv_nan_right a h⟩
  case infinite =>
    have hdiv := fdiv_finite_inf ha hb
    rw [bne_comm] at hdiv
    exact ⟨(fadd_inf_finite ha hb).1, (fadd_inf_finite ha (by rwa [isFinite_fneg])).1,
      (fadd_inf_finite (a := fneg a) (by rwa [isInf_fneg]) hb).2, fmul_inf_finite ha hb, fdiv_inf_finite ha hb, hdiv⟩
  case infinities => exact ⟨fadd_inf_inf ha hb, fsub_inf_inf ha hb, fmul_inf_inf ha hb, fdiv_inf_inf ha hb⟩
  case symmetries =>
    exact ⟨fadd_comm a b, fmul_comm a b, fadd_fneg_fneg, fmul_fOne a,
      fun hfin hz => ⟨(fadd_zero_of_nonzero hfin hz rfl).1, fsub_self hfin⟩⟩

end Sys2Proof.Machine
end

section
/-! PROOFS. The function units against the table of R17, whatever their curves are: the order, the oddness and the bounds from
what a shaped unit satisfies, the required values by evaluation at their operands. -/

namespace Sys2Proof.Machine

theorem isNaN_of_fle {x y : F32} (h : fle x y = true) : isNaN x = false ∧ isNaN y = false := by
  cases hx : isNaN x with
  | true => simp [fle, hx] at h
  | false =>
    cases hy : isNaN y with
    | true => simp [fle, hy] at h
    | false => exact ⟨rfl, rfl⟩

theorem orderKey_le_of_fle {x y : F32} (h : fle x y = true) : orderKey x ≤ orderKey y := by
  obtain ⟨hx, hy⟩ := isNaN_of_fle h
  exact (fle_iff hx hy).1 h

theorem flt_of_flt_of_fle {x y z : F32} (h : flt x y = true) (h' : fle y z = true) : flt x z = true := by
  obtain ⟨hy, hz⟩ := isNaN_of_fle h'
  have hx : isNaN x = false := by
    cases hx : isNaN x with
    | true => simp [flt, hx] at h
    | false => rfl
  rw [flt_iff hx hy] at h
  rw [flt_iff hx hz]
  exact lt_of_lt_of_le h (orderKey_le_of_fle h')

theorem orderKey_fabs (x : F32) : orderKey (fabs x) = |orderKey x| := by
  rw [orderKey_eq, orderKey_eq, signOf_fabs, mag_fabs, if_neg Bool.false_ne_true]
  cases signOf x <;> simp

/-! ## Shaped units -/

section
variable {pins : List Pin} {bottom top : F32} {curve : Config.Curve} (hp : PinsRise pins bottom top)
include hp

theorem fle_shapeUnit {x y : F32} (h : fle x y = true) :
    fle (shapeUnit pins bottom top curve x) (shapeUnit pins bottom top curve y) = true := by
  obtain ⟨hx, hy⟩ := isNaN_of_fle h
  rw [fle_iff (isNaN_shapeUnit hp hx) (isNaN_shapeUnit hp hy)]
  exact shapeUnit_mono hp hx hy (orderKey_le_of_fle h)

end

theorem shapeUnit_nan {pins : List Pin} {bottom top x : F32} {curve : Config.Curve} (h : isNaN x = true) :
    shapeUnit pins bottom top curve x = canonNaN := by
  rw [shapeUnit, if_pos h]

/-! ## Odd units -/

theorem oddUnit_nan {f : F32 → F32} {x : F32} (h : isNaN x = true) : oddUnit f x = canonNaN := by rw [oddUnit, if_pos h]

theorem oddUnit_of_number {f : F32 → F32} {x : F32} (h : isNaN x = false) :
    oddUnit f x = if signOf x then fneg (f (fneg x)) else f x := by
  rw [oddUnit, h, if_neg Bool.false_ne_true]

/-- R17: an odd extension is odd. -/
theorem oddUnit_fneg (f : F32 → F32) {x : F32} (h : isNaN x = false) : oddUnit f (fneg x) = fneg (oddUnit f x) := by
  rw [oddUnit_of_number h, oddUnit_of_number (by rwa [isNaN_fneg]), signOf_fneg]
  cases signOf x <;> simp

section
variable {pins : List Pin} {top : F32} {curve : Config.Curve} (hp : PinsRise pins posZero top)
  (hz : (posZero, posZero) ∈ pins)
include hp

theorem isNaN_oddUnit {x : F32} (h : isNaN x = false) :
    isNaN (oddUnit (shapeUnit pins posZero top curve) x) = false := by
  rw [oddUnit_of_number h]
  split
  · rw [isNaN_fneg]; exact isNaN_shapeUnit hp (by rwa [isNaN_fneg])
  · exact isNaN_shapeUnit hp h

/-- R17: an odd unit is bounded by its bound from above, on both sides. -/
theorem fle_fabs_oddUnit {x : F32} (h : isNaN x = false) :
    fle (fabs (oddUnit (shapeUnit pins posZero top curve) x)) top = true := by
  have hbound : ∀ y, isNaN y = false → |orderKey (shapeUnit pins posZero top curve y)| ≤ orderKey top := by
    intro y hy
    obtain ⟨hlo, hhi⟩ := shapeUnit_bounds (curve := curve) hp hy
    rwa [abs_of_nonneg hlo]
  rw [fle_iff (by rw [isNaN_fabs]; exact isNaN_oddUnit hp h) hp.bounds.2.1, orderKey_fabs, oddUnit_of_number h]
  split
  · rw [orderKey_fneg, abs_neg]; exact hbound _ (by rwa [isNaN_fneg])
  · exact hbound _ h

include hz

/-- R17: an odd unit is non-decreasing: on each side as the unit is, and through zero because the unit of a zero is one. -/
theorem fle_oddUnit {x y : F32} (h : fle x y = true) :
    fle (oddUnit (shapeUnit pins posZero top curve) x) (oddUnit (shapeUnit pins posZero top curve) y) = true := by
  obtain ⟨hx, hy⟩ := isNaN_of_fle h
  have hkeys := orderKey_le_of_fle h
  have hnonneg : ∀ w, isNaN w = false → 0 ≤ orderKey (shapeUnit pins posZero top curve w) := fun w hw =>
    (shapeUnit_bounds (curve := curve) hp hw).1
  have hzero : ∀ w, isNaN w = false → 0 = orderKey w → orderKey (shapeUnit pins posZero top curve w) = 0 := fun w hw h0 =>
    shapeUnit_pin hp hz hw h0
  rw [fle_iff (isNaN_oddUnit hp hx) (isNaN_oddUnit hp hy), oddUnit_of_number hx, oddUnit_of_number hy]
  cases hsx : signOf x <;> cases hsy : signOf y
  case false.false => exact shapeUnit_mono hp hx hy hkeys
  case true.true =>
    simp only [if_true, orderKey_fneg, Int.neg_le_neg_iff]
    refine shapeUnit_mono hp (by rwa [isNaN_fneg]) (by rwa [isNaN_fneg]) ?_
    rw [orderKey_fneg, orderKey_fneg]
    exact Int.neg_le_neg hkeys
  case true.false =>
    simp only [if_true, Bool.false_eq_true, if_false, orderKey_fneg]
    have := hnonneg (fneg x) (by rwa [isNaN_fneg])
    have := hnonneg y hy
    omega
  case false.true =>
    have hx0 := orderKey_eq x
    have hy0 := orderKey_eq y
    rw [hsx, if_neg Bool.false_ne_true] at hx0
    rw [hsy, if_pos rfl] at hy0
    simp only [if_true, Bool.false_eq_true, if_false, orderKey_fneg]
    rw [hzero x hx (by omega), hzero (fneg y) (by rwa [isNaN_fneg]) (by rw [orderKey_fneg]; omega)]
    exact le_refl _

end

/-! ## POW10 -/

theorem pow10Least_mono {x y : F32} (h : fle x y = true) : orderKey (pow10Least x) ≤ orderKey (pow10Least y) := by
  unfold pow10Least
  split
  · next hx => rw [if_pos (flt_of_flt_of_fle hx h)]
  · split <;> decide

theorem orderKey_pow10Least (x : F32) : 0 ≤ orderKey (pow10Least x) ∧ orderKey (pow10Least x) ≤ 1 := by
  unfold pow10Least
  split <;> decide

theorem isNaN_fPow10 {x : F32} (h : isNaN x = false) : isNaN (fPow10 x) = false := by
  rw [fPow10]
  rcases atLeast_cases (pow10Least x) (shapeUnit pow10Pins posZero posInf Config.pow10Curve x) with ⟨-, heq⟩ | ⟨-, heq⟩ <;>
    rw [heq]
  · have := orderKey_pow10Least x
    exact (isNaN_iff_orderKey _).2 ⟨by omega, by omega⟩
  · exact isNaN_shapeUnit pow10Pins_rise h

/-- R17: a zero of the curve replaced by the least value keeps the order, because the least value rises with the operand and
is at most the least positive number. -/
theorem fle_fPow10 {x y : F32} (h : fle x y = true) : fle (fPow10 x) (fPow10 y) = true := by
  obtain ⟨hx, hy⟩ := isNaN_of_fle h
  rw [fle_iff (isNaN_fPow10 hx) (isNaN_fPow10 hy), fPow10, fPow10]
  have hmono := shapeUnit_mono (curve := Config.pow10Curve) pow10Pins_rise hx hy (orderKey_le_of_fle h)
  have hlo : 0 ≤ orderKey (shapeUnit pow10Pins posZero posInf Config.pow10Curve x) :=
    (shapeUnit_bounds (curve := Config.pow10Curve) pow10Pins_rise hx).1
  have hleast := pow10Least_mono h
  have hone := orderKey_pow10Least x
  generalize shapeUnit pow10Pins posZero posInf Config.pow10Curve x = r at *
  generalize shapeUnit pow10Pins posZero posInf Config.pow10Curve y = r' at *
  rcases atLeast_cases (pow10Least x) r with ⟨hr, heq⟩ | ⟨hr, heq⟩ <;>
    rcases atLeast_cases (pow10Least y) r' with ⟨hr', heq'⟩ | ⟨hr', heq'⟩ <;> rw [heq, heq'] <;> omega

/-! ## The table of R17 -/

theorem fle_fLog10 {x y : F32} (hx : flt posZero x = true) (h : fle x y = true) : fle (fLog10 x) (fLog10 y) = true := by
  rw [fLog10, fLog10, if_pos hx, if_pos (flt_of_flt_of_fle hx h)]
  exact fle_shapeUnit log10Pins_rise h

theorem fExp_posZero : fExp posZero = fOne := by decide +kernel

theorem fle_fExp_fOne {x : F32} (h : fle x posZero = true) : fle (fExp x) fOne = true := by
  rw [← fExp_posZero]
  exact fle_shapeUnit expPins_rise h

/-- R17, R350, I22: POW10 of a number is positive, or it underflowed. -/
theorem fPow10_positive_or_underflow {x : F32} (h : isNaN x = false) :
    flt posZero (fPow10 x) = true ∨ (fPow10 x = posZero ∧ fle x pow10Underflow = true) := by
  rcases fPow10_positive h with hpos | ⟨hzero, hle⟩
  · exact .inl ((flt_iff isNaN_posZero (isNaN_fPow10 h)).2 hpos)
  · refine .inr ⟨hzero, ?_⟩
    rw [fle_eq_not, h, hle]; rfl

/-- Settles O58: order, oddness and bounds for every curve, and the required values at their operands. -/
theorem functionUnitsAreAdmissible : Obligations.FunctionUnitsAreAdmissible := by
  have htanh : (posZero, posZero) ∈ tanhPins := List.mem_cons_self
  have hatan : (posZero, posZero) ∈ atanPins := List.mem_cons_self
  refine ⟨fun x y h => ?order, fun x h => ?nan, fun x h => ?oddAndBounded, ?tanh0, ?tanhNeg0, ?tanhInf, ?atan0, ?atanNeg0,
    ?expNegInf, fExp_posZero, ?expNeg0, ?tens, ?tenths, ?log10Inf, ?pow10NegInf, ?pow10Inf, fun x h => ?positive⟩
  case order =>
    exact ⟨fle_oddUnit tanhPins_rise htanh h, fle_oddUnit atanPins_rise hatan h, fle_shapeUnit expPins_rise h, fle_fPow10 h,
      fun hx => fle_fLog10 hx h⟩
  case nan =>
    refine ⟨oddUnit_nan h, oddUnit_nan h, shapeUnit_nan h, ?_⟩
    rw [fPow10, shapeUnit_nan h]; rfl
  case oddAndBounded =>
    exact ⟨oddUnit_fneg _ h, oddUnit_fneg _ h, fle_fabs_oddUnit tanhPins_rise h, fle_fabs_oddUnit atanPins_rise h,
      fle_fExp_fOne⟩
  case positive => exact fPow10_positive_or_underflow (isNaN_of_isFinite h)
  all_goals decide +kernel

end Sys2Proof.Machine
end

section
/-! PROOFS. The DC offset of a block (R388): rounding to nearest never passes a binary32 number, so that the generator's word
scaled by 2^-31 stays within 1 and its product with the amplitude within the amplitude. -/

namespace Sys2Proof.Machine

/-- The finite numbers lie below the point from which rounding overflows. -/
theorem abs_binary32Value_lt {y : F32} (h : isFinite y = true) : |binary32Value y| < 2 ^ 128 - 2 ^ 103 := by
  have hle : mag y ≤ mag 0x7F7FFFFF#32 := Nat.le_of_lt_succ ((isFinite_iff y).1 h)
  refine lt_of_le_of_lt ((abs_binary32Value_le_iff _ _).2 hle) ?_
  rw [abs_binary32Value, show units 0x7F7FFFFF#32 = (2 ^ 24 - 1) * 2 ^ 253 by decide +kernel]
  norm_num

/-- R11: the number nearest to v is no further from zero than any binary32 number that v is no further from zero than. -/
theorem mag_le_of_nearestEven {v : ℚ} {r y : F32} (h : nearestEven v r) (hy : isFinite y = true)
    (hv : |v| ≤ |binary32Value y|) : mag r ≤ mag y := by
  rw [nearestEven, if_pos (lt_of_le_of_lt hv (abs_binary32Value_lt hy))] at h
  obtain ⟨-, hnearest⟩ := h
  have hpos := (hnearest y hy).1
  have hneg := (hnearest (fneg y) (by rwa [isFinite_fneg])).1
  rw [binary32Value_fneg] at hneg
  rw [← abs_binary32Value_le_iff]
  generalize binary32Value r = p at *
  generalize binary32Value y = q at *
  obtain ⟨hlo, hhi⟩ := abs_le.1 hv
  have hleft : |p - v| ≤ |q| - v := by
    rcases abs_cases q with ⟨hq, -⟩ | ⟨hq, -⟩ <;> rw [hq] at hlo hhi ⊢
    · rwa [abs_of_nonneg (a := q - v) (by linarith)] at hpos
    · rwa [abs_of_nonneg (a := -q - v) (by linarith)] at hneg
  have hright : |p - v| ≤ |q| + v := by
    rcases abs_cases q with ⟨hq, -⟩ | ⟨hq, -⟩ <;> rw [hq] at hlo hhi ⊢
    · rw [abs_of_nonpos (a := -q - v) (by linarith)] at hneg; linarith
    · rw [abs_of_nonpos (a := q - v) (by linarith)] at hpos; linarith
  obtain ⟨hp, -⟩ := abs_le.1 hright
  obtain ⟨-, hp'⟩ := abs_le.1 hleft
  exact abs_le.2 ⟨by linarith, by linarith⟩

theorem isFinite_of_mag_le {x y : F32} (hy : isFinite y = true) (h : mag x ≤ mag y) : isFinite x = true := by
  rw [isFinite_iff] at *
  omega

/-- R16: a two's-complement word converts to at most 2^31 in magnitude. -/
theorem mag_s2f_le (w : Word) : mag (s2f w) ≤ mag 0x4F000000#32 := by
  refine mag_le_of_nearestEven (nearestEven_s2f w) (by decide) ?_
  have hunits : units 0x4F000000#32 = 2 ^ 180 := by decide +kernel
  have hval : |binary32Value 0x4F000000#32| = 2 ^ 31 := by rw [abs_binary32Value, hunits]; norm_num
  have hlo := BitVec.le_toInt w
  have hhi := BitVec.toInt_lt (x := w)
  rw [hval, abs_le]
  constructor
  · exact_mod_cast hlo
  · exact_mod_cast hhi.le

/-- R388: the generator's word scaled by 2^-31 lies within plus and minus 1. -/
theorem mag_scaled_le (w : Word) : mag (fmul (s2f w) twoToMinus31) ≤ mag fOne := by
  have hfin : isFinite (s2f w) = true := isFinite_of_mag_le (by decide) (mag_s2f_le w)
  refine mag_le_of_nearestEven (nearestEven_fmul hfin (by decide)) (by decide) ?_
  have hscale : |binary32Value 0x4F000000#32| * |binary32Value twoToMinus31| = |binary32Value fOne| := by
    have hunits : units 0x4F000000#32 = 2 ^ 180 ∧ units twoToMinus31 = 2 ^ 118 := by decide +kernel
    rw [abs_binary32Value, abs_binary32Value, abs_binary32Value, units_fOne, hunits.1, hunits.2]
    norm_num
  rw [abs_mul, ← hscale]
  exact mul_le_mul_of_nonneg_right ((abs_binary32Value_le_iff _ _).2 (mag_s2f_le w)) (abs_nonneg _)

/-- R388: a product with a factor within plus and minus 1 is no larger than the other factor. -/
theorem mag_fmul_le {a w : F32} (ha : isFinite a = true) (hw : mag w ≤ mag fOne) : mag (fmul a w) ≤ mag a := by
  refine mag_le_of_nearestEven (nearestEven_fmul ha (isFinite_of_mag_le (by decide) hw)) ha ?_
  have hone : |binary32Value w| ≤ 1 := by
    refine ((abs_binary32Value_le_iff _ _).2 hw).trans ?_
    rw [abs_binary32Value, units_fOne]
    norm_num
  rw [abs_mul]
  exact mul_le_of_le_one_right (abs_nonneg _) hone

theorem mag_dcOffset_le {amp : F32} (h : isFinite amp = true) (w : Word) : mag (dcOffset amp w) ≤ mag amp :=
  mag_fmul_le h (mag_scaled_le w)

/-- Settles O57: both products round to at most the numbers that bound them. -/
theorem offsetStaysWithinAmplitude : Obligations.OffsetStaysWithinAmplitude := by
  intro amp w hamp
  obtain ⟨hfin, hnonneg⟩ := Bool.and_eq_true_iff.1 hamp
  have hle := mag_dcOffset_le hfin w
  refine ⟨?within, fun hzero => by omega⟩
  case within =>
    have hkey : 0 ≤ orderKey amp := orderKey_le_of_fle hnonneg
    have hamp' := orderKey_eq amp
    have hoff : isNaN (fabs (dcOffset amp w)) = false := by
      rw [isNaN_fabs]; exact isNaN_of_isFinite (isFinite_of_mag_le hfin hle)
    rw [fle_iff hoff (isNaN_of_isFinite hfin), orderKey_eq, signOf_fabs, mag_fabs, if_neg Bool.false_ne_true]
    split at hamp' <;> omega

end Sys2Proof.Machine
end

section
/-! PROOFS. Exact corner cases of the datapaths: a zero factor or addend, a unit factor, a NaN operand. Each rule's corner is
one or two of these, applied in the order of the rule's operations. -/

namespace Sys2Proof.Machine

/-! ## Zeros, ones and NaNs in one operation -/

/-- R12: a NaN result is the canonical NaN, so that taking the canonical form of a product changes nothing. -/
theorem canonical_fmul (a b : F32) : canonical (fmul a b) = fmul a b := by
  unfold fmul
  simp only
  split_ifs
  · rfl
  · rfl
  · exact canonical_of_not_nan (isNaN_withSign _ _ (by decide))
  · exact canonical_of_not_nan (isNaN_roundUnits _ _ _)

theorem canonical_fdiv (a b : F32) : canonical (fdiv a b) = fdiv a b := by
  unfold fdiv
  simp only
  split_ifs
  · rfl
  · rfl
  · exact canonical_of_not_nan (isNaN_withSign _ _ (by decide))
  · exact canonical_of_not_nan (isNaN_withSign _ _ (by decide))
  · rfl
  · exact canonical_of_not_nan (isNaN_withSign _ _ (by decide))
  · exact canonical_of_not_nan (isNaN_roundUnits _ _ _)

/-- A zero times a finite value is a zero. -/
theorem mag_fmul_zero {z x : F32} (hz : mag z = 0) (hx : isFinite x = true) :
    mag (fmul z x) = 0 ∧ mag (fmul x z) = 0 := by
  obtain ⟨hxz, hzx⟩ := fmul_zero_of_finite hx hz
  rw [hxz, hzx, mag_withSign _ _ (by decide), mag_withSign _ _ (by decide)]
  exact ⟨rfl, rfl⟩

/-- R13: adding a zero leaves every finite value other than -0. -/
theorem fadd_zero_of_ne_negZero {x z : F32} (hx : isFinite x = true) (hne : x ≠ 0x80000000) (hz : mag z = 0) :
    fadd x z = x := by
  by_cases hx0 : mag x = 0
  · obtain rfl := ((mag_eq_iff_zero x).1 hx0).resolve_right hne
    rcases (mag_eq_iff_zero z).1 hz with rfl | rfl <;> decide +kernel
  · exact (fadd_zero_of_nonzero hx hx0 hz).1

theorem fmul_fOne_of_not_nan {x : F32} (h : isNaN x = false) : fmul x fOne = x := by
  rw [fmul_fOne, canonical_of_not_nan h]

/-- A pattern that is no zero is determined by its place in the order of R14. -/
theorem eq_of_orderKey_eq {x y : F32} (h : orderKey x = orderKey y) (hy : orderKey y ≠ 0) : x = y := by
  rw [orderKey_eq] at h hy
  rw [orderKey_eq] at h
  cases hsx : signOf x <;> cases hsy : signOf y <;> simp only [hsx, hsy, Bool.false_eq_true, if_false, if_true] at h hy
  case false.false => exact eq_of_sign_mag (hsx.trans hsy.symm) (by omega)
  case true.true => exact eq_of_sign_mag (hsx.trans hsy.symm) (by omega)
  all_goals omega

/-! ## The auto-gain -/

/-- R275: above the knee with K3 zero the boost is exactly 1.0. -/
theorem ag_of_zero_boost {p : F32} {c : Record} (hk3 : mag c.k3 = 0) (hfin : isFinite (fsub p c.knee) = true) :
    ag p c = fdiv fOne (fmul (fadd fOne (fmul p c.k1)) (fadd fOne (fmul p c.k2))) := by
  have hboost : fadd fOne (fmul (fsub p c.knee) c.k3) = fOne := by rw [fmul_comm, fadd_fOne_fmul_zero hk3 hfin]
  simp only [ag, hboost, fmul_fOne, canonical_fdiv, ite_self]

/-- Settles O27: the pseudocode is the definition, and both corners make a factor exactly 1.0. -/
theorem autoGainCorners : Obligations.AutoGainCorners := fun _ _ => ⟨rfl, ag_eq_fOne, ag_of_zero_boost⟩

/-! ## One ToneShaper sample -/

/-- R280: the output from the new filter memory on. -/
theorem tsDatapath_output {t : TsRegs} (x : F32) (h : flagPS t.acb.flags = false) :
    (tsDatapath t x).1 = fmul
      (fadd (fmul (fmul (fmul t.acb.kpd t.proc) (fsub (tsDatapath t x).2.s (fmul x t.acb.otrim))) t.acb.postGain) x)
      t.autoGain := by
  change fmul (fadd (if flagPS t.acb.flags then _ else _) x) t.autoGain = _
  rw [h, if_neg Bool.false_ne_true]
  rfl

/-- Settles O46: the wet part is a zero through all three products, and adding it leaves the dry sample. -/
theorem zeroProcessingPassesDry : Obligations.ZeroProcessingPassesDry := by
  intro t x hproc hps hx hx0 hkpd hpost hdiff
  have hamount := (mag_fmul_zero hproc hkpd).2
  have hwet := (mag_fmul_zero hamount hdiff).1
  have hgained := (mag_fmul_zero hwet hpost).1
  rw [tsDatapath_output x hps, (fadd_zero_of_nonzero hx hx0 hgained).2]

/-- R282: a NaN input lets the envelope decay. -/
theorem followEnvelope_nan {x : F32} (e decay : F32) (h : isNaN x = true) : followEnvelope e decay x = fmul e decay := by
  rw [followEnvelope, (comparisons_of_isNaN (.inr (by rwa [isNaN_fabs]))).1, if_neg Bool.false_ne_true]

/-- R283: PREV takes the input, so an input that is not finite leaves something to repair. -/
theorem tsStateFinite_tsDatapath_of_not_finite (t : TsRegs) {x : F32} (h : isFinite x = false) :
    tsStateFinite (tsDatapath t x).2 = false := by
  rw [tsStateFinite, tsDatapath_prev, h, Bool.and_false, Bool.false_and]

/-- Settles O47: the sample's own check finds PREV not finite on every channel whose input is not. -/
theorem nonFiniteInputIsRepaired : Obligations.NonFiniteInputIsRepaired := by
  intro s ha0
  have hbad0 := tsStateFinite_tsDatapath_of_not_finite s.ts0 ha0
  refine ⟨?left, fun hnan hdecay => ?decay, fun ha1 => ?both⟩
  case left =>
    refine ⟨_, exec_tsProcess 1 false s, tsStateFinite_repairTs _, repaired_of_not_finite ha0, ?_⟩
    rw [errAfterTs_both]
    simp [hbad0, processInput, operand, selectsLeft, selectsRight]
  case decay =>
    refine ⟨_, exec_tsProcess 1 false s, ?_⟩
    change repaired (followEnvelope s.ts0.env s.ts0.acb.envDecay s.a0) = _
    rw [followEnvelope_nan _ _ hnan, repaired_of_finite hdecay]
  case both =>
    have hbad1 := tsStateFinite_tsDatapath_of_not_finite s.ts1 ha1
    refine ⟨_, exec_tsProcess 3 false s, tsStateFinite_repairTs _, tsStateFinite_repairTs _, ?_⟩
    rw [errAfterTs_both]
    simp [hbad0, hbad1, processInput, operand, selectsLeft, selectsRight, BitVec.or_assoc]

/-- R12: only PREV tells one NaN input from another. -/
theorem tsDatapath_nan (t : TsRegs) {x y : F32} (hx : isNaN x = true) (hy : isNaN y = true) :
    tsDatapath t x = ((tsDatapath t y).1, { (tsDatapath t y).2 with prev := x }) := by
  simp only [tsDatapath, followEnvelope_nan _ _ hx, followEnvelope_nan _ _ hy, fmul_nan_left _ hx, fmul_nan_left _ hy,
    fmul_nan_right _ hx, fmul_nan_right _ hy, fsub_nan_left _ hx, fsub_nan_left _ hy, fadd_nan_right _ hx,
    fadd_nan_right _ hy]
  cases flagG0 t.acb.flags with
  | true => simp only [if_true, fmul_nan_left _ hx, fmul_nan_left _ hy]
  | false => rfl

/-- R283: what the non-finite check leaves of a channel does not tell one NaN input from another either. -/
theorem repairTs_tsDatapath_nan (t : TsRegs) {x y : F32} (hx : isNaN x = true) (hy : isNaN y = true) :
    repairTs (tsDatapath t x).2 = repairTs (tsDatapath t y).2
      ∧ tsStateFinite (tsDatapath t x).2 = tsStateFinite (tsDatapath t y).2 := by
  have hfin : isFinite x = false ∧ isFinite y = false := by rw [isFinite_eq, isFinite_eq, hx, hy]; exact ⟨rfl, rfl⟩
  rw [tsStateFinite_tsDatapath_of_not_finite t hfin.1, tsStateFinite_tsDatapath_of_not_finite t hfin.2,
    tsDatapath_nan t hx hy]
  simp only [repairTs, repaired_of_not_finite hfin.1, tsDatapath_prev, repaired_of_not_finite hfin.2, and_self]

/-- R12, R352: a sample multiplied by 1.0 leaves the datapath's output and repaired registers. -/
theorem tsDatapath_fmul_fOne (t : TsRegs) (x : F32) :
    (tsDatapath t (fmul x fOne)).1 = (tsDatapath t x).1
      ∧ repairTs (tsDatapath t (fmul x fOne)).2 = repairTs (tsDatapath t x).2
      ∧ tsStateFinite (tsDatapath t (fmul x fOne)).2 = tsStateFinite (tsDatapath t x).2 := by
  cases hx : isNaN x with
  | false => rw [fmul_fOne_of_not_nan hx]; exact ⟨rfl, rfl, rfl⟩
  | true =>
    have hnan : isNaN (fmul x fOne) = true := by rw [fmul_nan_left _ hx, isNaN_canonNaN]
    exact ⟨by rw [tsDatapath_nan t hnan hx], repairTs_tsDatapath_nan t hnan hx⟩

/-- R280: the output is a product, so that multiplying it by 1.0 leaves it. -/
theorem fmul_tsDatapath_fOne (t : TsRegs) (x : F32) : fmul (tsDatapath t x).1 fOne = (tsDatapath t x).1 := by
  rw [fmul_fOne]
  exact canonical_fmul _ _

/-- Settles O48: the trims of 1.0 leave what the sample reads and what it gives. -/
theorem unityTrimsAreTransparent : Obligations.UnityTrimsAreTransparent := by
  intro chm s hin hout
  have hinput : ∀ c, processInput true c s = fmul (processInput false c s) fOne := fun c =>
    congrArg (fmul (operand c s)) hin
  have hgain : s.cp.outGain = fOne := hout
  obtain ⟨hout0, hregs0, hfin0⟩ := tsDatapath_fmul_fOne s.ts0 (processInput false .left s)
  obtain ⟨hout1, hregs1, hfin1⟩ := tsDatapath_fmul_fOne s.ts1 (processInput false .right s)
  rw [exec_tsProcess, exec_tsProcess]
  simp only [hinput, hgain, hout0, hregs0, hfin0, hout1, hregs1, hfin1, fmul_tsDatapath_fOne, if_true, Bool.false_eq_true,
    if_false]

/-! ## Family T -/

/-- R15: `clamp1` at and beyond 1. -/
theorem clamp1_of_one_le {u : F32} (h : fle fOne u = true) : clamp1 u = fOne := by
  obtain ⟨-, hu⟩ := isNaN_of_fle h
  have hone : orderKey fOne = 0x3F800000 := by decide
  have hnegOne : orderKey fNegOne = -0x3F800000 := by decide
  have hle := orderKey_le_of_fle h
  by_cases hlt : flt fOne u = true
  · rw [clamp1, if_pos hlt]
  · rw [flt_iff isNaN_fOne hu] at hlt
    obtain rfl : u = fOne := eq_of_orderKey_eq (by omega) (by omega)
    decide

/-- R15: `clamp1` at and beyond -1. -/
theorem clamp1_of_le_negOne {u : F32} (h : fle u fNegOne = true) : clamp1 u = fNegOne := by
  obtain ⟨hu, hn⟩ := isNaN_of_fle h
  have hone : orderKey fOne = 0x3F800000 := by decide
  have hnegOne : orderKey fNegOne = -0x3F800000 := by decide
  have hle := orderKey_le_of_fle h
  have hnot : ¬ flt fOne u = true := by rw [flt_iff isNaN_fOne hu]; omega
  rw [clamp1, if_neg hnot]
  by_cases hlt : flt u fNegOne = true
  · rw [if_pos hlt]
  · rw [if_neg hlt]
    rw [flt_iff hu hn] at hlt
    exact eq_of_orderKey_eq (by omega) (by omega)

theorem clamp1_nan {u : F32} (h : isNaN u = true) : clamp1 u = u := by
  rw [clamp1, (comparisons_of_isNaN (.inr h)).1, (comparisons_of_isNaN (.inl h)).1]
  rfl

theorem fsub_canonical (a b : F32) : fsub a (canonical b) = fsub a b := by
  cases hb : isNaN b with
  | false => rw [canonical_of_not_nan hb]
  | true => rw [canonical, hb, if_pos rfl, fsub_nan_right a isNaN_canonNaN, fsub_nan_right a hb]

theorem satT_of_one_le (c : Record) {u : F32} (h : fle fOne u = true) : satT c u = fsub fOne c.ht := by
  have hcube : fmul (fmul fOne fOne) fOne = fOne := by decide +kernel
  simp only [satT, clamp1_of_one_le h, hcube]
  rw [fmul_fOne, fsub_canonical]

/-- R324: beyond -1 the cube is -1, so both terms are those beyond 1 negated. -/
theorem satT_of_le_negOne (c : Record) {u : F32} (h : fle u fNegOne = true) (hn : isNaN (fsub fOne c.ht) = false)
    (hz : mag (fsub fOne c.ht) ≠ 0) : satT c u = fneg (fsub fOne c.ht) := by
  have hcube : fmul (fmul fNegOne fNegOne) fNegOne = fneg fOne := by decide +kernel
  have hht : isNaN c.ht = false := by
    cases hht : isNaN c.ht with
    | false => rfl
    | true => rw [fsub_nan_right _ hht, isNaN_canonNaN] at hn; cases hn
  have hone : fmul fOne c.ht = c.ht := by rw [fmul_comm, fmul_fOne_of_not_nan hht]
  have hterm : fmul c.ht (fneg fOne) = fneg c.ht := by
    rw [fmul_comm, fmul_fneg_left (by rwa [hone]), hone]
  simp only [satT, clamp1_of_le_negOne h, hcube, hterm]
  exact fadd_fneg_fneg hn hz

/-- Settles O50: the clamp is constant on both sides and passes a NaN. -/
theorem transparentFamilyClips : Obligations.TransparentFamilyClips := by
  intro c u
  refine ⟨satT_of_one_le c, satT_of_le_negOne c, fun h => ?nan⟩
  case nan => rw [satT, clamp1_nan h]; exact fsub_nan_left _ h

/-! ## The Mid/Side matrix -/

/-- R430: equal finite operands have no side. -/
theorem msRot_side_self {x : F32} (h : isFinite x = true) : (msRot x x).2 = posZero := by
  have hzero : fmul posZero sqrtHalf = posZero := by decide +kernel
  simp only [msRot, fsub_self h, hzero]

theorem msRot_nan {a b : F32} (h : isNaN a = true ∨ isNaN b = true) : msRot a b = (canonNaN, canonNaN) := by
  rcases h with h | h <;> simp [msRot, h]

/-- Settles O51: the two infinite corners by evaluation. -/
theorem midSideCorners : Obligations.MidSideCorners :=
  ⟨fun _ => msRot_side_self, by decide +kernel, by decide +kernel, fun _ _ => msRot_nan⟩

/-! ## The BusCompressor's envelope and target -/

/-- R393: a step from the envelope to the target by a zero is no step away from the target. -/
theorem ballistic_eq_target {b : BcRegs} {target : F32} (htarget : isFinite target = true) (hne : target ≠ 0x80000000)
    (hstep : mag (fmul (if flt target b.env then b.alphaA else b.alphaR) (fsub b.env target)) = 0) :
    ballistic b target = target :=
  fadd_zero_of_ne_negZero htarget hne hstep

/-- R393: an envelope at its target stays. -/
theorem ballistic_settled {b : BcRegs} (henv : isFinite b.env = true) (hne : b.env ≠ 0x80000000)
    (hrelease : isFinite b.alphaR = true) : ballistic b b.env = b.env := by
  have hself : flt b.env b.env = false := by
    rw [← Bool.not_eq_true, flt_iff (isNaN_of_isFinite henv) (isNaN_of_isFinite henv)]; omega
  refine ballistic_eq_target henv hne ?_
  rw [hself, if_neg Bool.false_ne_true, fsub_self henv]
  exact (mag_fmul_zero rfl hrelease).2

/-- Settles O52: in both corners one factor of the step is a zero. -/
theorem envelopeReachesAndKeepsTarget : Obligations.EnvelopeReachesAndKeepsTarget := by
  intro b
  refine ⟨fun target hcoeff _ htarget hdiff hne => ?jump, ballistic_settled⟩
  case jump =>
    refine ballistic_eq_target htarget hne ?_
    rw [hcoeff]
    exact (mag_fmul_zero rfl hdiff).1

/-- Settles O55: 1 - 1/1 is +0, and the excess is finite. -/
theorem unityRatioNeverReduces : Obligations.UnityRatioNeverReduces := by
  intro thresh dsel hexcess
  have hslope : fsub fOne (fdiv fOne fOne) = posZero := by decide +kernel
  change mag (targetGr thresh fOne dsel) = 0
  simp only [targetGr, hslope]
  split_ifs
  · rfl
  · rfl
  · exact (mag_fmul_zero rfl hexcess).2

/-! ## A quiet frame -/

/-- R390, R396: without mid-side neither end of the frame rotates. -/
theorem frameOutputs_of_not_ms {b : BcRegs} (h : msEnabled b.flags = false) (x y : F32) :
    frameOutputs b x y = (fadd (busSat b (fmul x (frameGain b.env b.makeup))) b.dcOff,
      fadd (busSat b (fmul y (frameGain b.env b.makeup))) b.dcOff) := by
  simp only [frameOutputs, msIn, msOut, h, Bool.and_false, Bool.false_eq_true, if_false]

/-- R394: no reduction and no makeup is a gain of exactly 1.0. -/
theorem frameGain_zero : frameGain 0 0 = fOne := by decide +kernel

/-- R395: within the knee and without boost the saturation leaves a number. -/
theorem busSat_within_knee {b : BcRegs} {v : F32} (hv : isNaN v = false) (hknee : fle (fabs v) b.knee = true)
    (hboost : fadd fOne (fmul b.drive b.boost) = fOne) : busSat b v = v := by
  simp only [busSat, softClip, hknee, if_true, hboost, fmul_fOne_of_not_nan hv]

/-- R394 to R396: one channel of a quiet frame. -/
theorem quietSample {b : BcRegs} {v : F32} (hv : isFinite v = true) (hv0 : mag v ≠ 0) (hknee : fle (fabs v) b.knee = true)
    (hboost : fadd fOne (fmul b.drive b.boost) = fOne) : fadd (busSat b (fmul v fOne)) 0 = v := by
  have hn := isNaN_of_isFinite hv
  rw [fmul_fOne_of_not_nan hn, busSat_within_knee hn hknee hboost]
  exact (fadd_zero_of_nonzero hv hv0 rfl).1

/-- Settles O54: the envelope stays at its target +0, which is a gain of 1.0, and every later stage leaves the samples. -/
theorem quietFramePassesThrough : Obligations.QuietFramePassesThrough := by
  intro s hnch hms henv hmakeup hrelease hdcOff hboost htarget hx hx0 hxknee hy hy0 hyknee
  have hcheck : ¬ (s.bc.flags.getLsbD 1 = true ∧ s.bc.nch = 1) := fun h => by
    rw [hnch] at h; exact absurd h.2 (by decide)
  have hin : msIn s.bc s.a0 s.a1 = (s.a0, s.a1) := by rw [msIn, hms]; rfl
  have henvelope : (detectorStep s.bc s.a0 s.a1).env = 0 := by
    simp only [detectorStep, hin, hnch]
    rw [htarget]
    have hsettled := ballistic_settled (b := s.bc) (by rw [henv]; rfl) (by rw [henv]; decide) hrelease
    rwa [henv] at hsettled
  have hout : frameOutputs (detectorStep s.bc s.a0 s.a1) s.a0 s.a1 = (s.a0, s.a1) := by
    rw [frameOutputs_of_not_ms (b := detectorStep s.bc s.a0 s.a1) hms, henvelope,
      show (detectorStep s.bc s.a0 s.a1).makeup = 0 from hmakeup, show (detectorStep s.bc s.a0 s.a1).dcOff = 0 from hdcOff,
      frameGain_zero]
    exact congrArg₂ Prod.mk (quietSample hx hx0 hxknee hboost) (quietSample hy hy0 hyknee hboost)
  refine ⟨frame s, exec_bcFrame hcheck, ?_⟩
  rw [frame_eq, hout, detectorStep_nch, hnch]
  refine ⟨rfl, rfl, ?_⟩
  change repaired (detectorStep s.bc s.a0 s.a1).env = 0
  rw [henvelope]; rfl

end Sys2Proof.Machine
end

section
/-! PROOFS. The trims, the derived setters, the block offset, the waveshaper families and the host's pseudo-instructions, as
their rules write them. -/

namespace Sys2Proof.Machine

/-- Settles O36: the trims' checks and effects, and the three gains that R17 requires of POW10. -/
theorem trimResults : Obligations.TrimResults := by
  refine ⟨fun s => ?_, rfl, rfl, by decide +kernel, by decide +kernel, by decide +kernel⟩
  obtain ⟨hin, hinRefused, -⟩ := checkedSetter_and (i := .cpSetInTrim) (s := s) rfl rfl trivial
  obtain ⟨hout, houtRefused, -⟩ := checkedSetter_and (i := .cpSetOutTrim) (s := s) rfl rfl trivial
  exact ⟨hin, hinRefused, hout, houtRefused⟩

/-- R16: a 32-bit integer converts to a finite number. -/
theorem isFinite_i2f {n : Nat} (h : n ≤ 2 ^ 32) : isFinite (i2f n) = true := by
  have hunits : units 0x4F800000#32 = 2 ^ 181 := by decide +kernel
  have hval : |binary32Value 0x4F800000#32| = 2 ^ 32 := by rw [abs_binary32Value, hunits]; norm_num
  refine isFinite_of_mag_le (y := 0x4F800000#32) (by decide) (mag_le_of_nearestEven (nearestEven_i2f n) (by decide) ?_)
  rw [hval, abs_of_nonneg (Nat.cast_nonneg n)]
  exact_mod_cast h

/-- R376: a time constant of +0 ms has the coefficient +0, through EXP(-infinity). -/
theorem alpha_posZero (rate : Word) : alpha posZero rate.toNat = posZero := by
  have hproduct : fmul posZero (i2f rate.toNat) = posZero := by
    rw [(fmul_zero_of_finite (isFinite_i2f rate.isLt.le) rfl).2, i2f, signOf_roundUnits]; rfl
  rw [alpha, hproduct]
  decide +kernel

/-- Settles O40: each setter is its check and its formula, and the formula at +0. -/
theorem derivedSetterResults : Obligations.DerivedSetterResults := by
  refine ⟨fun s => ?_, rfl, rfl, rfl, alpha_posZero⟩
  obtain ⟨hattack, hattackRefused, -⟩ := checkedSetter_and (i := .bcSetAttack) (s := s) rfl rfl trivial
  obtain ⟨hrelease, hreleaseRefused, -⟩ := checkedSetter_and (i := .bcSetRelease) (s := s) rfl rfl trivial
  obtain ⟨hscFreq, hscFreqRefused, -⟩ := checkedSetter_and (i := .bcSetScFreq) (s := s) rfl rfl trivial
  exact ⟨hattack, hattackRefused, hrelease, hreleaseRefused, hscFreq, hscFreqRefused⟩

/-- Settles O43: BC_BLOCK_BEGIN makes no check, and the generator and the offset are R397's and R388's expressions. -/
theorem blockBeginResult : Obligations.BlockBeginResult := fun _ => ⟨rfl, rfl⟩

/-- Settles O49: the selection of R325 and the families' expressions, a cube and a fifth power being shared products. -/
theorem waveshaperFamilies : Obligations.WaveshaperFamilies := fun _ _ _ _ => rfl

/-- Settles O60: the expansions are the transactions, and each line is read by evaluation. -/
theorem pseudoInstructionExpansions : Obligations.PseudoInstructionExpansions := by
  refine ⟨fun v v' chm i => ⟨rfl, rfl, rfl, ?sample, rfl, rfl⟩, fun _ _ _ _ => rfl, ?_, ?_, ?_, ?_, ?_, ?_, ?_⟩
  case sample =>
    have hword : encode (.tsProcess chm false) = wordC 0x14 chm := (encode_tsProcess chm false).trans BitVec.or_zero
    rw [sample, hostCommand, hword]
    rfl
  all_goals decide +kernel

end Sys2Proof.Machine
end
